-- ==== Sys2Proof/Word.lean ====
section
/-! DEFINITION. The word types of the RDE: 32-bit registers and port data, bytes, and the two-bit indices of
sample buffers and tap banks (00_scope.md R7, R9; 30_encoding.md R90). -/
namespace Sys2Proof

/-- A register, a command word, a word of the host port: 32 bits (00_scope.md R7). -/
abbrev Word := BitVec 32

/-- The unit of sample and tap memory (10_state.md R31, R37). -/
abbrev Byte := BitVec 8

/-- A byte a rule may call unspecified: `none` is "no value the spec fixes" (10_state.md R41). -/
abbrev MaybeByte := Option Byte

/-- The index of a sample buffer; `NBUF = 4` (00_scope.md R7). -/
abbrev BufIx := Fin 4

/-- The index of a tap bank; `NBANK = 4` (00_scope.md R7). -/
abbrev BankIx := Fin 4

end Sys2Proof
end

