-- ==== Sys2Proof/Syntax.lean ====
section
/-! DEFINITION. The abstract syntax of the nine commands (30_encoding.md R93), one constructor per row of
spec/opcode_table.json, and the fields of a command word (30_encoding.md R90). -/
namespace Sys2Proof

/-- The nine commands. `src`, `dst` name sample buffers, `tb`, `aab`, `hpb` tap banks; `fcp` says whether the carrier
is register `FC` or absent, `rum` whether the rumble stage runs (30_encoding.md R90, R93). -/
inductive Instr where
  /-- `NOP` (46_system_and_host.md R220). -/
  | nop
  /-- `FIR` (41_fir.md R160). -/
  | fir (src dst : BufIx) (tb : BankIx)
  /-- `XLATE` (42_translate.md R170). -/
  | xlate (src dst : BufIx) (fcp : Bool)
  /-- `DECIM` (43_decimate.md R180). -/
  | decim (src dst : BufIx) (aab : BankIx)
  /-- `SQMAG` (44_detectors.md R190). -/
  | sqmag (src dst : BufIx)
  /-- `FMDISC` (44_detectors.md R193). -/
  | fmdisc (src dst : BufIx)
  /-- `AMDEM` (45_demodulators.md R200). -/
  | amdem (src dst : BufIx) (tb aab hpb : BankIx) (fcp rum : Bool)
  /-- `FMDEM` (45_demodulators.md R205). -/
  | fmdem (src dst : BufIx) (tb aab : BankIx) (fcp : Bool)
  /-- `SSBDEM` (45_demodulators.md R210). -/
  | ssbdem (src dst : BufIx) (aab : BankIx) (fcp : Bool)
deriving DecidableEq, Repr

/-- The nine opcodes of 30_encoding.md R93. -/
inductive Opcode where
  | nop | fir | xlate | decim | sqmag | fmdisc | amdem | fmdem | ssbdem
deriving DecidableEq, Repr

/-- The number of an opcode, bits 3:0 of the word (30_encoding.md R93). -/
def Opcode.code : Opcode → BitVec 4
  | .nop => 0x0
  | .fir => 0x1
  | .xlate => 0x2
  | .decim => 0x3
  | .sqmag => 0x4
  | .fmdisc => 0x5
  | .amdem => 0x8
  | .fmdem => 0x9
  | .ssbdem => 0xA

/-- The fields of a command word, whatever the word (30_encoding.md R90). -/
structure Fields where
  opc : BitVec 4
  src : BufIx
  dst : BufIx
  tb : BankIx
  aab : BankIx
  hpb : BankIx
  fcp : Bool
  rum : Bool
  reserved : BitVec 16
deriving DecidableEq, Repr

/-- The opcode of a command (30_encoding.md R93). -/
def Instr.opcode : Instr → Opcode
  | .nop => .nop
  | .fir _ _ _ => .fir
  | .xlate _ _ _ => .xlate
  | .decim _ _ _ => .decim
  | .sqmag _ _ => .sqmag
  | .fmdisc _ _ => .fmdisc
  | .amdem _ _ _ _ _ _ _ => .amdem
  | .fmdem _ _ _ _ _ => .fmdem
  | .ssbdem _ _ _ _ => .ssbdem

/-- The field values of a command; a field the command does not use is 0 (30_encoding.md R93, R100). -/
def Instr.fields : Instr → Fields
  | .nop => ⟨Opcode.nop.code, 0, 0, 0, 0, 0, false, false, 0⟩
  | .fir src dst tb => ⟨Opcode.fir.code, src, dst, tb, 0, 0, false, false, 0⟩
  | .xlate src dst fcp => ⟨Opcode.xlate.code, src, dst, 0, 0, 0, fcp, false, 0⟩
  | .decim src dst aab => ⟨Opcode.decim.code, src, dst, 0, aab, 0, false, false, 0⟩
  | .sqmag src dst => ⟨Opcode.sqmag.code, src, dst, 0, 0, 0, false, false, 0⟩
  | .fmdisc src dst => ⟨Opcode.fmdisc.code, src, dst, 0, 0, 0, false, false, 0⟩
  | .amdem src dst tb aab hpb fcp rum => ⟨Opcode.amdem.code, src, dst, tb, aab, hpb, fcp, rum, 0⟩
  | .fmdem src dst tb aab fcp => ⟨Opcode.fmdem.code, src, dst, tb, aab, 0, fcp, false, 0⟩
  | .ssbdem src dst aab fcp => ⟨Opcode.ssbdem.code, src, dst, 0, aab, 0, fcp, false, 0⟩

/-- The destination buffer of a data command; `NOP` has none (30_encoding.md R93). -/
def Instr.dst? : Instr → Option BufIx
  | .nop => none
  | .fir _ dst _ => some dst
  | .xlate _ dst _ => some dst
  | .decim _ dst _ => some dst
  | .sqmag _ dst => some dst
  | .fmdisc _ dst => some dst
  | .amdem _ dst _ _ _ _ _ => some dst
  | .fmdem _ dst _ _ _ => some dst
  | .ssbdem _ dst _ _ => some dst

/-- The source buffer of a data command; `NOP` has none (30_encoding.md R93). -/
def Instr.src? : Instr → Option BufIx
  | .nop => none
  | .fir src _ _ => some src
  | .xlate src _ _ => some src
  | .decim src _ _ => some src
  | .sqmag src _ => some src
  | .fmdisc src _ => some src
  | .amdem src _ _ _ _ _ _ => some src
  | .fmdem src _ _ _ _ => some src
  | .ssbdem src _ _ _ => some src

end Sys2Proof
end

