-- ==== Sys2Proof/WellFormed.lean ====
section
/-! DEFINITION. Which command words are legal, by the fields each opcode uses (30_encoding.md R93, R94). The two-bit
indices are in range by construction (30_encoding.md R90), so an `Instr` can be ill-formed in no other way than the
fields of its word can. -/
namespace Sys2Proof

/-- Which fields a command uses; every other field must be 0 (30_encoding.md R93). -/
structure Uses where
  buffers : Bool
  tb : Bool
  aab : Bool
  hpb : Bool
  fcp : Bool
  rum : Bool
deriving DecidableEq, Repr

/-- The columns "fields used" and "fields that must be 0" of the table of 30_encoding.md R93. -/
def Opcode.uses : Opcode → Uses
  | .nop => ⟨false, false, false, false, false, false⟩
  | .fir => ⟨true, true, false, false, false, false⟩
  | .xlate => ⟨true, false, false, false, true, false⟩
  | .decim => ⟨true, false, true, false, false, false⟩
  | .sqmag => ⟨true, false, false, false, false, false⟩
  | .fmdisc => ⟨true, false, false, false, false, false⟩
  | .amdem => ⟨true, true, true, true, true, true⟩
  | .fmdem => ⟨true, true, true, false, true, false⟩
  | .ssbdem => ⟨true, false, true, false, true, false⟩

/-- The opcode numbered `c`; none for the seven reserved numbers (30_encoding.md R93). -/
def Opcode.ofCode (c : BitVec 4) : Option Opcode :=
  [Opcode.nop, .fir, .xlate, .decim, .sqmag, .fmdisc, .amdem, .fmdem, .ssbdem].find? (fun o => o.code == c)

/-- Every field the opcode does not use is 0 (30_encoding.md R93, R94). -/
def Fields.unusedZero (f : Fields) (u : Uses) : Bool :=
  (u.buffers || (f.src == 0 && f.dst == 0)) && (u.tb || f.tb == 0) && (u.aab || f.aab == 0)
    && (u.hpb || f.hpb == 0) && (u.fcp || f.fcp == false) && (u.rum || f.rum == false) && f.reserved == 0

/-- The fields make a legal command: the opcode is one of the nine and every unused field is 0 (30_encoding.md R94). -/
def Fields.wellFormed (f : Fields) : Bool :=
  match Opcode.ofCode f.opc with
  | none => false
  | some o => f.unusedZero o.uses

/-- A command is well-formed when its fields are (30_encoding.md R93, R94). -/
def Instr.wellFormed (i : Instr) : Bool := i.fields.wellFormed

end Sys2Proof
end

