-- ==== Sys2Proof/Decode.lean ====
section
/-! DEFINITION. The decoder of command words, total on all words (30_encoding.md R95), the encoder (30_encoding.md
R100), and the split of a word into its fields (30_encoding.md R90). -/
namespace Sys2Proof

/-- Bits `lo+1:lo` of a word, as an index (30_encoding.md R90, R92: used as they are). -/
def fieldIx (w : Word) (lo : Nat) : Fin 4 := (w.extractLsb' lo 2).toFin

/-- The fields of any word (30_encoding.md R90). -/
def fieldsOf (w : Word) : Fields where
  opc := w.extractLsb' 0 4
  src := fieldIx w 4
  dst := fieldIx w 6
  tb := fieldIx w 8
  aab := fieldIx w 10
  hpb := fieldIx w 12
  fcp := w.getLsbD 14
  rum := w.getLsbD 15
  reserved := w.extractLsb' 16 16

/-- Why a word is illegal (30_encoding.md R94). Both reasons raise the same `ILLEGAL_CMD`; the names are the model's
(log 20). -/
inductive Illegal where
  /-- `OPC` is 0x6, 0x7 or 0xB to 0xF. -/
  | reservedOpcode
  /-- A bit that must be 0 for this opcode is 1. -/
  | mustBeZero
deriving DecidableEq, Repr

/-- A row of the decoder's table (30_encoding.md R95). -/
structure DecodeRow where
  mask : Word
  pattern : Word
  build : Word → Instr

/-- The decoder's table (30_encoding.md R95; spec/opcode_table.json). -/
def decodeRows : List DecodeRow :=
  [ ⟨0xFFFFFFFF, 0x00000000, fun _ => .nop⟩,
    ⟨0xFFFFFC0F, 0x00000001, fun w => .fir (fieldIx w 4) (fieldIx w 6) (fieldIx w 8)⟩,
    ⟨0xFFFFBF0F, 0x00000002, fun w => .xlate (fieldIx w 4) (fieldIx w 6) (w.getLsbD 14)⟩,
    ⟨0xFFFFF30F, 0x00000003, fun w => .decim (fieldIx w 4) (fieldIx w 6) (fieldIx w 10)⟩,
    ⟨0xFFFFFF0F, 0x00000004, fun w => .sqmag (fieldIx w 4) (fieldIx w 6)⟩,
    ⟨0xFFFFFF0F, 0x00000005, fun w => .fmdisc (fieldIx w 4) (fieldIx w 6)⟩,
    ⟨0xFFFF000F, 0x00000008, fun w => .amdem (fieldIx w 4) (fieldIx w 6) (fieldIx w 8) (fieldIx w 10)
      (fieldIx w 12) (w.getLsbD 14) (w.getLsbD 15)⟩,
    ⟨0xFFFFB00F, 0x00000009, fun w => .fmdem (fieldIx w 4) (fieldIx w 6) (fieldIx w 8) (fieldIx w 10)
      (w.getLsbD 14)⟩,
    ⟨0xFFFFB30F, 0x0000000A, fun w => .ssbdem (fieldIx w 4) (fieldIx w 6) (fieldIx w 10) (w.getLsbD 14)⟩ ]

/-- A word fits a row when its masked bits are the row's (30_encoding.md R95). -/
def DecodeRow.fits (r : DecodeRow) (w : Word) : Bool := w &&& r.mask == r.pattern

/-- The decoder, total on all 2^32 words: the first row that fits, or a named rejection (30_encoding.md R94, R95). -/
def decode (w : Word) : Except Illegal Instr :=
  match decodeRows.find? (fun r => r.fits w) with
  | some r => .ok (r.build w)
  | none =>
    match Opcode.ofCode (w.extractLsb' 0 4) with
    | none => .error .reservedOpcode
    | some _ => .error .mustBeZero

/-- The word with the given field values:
`OPC + 16·src + 64·dst + 256·tb + 1024·aab + 4096·hpb + 16384·FCP + 32768·RUM` (30_encoding.md R100). -/
def Fields.toWord (f : Fields) : Word :=
  BitVec.ofNat 32 (f.opc.toNat + 16 * f.src.val + 64 * f.dst.val + 256 * f.tb.val + 1024 * f.aab.val
    + 4096 * f.hpb.val + 16384 * f.fcp.toNat + 32768 * f.rum.toNat + 65536 * f.reserved.toNat)

/-- The word of a command (30_encoding.md R100). -/
def encode (i : Instr) : Word := i.fields.toWord

/-- The word whose low `nbits` bits are those of `w` and whose other bits are 0; none when it does not fit the one
32-bit format of 30_encoding.md R90, R96. -/
def tableWord (nbits w : Nat) : Option Word :=
  if w % 2 ^ nbits < 2 ^ 32 then some (BitVec.ofNat 32 (w % 2 ^ nbits)) else none

/-- The instruction the decoder reads from the bits `w` of an opcode-table row of `nbits` bits. -/
def decodeTableWord (nbits w : Nat) : Option Instr :=
  match tableWord nbits w with
  | none => none
  | some v =>
    match decode v with
    | .ok i => some i
    | .error _ => none

end Sys2Proof
end

