-- ==== Sys2Proof/Config.lean ====
section
/-! DEFINITION. What an implementation fixes and what the spec leaves open: the structural parameters of
00_scope.md R7, the OPEN functions of the numerics record (40_numerics.md R120), and the free values of
93_implementation_defined.md part 2. Every `opaque` here has no body: no proof can learn which value it is, and a
statement about it holds whatever it is. Where the spec bounds an open value, the bound is in its TYPE. -/
namespace Sys2Proof

/-- The structural parameters of an implementation (00_scope.md R7): `1 ≤ MAXLEN ≤ 2^24`, `1 ≤ MAXTAPS ≤ 4096`.
Each is stored less one, so that every value of the type is a legal parameter.
DESIGN CHOICE (log 8): the state carries them, and no step changes them. -/
structure Params where
  maxLenLess1 : Fin 16777216
  maxTapsLess1 : Fin 4096
deriving DecidableEq, Repr

/-- `MAXLEN`, the capacity of a sample buffer in elements (00_scope.md R7). -/
def Params.maxLen (p : Params) : Nat := p.maxLenLess1.val + 1

/-- `MAXTAPS`, the capacity of a tap bank in taps (00_scope.md R7). -/
def Params.maxTaps (p : Params) : Nat := p.maxTapsLess1.val + 1

/-- The defaults of 00_scope.md R7: `MAXLEN = 65536`, `MAXTAPS = 256`. -/
def Params.default : Params := ⟨65535, 255⟩

/-- The cosine half of `TRIG` off the quarter turns (40_numerics.md R135, R136): a sign and a binary32 magnitude
pattern at most that of 1.0, which is property T3. It is a function of `(r, m)`: property T1. Safe (log 9). -/
opaque Config.trigCos : Nat → Nat → Bool × Fin 0x3F800001

/-- The sine half of `TRIG` off the quarter turns; as `Config.trigCos`. Safe (log 9). -/
opaque Config.trigSin : Nat → Nat → Bool × Fin 0x3F800001

/-- `ATAN2` off the axes (40_numerics.md R138, R139), on the operand patterns `y`, `x`: a sign and a binary32
magnitude pattern at most that of `PI32`, which is property A2. It is a function: property A1. Safe (log 10). -/
opaque Config.atan2 : Word → Word → Bool × Fin 0x40490FDC

/-- `NANCHOICE` for binary32 (40_numerics.md R128): sign and fraction less one of the NaN written as part number
`k` of the result drawn with counter `d`. Every binary32 NaN is a value of the type. Safe (log 6). -/
opaque Config.freeNaN32 : (d k : Nat) → Bool × Fin 0x7FFFFF

/-- `NANCHOICE` for binary64 (40_numerics.md R128); as `Config.freeNaN32`. Safe (log 6). -/
opaque Config.freeNaN64 : (d k : Nat) → Bool × Fin 0xFFFFFFFFFFFFF

/-- What the host read drawn with counter `d` returns for the unspecified byte at host address `a`
(10_state.md R41; 93_implementation_defined.md U2 to U6). Safe (log 4). -/
opaque Config.freeByte : (d a : Nat) → Byte

/-- The word the host read drawn with counter `d` returns from tap or sample memory while `BUSY = 1`
(20_memory.md R74; 93_implementation_defined.md U7). Safe (log 12). -/
opaque Config.freeWord : (d : Nat) → Word

end Sys2Proof
end

