-- ==== Sys2Proof/Machine/State.lean ====
section
/-! DEFINITION. The complete state of the RDE (10_state.md R20) and its value after reset (10_state.md R40), with the
inputs, the port response and the draw counter the model adds (log 1, 3, 5, 8). -/
namespace Sys2Proof.Machine

/-- The ways the machine stops. There are none: 93_implementation_defined.md part 5 says of undefined behaviour "There
is none", and a bus error is a response, not an exception (46_system_and_host.md R225). Raised by nobody; safe (log 16). -/
inductive Fault
deriving DecidableEq, Repr

/-- The refusals of the model. -/
inductive Refusal where
  /-- Raised by an arm of `exec` for an instruction that has no meaning yet; no arm does. Safe. -/
  | notModelled (mnemonic : String)
deriving DecidableEq, Repr

/-- A buffer descriptor `BD[j]` (10_state.md R30): `CTRL` bit 0 and bits 2:1, `LEN`, `FS`. `type` holds all four
two-bit patterns (10_state.md R32). -/
structure Desc where
  valid : Bool
  type : BitVec 2
  len : Word
  fs : Word
deriving DecidableEq, Repr

/-- A descriptor after reset: 0 (10_state.md R40). -/
def Desc.reset : Desc := ⟨false, 0, 0, 0⟩

/-- A host transaction (46_system_and_host.md R222 to R225). `bits` is the width asked for: only 32 is performed
(20_memory.md R66; log 13). -/
inductive HostTxn where
  /-- A read of the word at byte address `addr`. -/
  | read (bits : Nat) (addr : Word)
  /-- A write of `v` to the word at byte address `addr`. -/
  | write (bits : Nat) (addr v : Word)
  /-- The assertion of `rst`. -/
  | reset
deriving DecidableEq, Repr

/-- A turn of one of the two agents (00_scope.md R12). -/
inductive Turn where
  /-- The engine moves, if its complete step is enabled. -/
  | engine
  /-- The host moves. -/
  | host (t : HostTxn)
deriving DecidableEq, Repr

/-- The response on the host port to the last transaction (46_system_and_host.md R222, R223, R225). -/
inductive PortResponse where
  /-- No transaction since reset. -/
  | none
  /-- A read completed with this word. -/
  | data (v : Word)
  /-- A write completed (performed, ignored or dropped: 20_memory.md R74). -/
  | written
  /-- Misaligned, not 32 bits wide, or unmapped (20_memory.md R66). -/
  | busError
deriving DecidableEq, Repr

/-- The state of the RDE (10_state.md R20). `ID` is a constant (`State.id`) and `irq` a function of the state
(`State.irq`), so neither is a field. -/
structure State where
  /-- `STATUS.BUSY` (10_state.md R22). -/
  busy : Bool
  /-- `STATUS.DONE` (10_state.md R22). -/
  done : Bool
  /-- `STATUS.ERR` (10_state.md R22). -/
  err : Bool
  /-- `STATUS.OVR` (10_state.md R22). -/
  ovr : Bool
  /-- `IEN.DONE_IE` (10_state.md R23). -/
  doneIE : Bool
  /-- `IEN.ERR_IE` (10_state.md R23). -/
  errIE : Bool
  /-- The command latch `CMD` (10_state.md R25). -/
  cmd : Word
  /-- `ERRINFO` (10_state.md R26). -/
  errinfo : Word
  /-- `P0`, `FC` (10_state.md R24). -/
  fc : Word
  /-- `P1`, `FSOUT` (10_state.md R24). -/
  fsout : Word
  /-- `P2`, `FCUTOFF` (10_state.md R24). -/
  fcutoff : Word
  /-- `P3`, `FRUMBLE` (10_state.md R24). -/
  frumble : Word
  /-- `P4`, `FMDEV` (10_state.md R24). -/
  fmdev : Word
  /-- The buffer descriptors `BD[0]` to `BD[3]` (10_state.md R30). -/
  bd : Vector Desc 4
  /-- The tap counts `TD[0].NTAPS` to `TD[3].NTAPS` (10_state.md R36). -/
  ntaps : Vector Word 4
  /-- Sample and tap memory at their host byte addresses (20_memory.md R70): the bytes whose value the rules fix,
  addresses strictly rising. A byte not listed is unspecified (10_state.md R41; log 4). -/
  mem : List Host.Cell
  /-- The model's: the parameters of the implementation (00_scope.md R7; log 8). No step changes them. -/
  params : Params
  /-- The model's: the turns still to come, oldest first (00_scope.md R12; log 1). -/
  schedule : List Turn
  /-- The model's: the last response on the host port (log 3). -/
  port : PortResponse
  /-- The model's: the counter free values are drawn with (log 5). -/
  draws : Nat
deriving DecidableEq, Repr

/-- The machine right after reset, with the default parameters and no turn scheduled (10_state.md R40;
70_reset_and_hazards.md R280). -/
def State.reset : State where
  busy := false
  done := false
  err := false
  ovr := false
  doneIE := false
  errIE := false
  cmd := 0
  errinfo := 0
  fc := 0
  fsout := 0
  fcutoff := 10000
  frumble := 0
  fmdev := 75000
  bd := Vector.replicate 4 Desc.reset
  ntaps := Vector.replicate 4 0
  mem := []
  params := Params.default
  schedule := []
  port := .none
  draws := 0

/-- `ID`: the constant 0x52444501 at all times (10_state.md R27; log 15). -/
def State.id (_ : State) : Word := 0x52444501

end Sys2Proof.Machine
end

