-- ==== Sys2Proof/Machine/Flags.lean ====
section
/-! DEFINITION. The flags: the `STATUS` and `IEN` words (10_state.md R22, R23), the write-one-to-clear rule, and the
`irq` line (60_exceptions.md R260). The hardware has no arithmetic flag (10_state.md R28). -/
namespace Sys2Proof.Machine

/-- The `STATUS` word `BUSY + 2·DONE + 4·ERR + 8·OVR` (10_state.md R22; 46_system_and_host.md R222). -/
def State.statusWord (s : State) : Word :=
  BitVec.ofNat 32 (s.busy.toNat + 2 * s.done.toNat + 4 * s.err.toNat + 8 * s.ovr.toNat)

/-- The `IEN` word `2·DONE_IE + 4·ERR_IE` (10_state.md R23; 46_system_and_host.md R222). -/
def State.ienWord (s : State) : Word := BitVec.ofNat 32 (2 * s.doneIE.toNat + 4 * s.errIE.toNat)

/-- A host write of `v` to `STATUS`: each of bits 1, 2, 3 that is 1 clears its flag; the others keep theirs
(10_state.md R22). Clearing `ERR` is the return from an error (60_exceptions.md R252). -/
def State.writeStatus (v : Word) (s : State) : State :=
  { s with
    done := s.done && !v.getLsbD 1
    err := s.err && !v.getLsbD 2
    ovr := s.ovr && !v.getLsbD 3 }

/-- A host write of `v` to `IEN` (10_state.md R23). -/
def State.writeIen (v : Word) (s : State) : State := { s with doneIE := v.getLsbD 1, errIE := v.getLsbD 2 }

/-- A dropped host write sets `OVR` (20_memory.md R74; 30_encoding.md R91). -/
def State.setOvr (s : State) : State := { s with ovr := true }

/-- The interrupt output `irq = (DONE and DONE_IE) or (ERR and ERR_IE)` (60_exceptions.md R260). -/
def State.irq (s : State) : Bool := (s.done && s.doneIE) || (s.err && s.errIE)

end Sys2Proof.Machine
end

