-- ==== Sys2Proof/Machine/Memory.lean ====
section
/-! DEFINITION. Sample and tap memory as a list of specified bytes (10_state.md R31, R37, R41) and the address map
(20_memory.md R70). Addresses are host byte addresses; the list's addresses rise strictly; a byte not listed is
unspecified. -/
namespace Sys2Proof.Machine

/-- The listed (specified) bytes of sample and tap memory. -/
abbrev Memory := List Host.Cell

/-! ### Address map (20_memory.md R62, R63, R70) -/

/-- `BUFADDR(j) = 0x10000000 + j · 0x08000000` (20_memory.md R62). -/
def bufAddr (j : BufIx) : Nat := 0x10000000 + j.val * 0x08000000

/-- `TAPADDR(b) = 0x00010000 + b · 0x8000` (20_memory.md R63). -/
def tapAddr (b : BankIx) : Nat := 0x00010000 + b.val * 0x8000

/-- The first address past buffer `j`: `8·MAXLEN` bytes (20_memory.md R70). -/
def bufEnd (p : Params) (j : BufIx) : Nat := bufAddr j + 8 * p.maxLen

/-- The first address past bank `b`: `8·MAXTAPS` bytes (20_memory.md R70). -/
def tapEnd (p : Params) (b : BankIx) : Nat := tapAddr b + 8 * p.maxTaps

/-- Address `a` lies in buffer `j` (20_memory.md R70). -/
def inBufJ (p : Params) (j : BufIx) (a : Nat) : Bool := bufAddr j ≤ a && a < bufEnd p j

/-- Address `a` lies in bank `b` (20_memory.md R70). -/
def inTapB (p : Params) (b : BankIx) (a : Nat) : Bool := tapAddr b ≤ a && a < tapEnd p b

/-- `InReg(A)`: the register block (46_system_and_host.md section 2). -/
def inReg (a : Nat) : Bool := a ≤ 0xFFF

/-- `InTap(A)` (46_system_and_host.md section 2). -/
def inTap (p : Params) (a : Nat) : Bool := inTapB p 0 a || inTapB p 1 a || inTapB p 2 a || inTapB p 3 a

/-- `InBuf(A)` (46_system_and_host.md section 2). -/
def inBuf (p : Params) (a : Nat) : Bool := inBufJ p 0 a || inBufJ p 1 a || inBufJ p 2 a || inBufJ p 3 a

/-! ### Reading -/

/-- The byte at `a`; none when the rules fix none (10_state.md R41). This is what an unlisted address reads as. -/
def Memory.read (m : Memory) (a : Nat) : MaybeByte := m.lookup a

/-- The `n` bytes at `a` to `a + n - 1` (20_memory.md R60). -/
def Memory.readBytes (m : Memory) (a n : Nat) : List MaybeByte := (List.range n).map fun k => m.read (a + k)

/-! ### Writing -/

/-- Stores one byte, keeping the addresses rising. -/
def Memory.write (a : Nat) (b : Byte) : Memory → Memory
  | [] => [(a, b)]
  | (x, v) :: t =>
    if a < x then (a, b) :: (x, v) :: t
    else if a = x then (a, b) :: t
    else (x, v) :: Memory.write a b t

/-- `MemWrite(a, 4, v)`: byte `k` of `v` goes to `a + k` (20_memory.md R60). -/
def Memory.writeWord (a : Nat) (v : Word) (m : Memory) : Memory :=
  Memory.write (a + 3) (v.extractLsb' 24 8) (Memory.write (a + 2) (v.extractLsb' 16 8)
    (Memory.write (a + 1) (v.extractLsb' 8 8) (Memory.write a (v.extractLsb' 0 8) m)))

/-- The specified bytes among `bytes`, laid out from address `a` on. -/
def cellsFrom (a : Nat) : List MaybeByte → Memory
  | [] => []
  | none :: t => cellsFrom (a + 1) t
  | some b :: t => (a, b) :: cellsFrom (a + 1) t

/-- The bytes from `lo` on become `bytes`, and every further byte below `hi` becomes unspecified (20_memory.md R64). -/
def Memory.fill (lo hi : Nat) (bytes : List MaybeByte) (m : Memory) : Memory :=
  m.filter (fun c => c.1 < lo) ++ cellsFrom lo bytes ++ m.filter (fun c => hi ≤ c.1)

/-- Every byte from `lo` to below `hi` becomes unspecified (60_exceptions.md R250). -/
def Memory.forget (lo hi : Nat) (m : Memory) : Memory := Memory.fill lo hi [] m

/-! ### The canonical form -/

/-- The listed addresses rise strictly. -/
def Memory.rising : Memory → Bool
  | [] => true
  | [_] => true
  | c :: d :: t => c.1 < d.1 && Memory.rising (d :: t)

/-- The canonical form: the addresses rise strictly and each lies in a bank or a buffer (20_memory.md R70). No entry
equals what an unlisted address reads as, since that is no byte at all. -/
def Memory.wf (p : Params) (m : Memory) : Bool := Memory.rising m && m.all fun c => inTap p c.1 || inBuf p c.1

end Sys2Proof.Machine
end

