-- ==== Sys2Proof/Machine/Numerics.lean ====
section
/-! DEFINITION. The numerics record of 40_numerics.md: the two IEEE 754 formats, rounding, the operations, the
conversions, the constants, the open functions within their named properties, and the integer laws. Every operation
computes the exact result as a natural number of units of the format's least subnormal (or a quotient of two such) and
rounds once (40_numerics.md R124). `w` is 32 for binary32 and 64 for binary64. -/
namespace Sys2Proof.Machine

/-- A value of the format with `w`-bit patterns, as a stage holds it.
`nan` stands for "some NaN": no rule branches on a NaN's payload, and the pattern is drawn when the value is written
(40_numerics.md R128; log 6). `unspec` stands for a value of which a rule fixes not every byte: as read from memory it
keeps what each byte was, so that a bit-exact copy copies the specified ones (93_implementation_defined.md U8, U9;
log 7). -/
inductive Fp (w : Nat) where
  | pat (b : BitVec w)
  | nan
  | unspec (bytes : List MaybeByte)
deriving DecidableEq, Repr

/-- `F32`, binary32 (40_numerics.md R121). -/
abbrev F32 := Fp 32
/-- `F64`, binary64 (40_numerics.md R122). -/
abbrev F64 := Fp 64

/-! ### Formats (40_numerics.md R121, R122) -/

/-- The precision `p`: 24 or 53 (40_numerics.md R124). -/
def prec (w : Nat) : Nat := if w = 32 then 24 else 53

/-- The least subnormal is `2^-unitLog`: `2^-149` or `2^-1074` (40_numerics.md R121, R122). -/
def unitLog (w : Nat) : Nat := if w = 32 then 149 else 1074

/-- The magnitude pattern of infinity: exponent all ones, fraction 0 (40_numerics.md R121, R122). -/
def infMag (w : Nat) : Nat := if w = 32 then 0x7F800000 else 0x7FF0000000000000

/-- The sign bit (40_numerics.md R121, R122). -/
def signOf {w : Nat} (b : BitVec w) : Bool := b.getLsbD (w - 1)

/-- The pattern less its sign: biased exponent and fraction (40_numerics.md R121, R122). -/
def magOf {w : Nat} (b : BitVec w) : Nat := b.toNat % 2 ^ (w - 1)

/-- The pattern with a given sign and magnitude pattern. -/
def packFp (w : Nat) (s : Bool) (m : Nat) : BitVec w := BitVec.ofNat w ((if s then 2 ^ (w - 1) else 0) + m)

/-- Exponent all ones, fraction not 0 (40_numerics.md R121, R122). -/
def isNaNBits {w : Nat} (b : BitVec w) : Bool := infMag w < magOf b

/-- Exponent all ones, fraction 0 (40_numerics.md R121, R122). -/
def isInfBits {w : Nat} (b : BitVec w) : Bool := magOf b == infMag w

/-- Exponent not all ones (40_numerics.md R121, R122). -/
def isFiniteBits {w : Nat} (b : BitVec w) : Bool := magOf b < infMag w

/-- A zero of either sign (40_numerics.md R121, R122). -/
def isZeroBits {w : Nat} (b : BitVec w) : Bool := magOf b == 0

/-- The magnitude of a finite value in units of the least subnormal: `f` for `e = 0`, else `(2^(p-1) + f) · 2^(e-1)`
(40_numerics.md R121, R122). On infinity the formula gives `2^(emax+1)`, above every finite value
(DEDUCED, log 11). -/
def unitsOf (w m : Nat) : Nat :=
  let h := 2 ^ (prec w - 1)
  if m < h then m else (h + m % h) * 2 ^ (m / h - 1)

/-- The signed value in units of the least subnormal (40_numerics.md R121, R122). -/
def svalOf {w : Nat} (b : BitVec w) : Int :=
  if signOf b then -(unitsOf w (magOf b) : Int) else (unitsOf w (magOf b) : Int)

/-! ### Rounding (40_numerics.md R124) -/

/-- `round_F` of the non-negative real number `num / den` units, as a magnitude pattern: the nearest value, ties to
the even fraction, infinity from the overflow threshold on (40_numerics.md R124). `q` is the binary logarithm of the
spacing of the format at that size, in units; `n` counts spacings. -/
def roundMag (w num den : Nat) : Nat :=
  let q := Nat.log2 (num / den) + 1 - prec w
  let d := den * 2 ^ q
  let n := num / d
  let r := num % d
  let up := d < 2 * r || (2 * r == d && n % 2 == 1)
  min (infMag w) (q * 2 ^ (prec w - 1) + (if up then n + 1 else n))

/-- `round_F` of `± num / den` units (40_numerics.md R124). -/
def roundFp (w : Nat) (s : Bool) (num den : Nat) : Fp w := .pat (packFp w s (roundMag w num den))

/-- The infinity with sign `s` (40_numerics.md R121, R122). -/
def infFp (w : Nat) (s : Bool) : Fp w := .pat (packFp w s (infMag w))

/-- The zero with sign `s` (40_numerics.md R121, R122). -/
def zeroFp (w : Nat) (s : Bool) : Fp w := .pat (packFp w s 0)

/-- Applies a two-operand rule on patterns: an operand that is not specified makes the result unspecified (log 7),
a NaN operand makes it NaN (40_numerics.md R125 to R127). -/
def Fp.lift2 {w : Nat} (op : BitVec w → BitVec w → Fp w) : Fp w → Fp w → Fp w
  | .unspec _, _ => .unspec []
  | _, .unspec _ => .unspec []
  | .nan, _ => .nan
  | _, .nan => .nan
  | .pat a, .pat b => if isNaNBits a || isNaNBits b then .nan else op a b

/-! ### Operations (40_numerics.md R125 to R130) -/

/-- `add_F` on patterns that are not NaN (40_numerics.md R125). -/
def addBits {w : Nat} (a b : BitVec w) : Fp w :=
  if isInfBits a then (if isInfBits b && signOf a != signOf b then .nan else .pat a)
  else if isInfBits b then .pat b
  else
    let z := svalOf a + svalOf b
    if z = 0 then zeroFp w (signOf a && signOf b)
    else roundFp w (decide (z < 0)) z.natAbs 1

/-- `add_F` (40_numerics.md R125). -/
def Fp.add {w : Nat} (a b : Fp w) : Fp w := Fp.lift2 addBits a b

/-- `neg_F`: flips the sign bit and nothing else (40_numerics.md R129). -/
def Fp.neg {w : Nat} : Fp w → Fp w
  | .pat a => .pat (a ^^^ packFp w true 0)
  | .nan => .nan
  | .unspec _ => .unspec []

/-- `sub_F(a, b) = add_F(a, neg_F(b))` (40_numerics.md R125). -/
def Fp.sub {w : Nat} (a b : Fp w) : Fp w := Fp.add a (Fp.neg b)

/-- `mul_F` on patterns that are not NaN (40_numerics.md R126). -/
def mulBits {w : Nat} (a b : BitVec w) : Fp w :=
  let s := signOf a != signOf b
  if isInfBits a || isInfBits b then
    (if isZeroBits a || isZeroBits b then .nan else infFp w s)
  else roundFp w s (unitsOf w (magOf a) * unitsOf w (magOf b)) (2 ^ unitLog w)

/-- `mul_F` (40_numerics.md R126). -/
def Fp.mul {w : Nat} (a b : Fp w) : Fp w := Fp.lift2 mulBits a b

/-- `div_F` on patterns that are not NaN (40_numerics.md R127). -/
def divBits {w : Nat} (a b : BitVec w) : Fp w :=
  let s := signOf a != signOf b
  if isInfBits a then (if isInfBits b then .nan else infFp w s)
  else if isInfBits b then zeroFp w s
  else if isZeroBits b then (if isZeroBits a then .nan else infFp w s)
  else roundFp w s (unitsOf w (magOf a) * 2 ^ unitLog w) (unitsOf w (magOf b))

/-- `div_F` (40_numerics.md R127). -/
def Fp.div {w : Nat} (a b : Fp w) : Fp w := Fp.lift2 divBits a b

/-- `gt_F`: false whenever an operand is NaN, `-0 = +0` (40_numerics.md R130). An unspecified operand decides nothing
that is not unspecified anyway: 44_detectors.md R195 compares only the value it then scales (log 7). -/
def Fp.gt {w : Nat} : Fp w → Fp w → Bool
  | .pat a, .pat b => !isNaNBits a && !isNaNBits b && decide (svalOf b < svalOf a)
  | _, _ => false

/-- `lt_F(a, b) = gt_F(b, a)` (40_numerics.md R130). -/
def Fp.lt {w : Nat} (a b : Fp w) : Bool := Fp.gt b a

/-! ### Conversions (40_numerics.md R131) -/

/-- Rounds a value of one format into another; `num`, `den` is the ratio of the units (40_numerics.md R131). -/
def Fp.convert {w : Nat} (v num den : Nat) : Fp w → Fp v
  | .pat a =>
    if isNaNBits a then .nan
    else if isInfBits a then infFp v (signOf a)
    else roundFp v (signOf a) (unitsOf w (magOf a) * num) den
  | .nan => .nan
  | .unspec _ => .unspec []

/-- `narrow32` (40_numerics.md R131). -/
def narrow32 (a : F64) : F32 := Fp.convert 32 1 (2 ^ (1074 - 149)) a

/-- `widen64` (40_numerics.md R131). -/
def widen64 (a : F32) : F64 := Fp.convert 64 (2 ^ (1074 - 149)) 1 a

/-- `u2d(n)`, exact below `2^53` (40_numerics.md R131). -/
def u2d (n : Nat) : F64 := roundFp 64 false (n * 2 ^ 1074) 1

/-! ### Constants (40_numerics.md R133) -/

/-- `PI32`. -/
def pi32 : F32 := .pat 0x40490FDB
/-- `TWOPI32`. -/
def twoPi32 : F32 := .pat 0x40C90FDB
/-- `HALFPI32`. -/
def halfPi32 : F32 := .pat 0x3FC90FDB
/-- `K64`. -/
def k64 : F64 := .pat 0x4021C5831ADD62E4
/-- One, in binary32. -/
def one32 : F32 := .pat 0x3F800000
/-- Minus one, in binary32. -/
def negOne32 : F32 := .pat 0xBF800000
/-- `+0` of either format. -/
def Fp.zero {w : Nat} : Fp w := zeroFp w false

/-! ### The open functions within their properties (40_numerics.md R135 to R139) -/

/-- `cos2pi32(r, m)`: exact on quarter turns (T2), open elsewhere within T1 and T3 (40_numerics.md R135, R136; log 9). -/
def cos2pi32 (r m : Nat) : F32 :=
  if 4 * r = 0 then one32
  else if 4 * r = m then Fp.zero
  else if 4 * r = 2 * m then negOne32
  else if 4 * r = 3 * m then Fp.zero
  else
    let v := Config.trigCos r m
    .pat (packFp 32 v.1 v.2.val)

/-- `sin2pi32(r, m)`: exact on quarter turns (T2), open elsewhere within T1 and T3 (40_numerics.md R135, R136; log 9). -/
def sin2pi32 (r m : Nat) : F32 :=
  if 4 * r = 0 then Fp.zero
  else if 4 * r = m then one32
  else if 4 * r = 2 * m then Fp.zero
  else if 4 * r = 3 * m then negOne32
  else
    let v := Config.trigSin r m
    .pat (packFp 32 v.1 v.2.val)

/-- `atan2_32` on operands that are not NaN: the axes and zeros of property A3 for finite operands, open elsewhere
within A1 and A2 (40_numerics.md R138, R139; log 10). -/
def atan2Bits (y x : BitVec 32) : F32 :=
  if isFiniteBits y && isFiniteBits x && isZeroBits y then
    (if signOf x then .pat (packFp 32 (signOf y) 0x40490FDB) else zeroFp 32 (signOf y))
  else if isFiniteBits y && isFiniteBits x && isZeroBits x then .pat (packFp 32 (signOf y) 0x3FC90FDB)
  else
    let v := Config.atan2 y x
    .pat (packFp 32 v.1 v.2.val)

/-- `atan2_32(y, x)` (40_numerics.md R138, R139). -/
def atan2F (y x : F32) : F32 := Fp.lift2 atan2Bits y x

/-! ### Derived operations (40_numerics.md R134, R140, R141) -/

/-- A complex element: two binary32 parts (10_state.md R33; 40_numerics.md R145). -/
structure Cx where
  re : F32
  im : F32
deriving DecidableEq, Repr

/-- `cmul32`: four rounded products, one rounded difference, one rounded sum (40_numerics.md R134). -/
def cmul32 (a w : Cx) : Cx where
  re := Fp.sub (Fp.mul a.re w.re) (Fp.mul a.im w.im)
  im := Fp.add (Fp.mul a.re w.im) (Fp.mul a.im w.re)

/-- `fmscale(fs, fmdev)` (40_numerics.md R140). -/
def fmscale (fs fmdev : Nat) : F32 := narrow32 (Fp.div (u2d fs) (Fp.mul k64 (u2d fmdev)))

/-! ### Integer laws (40_numerics.md R151 to R153) -/

/-- The decimation factor `D = floor(fs / fsOut)` (40_numerics.md R151). -/
def decimFactor (fs fsOut : Nat) : Nat := fs / fsOut

/-- The number of retained elements `M = ceil(L / D) = floor((L + D - 1) / D)` (40_numerics.md R151). -/
def retained (len d : Nat) : Nat := (len + d - 1) / d

/-- The Nyquist fault `2·c ≥ r` (40_numerics.md R152). -/
def nyquistFault (c r : Nat) : Bool := r ≤ 2 * c

/-- The Nyquist fault of the FM channel filter, `3·FMDEV ≥ fs` (40_numerics.md R152). -/
def fmNyquistFault (fmdev fs : Nat) : Bool := fs ≤ 3 * fmdev

/-- The phase index `r(n) = (fc · n) mod fs`, `0 ≤ r(n) < fs` for every sign of `fc` (40_numerics.md R153). -/
def phaseIndex (fc : Int) (n fs : Nat) : Nat := (fc * (n : Int) % (fs : Int)).toNat

/-! ### Patterns and bytes (20_memory.md R60, R62) -/

/-- The little-endian integer of some bytes; none if a byte is unspecified (20_memory.md R60). -/
def leNat? : List MaybeByte → Option Nat
  | [] => some 0
  | none :: _ => none
  | some b :: t => (leNat? t).map (fun n => b.toNat + 256 * n)

/-- `f32` and `f64` of the bytes read from memory: the pattern, or an unspecified value that keeps them (20_memory.md
R62; log 7). -/
def Fp.ofBytes (w : Nat) (bytes : List MaybeByte) : Fp w :=
  match leNat? bytes with
  | some n => .pat (BitVec.ofNat w n)
  | none => .unspec bytes

/-- Byte `k` of a pattern: `(v >> 8k) mod 256` (20_memory.md R60). -/
def byteOf {w : Nat} (b : BitVec w) (k : Nat) : Byte := b.extractLsb' (8 * k) 8

/-- The NaN written as part `k` of the result drawn with counter `d` (40_numerics.md R128; log 6). -/
def drawnNaN (w d k : Nat) : BitVec w :=
  if w = 32 then packFp w (Config.freeNaN32 d k).1 (infMag w + 1 + (Config.freeNaN32 d k).2.val)
  else packFp w (Config.freeNaN64 d k).1 (infMag w + 1 + (Config.freeNaN64 d k).2.val)

/-- `bits32`, `bits64`: the bytes an element part is written as (20_memory.md R62; 40_numerics.md R128). -/
def Fp.toBytes {w : Nat} (d k : Nat) (v : Fp w) : List MaybeByte :=
  (List.range (w / 8)).map fun i =>
    match v with
    | .pat b => some (byteOf b i)
    | .nan => some (byteOf (drawnNaN w d k) i)
    | .unspec bytes => (bytes[i]?).join

end Sys2Proof.Machine
end

