-- ==== Sys2Proof/Machine/Ops.lean ====
section
/-! DEFINITION. The named operations over descriptors and memory: elements and taps (20_memory.md R62, R63), sequences
(00_scope.md R10, R11), writing a result (20_memory.md R64), command errors, their entry and the return from one
(60_exceptions.md R250, R252), acceptance and completion (30_encoding.md R91), and reset (46_system_and_host.md R224). -/
namespace Sys2Proof.Machine

/-! ### Element types and sequences -/

/-- The element types (10_state.md R33; 30_encoding.md R97). -/
inductive ElemType where
  | cs | rs | rd
deriving DecidableEq, Repr

/-- The type with a given two-bit code; code 3 is reserved (10_state.md R33). -/
def ElemType.ofCode (c : BitVec 2) : Option ElemType :=
  if c = 0 then some .cs else if c = 1 then some .rs else if c = 2 then some .rd else none

/-- The code of a type (30_encoding.md R97). -/
def ElemType.code : ElemType → BitVec 2
  | .cs => 0
  | .rs => 1
  | .rd => 2

/-- `size(T)` in bytes (10_state.md R33). -/
def ElemType.size : ElemType → Nat
  | .cs => 8
  | .rs => 4
  | .rd => 8

/-- `real(T)`: the real type a complex type turns into (10_state.md R33). -/
def ElemType.real : ElemType → ElemType
  | .cs => .rs
  | .rs => .rs
  | .rd => .rd

/-- The elements of a sequence, by element type (00_scope.md R10; 40_numerics.md R132). -/
inductive Samples where
  | cs (x : List Cx)
  | rs (x : List F32)
  | rd (x : List F64)
deriving DecidableEq, Repr

/-- The element type of some samples. -/
def Samples.type : Samples → ElemType
  | .cs _ => .cs
  | .rs _ => .rs
  | .rd _ => .rd

/-- The number of elements. -/
def Samples.length : Samples → Nat
  | .cs x => x.length
  | .rs x => x.length
  | .rd x => x.length

/-- A sequence `(T, fs, x)` (00_scope.md R10). -/
structure SampleSeq where
  fs : Word
  data : Samples
deriving DecidableEq, Repr

/-! ### Descriptors -/

/-- `BD[j]` (10_state.md R30). -/
def State.desc (s : State) (j : BufIx) : Desc := s.bd[j.val]

/-- `BD[j] <- d` (10_state.md R30). -/
def State.setDesc (j : BufIx) (d : Desc) (s : State) : State := { s with bd := s.bd.set j.val d }

/-- `TD[b].NTAPS` (10_state.md R36). -/
def State.tapCount (s : State) (b : BankIx) : Word := s.ntaps[b.val]

/-- `TD[b].NTAPS <- v` (10_state.md R36). -/
def State.setTapCount (b : BankIx) (v : Word) (s : State) : State := { s with ntaps := s.ntaps.set b.val v }

/-! ### Elements and taps (20_memory.md R62, R63) -/

/-- A real element or part at byte address `a` (20_memory.md R62). -/
def Memory.readFp (w : Nat) (m : Memory) (a : Nat) : Fp w := Fp.ofBytes w (m.readBytes a (w / 8))

/-- `Elem(j, CS, n)` (20_memory.md R62). -/
def Memory.readCx (m : Memory) (a : Nat) : Cx := ⟨m.readFp 32 a, m.readFp 32 (a + 4)⟩

/-- `Tap(b, k) = f64(MemRead(TAPADDR(b) + 8k, 8))` (20_memory.md R63). -/
def State.tap (s : State) (b : BankIx) (k : Nat) : F64 := Memory.readFp 64 s.mem (tapAddr b + 8 * k)

/-- The tap sequence `h[0]` to `h[N-1]` of bank `b` (10_state.md R36). -/
def State.taps (s : State) (b : BankIx) : List F64 := (List.range (s.tapCount b).toNat).map (s.tap b)

/-- Elements 0 to `len - 1` of buffer `j`, read as type `t` (20_memory.md R62; 00_scope.md R11). -/
def State.samples (s : State) (j : BufIx) (t : ElemType) (len : Nat) : Samples :=
  match t with
  | .cs => .cs ((List.range len).map fun n => Memory.readCx s.mem (bufAddr j + 8 * n))
  | .rs => .rs ((List.range len).map fun n => Memory.readFp 32 s.mem (bufAddr j + 4 * n))
  | .rd => .rd ((List.range len).map fun n => Memory.readFp 64 s.mem (bufAddr j + 8 * n))

/-- `SrcSeq(j)` for a buffer of element type `t` (00_scope.md R11). -/
def State.srcSeq (s : State) (j : BufIx) (t : ElemType) : SampleSeq :=
  ⟨(s.desc j).fs, s.samples j t (s.desc j).len.toNat⟩

/-! ### Writing a result (20_memory.md R64) -/

/-- The bytes of the elements in element order, real part first (20_memory.md R62); `d` is the draw counter NaN
results are drawn with, and the parts are numbered along the result (40_numerics.md R128; log 6). -/
def Samples.bytes (d : Nat) : Samples → List MaybeByte
  | .cs x => x.zipIdx.flatMap fun p => Fp.toBytes d (2 * p.2) p.1.re ++ Fp.toBytes d (2 * p.2 + 1) p.1.im
  | .rs x => x.zipIdx.flatMap fun p => Fp.toBytes d p.2 p.1
  | .rd x => x.zipIdx.flatMap fun p => Fp.toBytes d p.2 p.1

/-- `WriteSeq(j, (T, fs, y))`: the elements, every other byte of buffer `j` unspecified, and the descriptor
(20_memory.md R64). -/
def State.writeSeq (j : BufIx) (q : SampleSeq) (s : State) : State :=
  { s with
    mem := Memory.fill (bufAddr j) (bufEnd s.params j) (q.data.bytes s.draws) s.mem
    bd := s.bd.set j.val ⟨true, q.data.type.code, BitVec.ofNat 32 q.data.length, q.fs⟩
    draws := s.draws + 1 }

/-! ### Command errors (30_encoding.md R98; 60_exceptions.md R240, R250, R252) -/

/-- The fourteen sub-causes (30_encoding.md R98). -/
inductive SubCause where
  | illegalCmd | srcDstAlias | srcInvalid | badType | badLen | badFs | badFsout | decimFactor | badTaps | nyquist
  | hpEvenTaps | badFmdev | emptyInput | emptyOutput
deriving DecidableEq, Repr

/-- The number `SUB` (30_encoding.md R98). -/
def SubCause.number : SubCause → Nat
  | .illegalCmd => 0x01
  | .srcDstAlias => 0x02
  | .srcInvalid => 0x03
  | .badType => 0x04
  | .badLen => 0x05
  | .badFs => 0x06
  | .badFsout => 0x07
  | .decimFactor => 0x08
  | .badTaps => 0x09
  | .nyquist => 0x0A
  | .hpEvenTaps => 0x0B
  | .badFmdev => 0x0C
  | .emptyInput => 0x10
  | .emptyOutput => 0x11

/-- The code: 2, `EmptyResult`, for the two empty causes, else 1, `InvalidArgument` (30_encoding.md R98). Code 3,
`IOFailure`, is never produced (60_exceptions.md R255). -/
def SubCause.code : SubCause → Nat
  | .emptyInput => 2
  | .emptyOutput => 2
  | _ => 1

/-- An error of a command: its cause and the stage it was found in (60_exceptions.md R242). -/
structure CmdError where
  sub : SubCause
  stage : Nat
deriving DecidableEq, Repr

/-- `ERRINFO = CODE + 256·SUB + 65536·STAGE` (30_encoding.md R98). -/
def CmdError.info (e : CmdError) : Word := BitVec.ofNat 32 (e.sub.code + 256 * e.sub.number + 65536 * e.stage)

/-- The withdrawal of the destination of a command that ended in error: `VALID <- 0` and every byte unspecified;
`TYPE`, `LEN`, `FS` stay (60_exceptions.md R250). -/
def State.withdraw (j : BufIx) (s : State) : State :=
  { s with
    mem := Memory.forget (bufAddr j) (bufEnd s.params j) s.mem
    bd := s.bd.set j.val { s.desc j with valid := false } }

/-- ERROR ENTRY, `raise Err(code, sub, stage)` (60_exceptions.md R250): the one operation every command error takes.
`bufs` is the source and destination of the data command in the latch, `none` for an illegal word; the destination
is withdrawn exactly when the two differ. -/
def State.raiseErr (bufs : Option (BufIx × BufIx)) (e : CmdError) (s : State) : State :=
  let t : State := { s with errinfo := e.info, err := true }
  match bufs with
  | none => t
  | some (src, dst) => if src = dst then t else t.withdraw dst

/-- RETURN FROM AN ERROR: the host's write of 1 to bit 2 of `STATUS` (60_exceptions.md R252; statement `CLRERR` of
30_encoding.md R101). -/
def State.clearErr (s : State) : State := s.writeStatus 0x4

/-! ### Acceptance, completion, reset -/

/-- Acceptance: a host write of `w` to `CMD` (30_encoding.md R91). -/
def State.writeCmd (w : Word) (s : State) : State :=
  if s.busy || s.err then s.setOvr
  else { s with cmd := w, errinfo := 0, done := false, busy := true }

/-- The end of every complete step: `BUSY <- 0`, `DONE <- 1` (30_encoding.md R91). -/
def State.finish (s : State) : State := { s with busy := false, done := true }

/-- The end of the complete step after the command's own effect (30_encoding.md R91). -/
def finishOutcome : Host.Outcome State Fault Refusal → Host.Outcome State Fault Refusal
  | .next s => .next s.finish
  | .fault r => .fault r
  | .refused r => .refused r

/-- The complete step of an illegal word: `raise Err(InvalidArgument, ILLEGAL_CMD, 0)`, no buffer touched
(30_encoding.md R94). -/
def State.completeIllegal (s : State) : State := (s.raiseErr none ⟨.illegalCmd, 0⟩).finish

/-- `HostReset()`: every piece of the spec's state takes its reset value (46_system_and_host.md R224;
70_reset_and_hazards.md R280, R281). The parameters, the turns still to come and the draw counter are the model's and
stay (log 19). -/
def State.hostReset (s : State) : State :=
  { State.reset with params := s.params, schedule := s.schedule, draws := s.draws }

/-- A data command's end: the whole result on success, error entry otherwise (60_exceptions.md R251: there is no state
in which a command is partly done). -/
def State.commit (src dst : BufIx) (r : Except CmdError SampleSeq) (s : State) : State :=
  match r with
  | .ok q => s.writeSeq dst q
  | .error e => s.raiseErr (some (src, dst)) e

end Sys2Proof.Machine
end

