-- ==== Sys2Proof/Machine/Operands.lean ====
section
/-! DEFINITION. The operand forms of the commands (30_encoding.md R92) and every test a command makes on them, each
with its sub-cause and stage (60_exceptions.md R241 to R248). Every test is on the command word, a descriptor, a tap
count or a parameter register, none on a sample or tap value (60_exceptions.md R257). -/
namespace Sys2Proof.Machine

/-- `CheckOperands(SRC, DST)`: the six tests, in order, all at stage 0; on success the source's element type
(60_exceptions.md R241). -/
def State.checkOperands (s : State) (src dst : BufIx) : Except CmdError ElemType :=
  let d := s.desc src
  if src = dst then .error ⟨.srcDstAlias, 0⟩
  else if d.valid = false then .error ⟨.srcInvalid, 0⟩
  else
    match ElemType.ofCode d.type with
    | none => .error ⟨.badType, 0⟩
    | some t =>
      if s.params.maxLen < d.len.toNat then .error ⟨.badLen, 0⟩
      else if d.len = 0#32 then .error ⟨.emptyInput, 0⟩
      else if d.fs = 0#32 then .error ⟨.badFs, 0⟩
      else .ok t

/-- `CheckOperands` and then `SrcSeq(SRC)` (60_exceptions.md R241; 00_scope.md R11). -/
def State.loadSource (s : State) (src dst : BufIx) : Except CmdError SampleSeq :=
  match s.checkOperands src dst with
  | .error e => .error e
  | .ok t => .ok (s.srcSeq src t)

/-- `CheckBank(b, stage)` and then the taps of bank `b` (60_exceptions.md R243; 10_state.md R36). -/
def State.loadBank (s : State) (b : BankIx) (stage : Nat) : Except CmdError (List F64) :=
  if s.tapCount b = 0#32 ∨ s.params.maxTaps < (s.tapCount b).toNat then .error ⟨.badTaps, stage⟩
  else .ok (s.taps b)

/-- The carrier: `sext_32(REG.FC)` if `FCP = 1`, absent otherwise (30_encoding.md R92). -/
def State.carrier (s : State) (fcp : Bool) : Option Int := if fcp then some s.fc.toInt else none

/-- `CheckXlate(T, fc, stage)` (60_exceptions.md R244). -/
def checkXlate (t : ElemType) (fc : Option Int) (stage : Nat) : Except CmdError Unit :=
  if fc.isSome ∧ t ≠ .cs then .error ⟨.badType, stage⟩ else .ok ()

/-- `CheckDisc(T, L, fmdev, stage)` (60_exceptions.md R247). -/
def checkDisc (t : ElemType) (len : Nat) (fmdev : Word) (stage : Nat) : Except CmdError Unit :=
  if t ≠ .cs then .error ⟨.badType, stage⟩
  else if fmdev = 0#32 then .error ⟨.badFmdev, stage⟩
  else if len = 1 then .error ⟨.emptyOutput, stage⟩
  else .ok ()

/-- The Nyquist test of a cutoff `c` at rate `r` (60_exceptions.md R246; 40_numerics.md R152). -/
def checkNyquist (c r : Word) (stage : Nat) : Except CmdError Unit :=
  if nyquistFault c.toNat r.toNat then .error ⟨.nyquist, stage⟩ else .ok ()

/-- The Nyquist test of the FM channel filter (60_exceptions.md R246; 40_numerics.md R152). -/
def checkFmNyquist (fmdev fs : Word) (stage : Nat) : Except CmdError Unit :=
  if fmNyquistFault fmdev.toNat fs.toNat then .error ⟨.nyquist, stage⟩ else .ok ()

/-- The odd-count test of the rumble bank (60_exceptions.md R248). -/
def State.checkOddTaps (s : State) (b : BankIx) (stage : Nat) : Except CmdError Unit :=
  if (s.tapCount b).toNat % 2 = 0 then .error ⟨.hpEvenTaps, stage⟩ else .ok ()

/-- The decimator's first three outcomes: `BAD_FSOUT`; the identity; `DECIM_FACTOR`; else the factor `D`
(60_exceptions.md R245; 43_decimate.md R181). `none` is the identity. -/
def checkDecim (fsOut fs : Word) (stage : Nat) : Except CmdError (Option Nat) :=
  if fsOut = 0#32 then .error ⟨.badFsout, stage⟩
  else if fsOut = fs then .ok none
  else if decimFactor fs.toNat fsOut.toNat < 1 then .error ⟨.decimFactor, stage⟩
  else .ok (some (decimFactor fs.toNat fsOut.toNat))

end Sys2Proof.Machine
end

