-- ==== Sys2Proof/Machine/Fir.lean ====
section
/-! DEFINITION. The FIR filter tap convolution engine: the filter pass and the command `FIR` (41_fir.md). -/
namespace Sys2Proof.Machine

/-- One step of the sum: `acc + h[k] · x[n-k]`, the history before the first sample being `+0` (41_fir.md R161). -/
def firTerm {w : Nat} (x : List (Fp w)) (n : Nat) (acc : Fp w) (tap : Fp w × Nat) : Fp w :=
  Fp.add acc (Fp.mul tap.1 (if tap.2 ≤ n then x.getD (n - tap.2) Fp.zero else Fp.zero))

/-- `y[n]`: the sum from `+0` over the taps in ascending index (41_fir.md R161). -/
def firAt {w : Nat} (h x : List (Fp w)) (n : Nat) : Fp w := h.zipIdx.foldl (firTerm x n) Fp.zero

/-- `FIRseq_F(h, x)` (41_fir.md R161). -/
def firSeq {w : Nat} (h x : List (Fp w)) : List (Fp w) := (List.range x.length).map (firAt h x)

/-- Complex filtering: real and imaginary parts apart (41_fir.md R163). -/
def firCx (h : List F32) (x : List Cx) : List Cx :=
  List.zipWith Cx.mk (firSeq h (x.map Cx.re)) (firSeq h (x.map Cx.im))

/-- The taps of a binary32 pass: each narrowed once (40_numerics.md R141). -/
def tapsF32 (h : List F64) : List F32 := h.map narrow32

/-- `FilterSeq` on elements of any type (41_fir.md R163; 40_numerics.md R141). -/
def Samples.filter (h : List F64) : Samples → Samples
  | .cs x => .cs (firCx (tapsF32 h) x)
  | .rs x => .rs (firSeq (tapsF32 h) x)
  | .rd x => .rd (firSeq h x)

/-- `FilterSeq(b, s)`, with `h` the taps of bank `b`: type and rate are kept (41_fir.md R163). -/
def filterSeq (h : List F64) (q : SampleSeq) : SampleSeq := ⟨q.fs, q.data.filter h⟩

/-- The result of `FIR` (41_fir.md R160). -/
def State.firResult (s : State) (src dst : BufIx) (tb : BankIx) : Except CmdError SampleSeq := do
  let q ← s.loadSource src dst
  let h ← s.loadBank tb 1
  return filterSeq h q

/-- `FIR` (41_fir.md R160). -/
def execFir (src dst : BufIx) (tb : BankIx) (s : State) : Host.Outcome State Fault Refusal :=
  .next (s.commit src dst (s.firResult src dst tb))

end Sys2Proof.Machine
end

