-- ==== Sys2Proof/Machine/Decimate.lean ====
section
/-! DEFINITION. The decimator with its zero-phase anti-aliasing filter, and the command `DECIM` (43_decimate.md). -/
namespace Sys2Proof.Machine

/-- `rev(x)`: whole elements move, patterns unchanged (43_decimate.md R183). -/
def Samples.reverse : Samples → Samples
  | .cs x => .cs x.reverse
  | .rs x => .rs x.reverse
  | .rd x => .rd x.reverse

/-- `Rev` of a sequence (43_decimate.md R183). -/
def revSeq (q : SampleSeq) : SampleSeq := ⟨q.fs, q.data.reverse⟩

/-- `ZeroPhase(b, s)`: filter, reverse, filter again, reverse again, each pass from the all-zero history
(43_decimate.md R183). -/
def zeroPhase (h : List F64) (q : SampleSeq) : SampleSeq := revSeq (filterSeq h (revSeq (filterSeq h q)))

/-- `out[m] = z[m · D]` for `m` below `ceil(L / D)` (43_decimate.md R181). -/
def strideList {α : Type} (d : Nat) (z : List α) : List α :=
  (List.range (retained z.length d)).filterMap fun m => z[m * d]?

/-- Every `D`-th element, starting at index 0, of samples of any type (43_decimate.md R181). -/
def Samples.stride (d : Nat) : Samples → Samples
  | .cs x => .cs (strideList d x)
  | .rs x => .rs (strideList d x)
  | .rd x => .rd (strideList d x)

/-- `Decimate(b, fsOut, s, stage)`: the tests in order; the identity when the rates are equal, the bank not looked at;
else the zero-phase filter and every `D`-th element, at the nominal rate `fsOut` (43_decimate.md R181). -/
def State.decimate (s : State) (b : BankIx) (fsOut : Word) (stage : Nat) (q : SampleSeq) :
    Except CmdError SampleSeq := do
  match ← checkDecim fsOut q.fs stage with
  | none => return q
  | some d =>
    let h ← s.loadBank b stage
    return ⟨fsOut, (zeroPhase h q).data.stride d⟩

/-- The result of `DECIM` (43_decimate.md R180). -/
def State.decimResult (s : State) (src dst : BufIx) (aab : BankIx) : Except CmdError SampleSeq := do
  let q ← s.loadSource src dst
  s.decimate aab s.fsout 1 q

/-- `DECIM` (43_decimate.md R180). -/
def execDecim (src dst : BufIx) (aab : BankIx) (s : State) : Host.Outcome State Fault Refusal :=
  .next (s.commit src dst (s.decimResult src dst aab))

end Sys2Proof.Machine
end

