-- ==== Sys2Proof/Machine/Detectors.lean ====
section
/-! DEFINITION. The AM envelope detector and the FM phase-difference discriminator, and the commands `SQMAG` and
`FMDISC` (44_detectors.md). -/
namespace Sys2Proof.Machine

/-- The squared magnitude of a complex sample, the real part's square first (44_detectors.md R191). -/
def sqMagCx (z : Cx) : F32 := Fp.add (Fp.mul z.re z.re) (Fp.mul z.im z.im)

/-- `SqMag` on elements of any type; the type becomes `real(T)` (44_detectors.md R191). -/
def Samples.sqMag : Samples → Samples
  | .cs x => .rs (x.map sqMagCx)
  | .rs x => .rs (x.map fun v => Fp.mul v v)
  | .rd x => .rd (x.map fun v => Fp.mul v v)

/-- `SqMag(s)`: the rate is kept (44_detectors.md R191). -/
def sqMagSeq (q : SampleSeq) : SampleSeq := ⟨q.fs, q.data.sqMag⟩

/-- The result of `SQMAG` (44_detectors.md R190). -/
def State.sqmagResult (s : State) (src dst : BufIx) : Except CmdError SampleSeq := do
  let q ← s.loadSource src dst
  return sqMagSeq q

/-- `SQMAG` (44_detectors.md R190). -/
def execSqmag (src dst : BufIx) (s : State) : Host.Outcome State Fault Refusal :=
  .next (s.commit src dst (s.sqmagResult src dst))

/-- The phase difference `d` of two neighbouring angles, corrected by one turn when it leaves `[-PI32, PI32]`; the
comparisons are strict (44_detectors.md R195). -/
def wrappedDiff (next prev : F32) : F32 :=
  let d := Fp.sub next prev
  if Fp.gt d pi32 then Fp.sub d twoPi32
  else if Fp.lt d (Fp.neg pi32) then Fp.add d twoPi32
  else d

/-- The phase angle of a complex sample (44_detectors.md R195). -/
def phaseOf (z : Cx) : F32 := atan2F z.im z.re

/-- `y[n] = C · d`, with `d` from the angles of elements `n` and `n + 1` (44_detectors.md R195). -/
def discriminateCx (c : F32) (x : List Cx) : List F32 :=
  List.zipWith (fun prev next => Fp.mul c (wrappedDiff next prev)) (x.map phaseOf) (x.map phaseOf).tail

/-- `Discriminate(s, fmdev)`: real binary32 samples at the rate of `s`, one fewer (44_detectors.md R195). It meets
complex samples only: `CheckDisc` precedes it (60_exceptions.md R247); real samples, which it does not reach, are left
alone. -/
def discriminate (fmdev : Word) (q : SampleSeq) : SampleSeq :=
  match q.data with
  | .cs x => ⟨q.fs, .rs (discriminateCx (fmscale q.fs.toNat fmdev.toNat) x)⟩
  | _ => q

/-- A discriminator stage: `CheckDisc`, then `Discriminate` (44_detectors.md R193; 60_exceptions.md R247). -/
def discriminateStage (fmdev : Word) (stage : Nat) (q : SampleSeq) : Except CmdError SampleSeq := do
  checkDisc q.data.type q.data.length fmdev stage
  return discriminate fmdev q

/-- The result of `FMDISC` (44_detectors.md R193). -/
def State.fmdiscResult (s : State) (src dst : BufIx) : Except CmdError SampleSeq := do
  let q ← s.loadSource src dst
  discriminateStage s.fmdev 1 q

/-- `FMDISC` (44_detectors.md R193). -/
def execFmdisc (src dst : BufIx) (s : State) : Host.Outcome State Fault Refusal :=
  .next (s.commit src dst (s.fmdiscResult src dst))

end Sys2Proof.Machine
end

