-- ==== Sys2Proof/Machine/Translate.lean ====
section
/-! DEFINITION. The complex frequency translator and the command `XLATE` (42_translate.md). -/
namespace Sys2Proof.Machine

/-- The multiplier of element `n` for carrier `fc` at rate `fs` (42_translate.md R172). -/
def carrierAt (fc : Int) (fs n : Nat) : Cx :=
  ⟨cos2pi32 (phaseIndex fc n fs) fs, sin2pi32 (phaseIndex fc n fs) fs⟩

/-- `y[n] = cmul32(x[n], w)` for every element (42_translate.md R172). -/
def translateCx (fc : Int) (fs : Nat) (x : List Cx) : List Cx :=
  x.zipIdx.map fun p => cmul32 p.1 (carrierAt fc fs p.2)

/-- `Translate(fc, s)`: the identity when the carrier is absent (42_translate.md R171), else the product
(42_translate.md R172). A present carrier meets complex samples only: `CheckXlate` precedes it (60_exceptions.md R244);
real samples, which it does not reach, are left alone. -/
def translate (fc : Option Int) (q : SampleSeq) : SampleSeq :=
  match fc, q.data with
  | some f, .cs x => ⟨q.fs, .cs (translateCx f q.fs.toNat x)⟩
  | _, _ => q

/-- A translation stage: `CheckXlate`, then `Translate` (42_translate.md R170; 60_exceptions.md R244). -/
def translateStage (fc : Option Int) (stage : Nat) (q : SampleSeq) : Except CmdError SampleSeq := do
  checkXlate q.data.type fc stage
  return translate fc q

/-- The result of `XLATE` (42_translate.md R170). -/
def State.xlateResult (s : State) (src dst : BufIx) (fcp : Bool) : Except CmdError SampleSeq := do
  let q ← s.loadSource src dst
  translateStage (s.carrier fcp) 1 q

/-- `XLATE` (42_translate.md R170). -/
def execXlate (src dst : BufIx) (fcp : Bool) (s : State) : Host.Outcome State Fault Refusal :=
  .next (s.commit src dst (s.xlateResult src dst fcp))

end Sys2Proof.Machine
end

