-- ==== Sys2Proof/Machine/Demodulators.lean ====
section
/-! DEFINITION. The demodulator pipelines `AMDEM`, `FMDEM` and `SSBDEM`: fixed compositions of the stages, which end
at the first failing test (45_demodulators.md; 60_exceptions.md R254). -/
namespace Sys2Proof.Machine

/-- A filter stage of a pipeline: `CheckBank`, then `FilterSeq` (45_demodulators.md R200, R205). -/
def State.filterStage (s : State) (b : BankIx) (stage : Nat) (q : SampleSeq) : Except CmdError SampleSeq := do
  let h ← s.loadBank b stage
  return filterSeq h q

/-- Stage 5 of `AMDEM` when `RUM = 1`: Nyquist test, bank test, odd-count test, filter pass (45_demodulators.md R200;
60_exceptions.md R248). -/
def State.rumbleStage (s : State) (hpb : BankIx) (q : SampleSeq) : Except CmdError SampleSeq := do
  checkNyquist s.frumble s.fsout 5
  let h ← s.loadBank hpb 5
  s.checkOddTaps hpb 5
  return filterSeq h q

/-- The result of `AMDEM` (45_demodulators.md R200). -/
def State.amdemResult (s : State) (src dst : BufIx) (tb aab hpb : BankIx) (fcp rum : Bool) :
    Except CmdError SampleSeq := do
  let s0 ← s.loadSource src dst
  let s1 ← translateStage (s.carrier fcp) 1 s0
  let s2 ← s.decimate aab s.fsout 2 s1
  checkNyquist s.fcutoff s.fsout 3
  let s3 ← s.filterStage tb 3 s2
  let s4 := sqMagSeq s3
  if rum then s.rumbleStage hpb s4 else return s4

/-- `AMDEM` (45_demodulators.md R200). -/
def execAmdem (src dst : BufIx) (tb aab hpb : BankIx) (fcp rum : Bool) (s : State) :
    Host.Outcome State Fault Refusal :=
  .next (s.commit src dst (s.amdemResult src dst tb aab hpb fcp rum))

/-- The result of `FMDEM` (45_demodulators.md R205, R206). -/
def State.fmdemResult (s : State) (src dst : BufIx) (tb aab : BankIx) (fcp : Bool) : Except CmdError SampleSeq := do
  let s0 ← s.loadSource src dst
  let s1 ← translateStage (s.carrier fcp) 1 s0
  checkFmNyquist s.fmdev s0.fs 2
  let s2 ← s.filterStage tb 2 s1
  let s3 ← discriminateStage s.fmdev 3 s2
  s.decimate aab s.fsout 4 s3

/-- `FMDEM` (45_demodulators.md R205). -/
def execFmdem (src dst : BufIx) (tb aab : BankIx) (fcp : Bool) (s : State) : Host.Outcome State Fault Refusal :=
  .next (s.commit src dst (s.fmdemResult src dst tb aab fcp))

/-- The result of `SSBDEM` (45_demodulators.md R210, R211). -/
def State.ssbdemResult (s : State) (src dst : BufIx) (aab : BankIx) (fcp : Bool) : Except CmdError SampleSeq := do
  let s0 ← s.loadSource src dst
  let s2 ← translateStage (s.carrier fcp) 2 s0
  s.decimate aab s.fsout 3 s2

/-- `SSBDEM` (45_demodulators.md R210). -/
def execSsbdem (src dst : BufIx) (aab : BankIx) (fcp : Bool) (s : State) : Host.Outcome State Fault Refusal :=
  .next (s.commit src dst (s.ssbdemResult src dst aab fcp))

end Sys2Proof.Machine
end

