-- ==== Sys2Proof/Machine/System.lean ====
section
/-! DEFINITION. The command `NOP` (46_system_and_host.md R220). The RDE has no other system command
(46_system_and_host.md R226). -/
namespace Sys2Proof.Machine

/-- `NOP`: nothing; no descriptor, buffer, bank or parameter register is read or written (46_system_and_host.md R220). -/
def execNop (s : State) : Host.Outcome State Fault Refusal := .next s

end Sys2Proof.Machine
end

