-- ==== Sys2Proof/Machine/Dispatch.lean ====
section
/-! DEFINITION. The dispatch of a command to its meaning (30_encoding.md R93). -/
namespace Sys2Proof.Machine

def exec (i : Instr) (s : State) : Host.Outcome State Fault Refusal :=
  match i with
  | .nop => Sys2Proof.Machine.execNop s
  | .fir src dst tb => Sys2Proof.Machine.execFir src dst tb s
  | .xlate src dst fcp => Sys2Proof.Machine.execXlate src dst fcp s
  | .decim src dst aab => Sys2Proof.Machine.execDecim src dst aab s
  | .sqmag src dst => Sys2Proof.Machine.execSqmag src dst s
  | .fmdisc src dst => Sys2Proof.Machine.execFmdisc src dst s
  | .amdem src dst tb aab hpb fcp rum => Sys2Proof.Machine.execAmdem src dst tb aab hpb fcp rum s
  | .fmdem src dst tb aab fcp => Sys2Proof.Machine.execFmdem src dst tb aab fcp s
  | .ssbdem src dst aab fcp => Sys2Proof.Machine.execSsbdem src dst aab fcp s

end Sys2Proof.Machine
end

