-- ==== Sys2Proof/Machine/HostPort.lean ====
section
/-! DEFINITION. The host port: the register map (10_state.md R21), the word read and the word write
(46_system_and_host.md R222, R223), bus errors (R225) and what a running command drops (20_memory.md R74). -/
namespace Sys2Proof.Machine

/-- The registers of the register block (10_state.md R21). -/
inductive Reg where
  | id | status | ien | cmd | errinfo | fc | fsout | fcutoff | frumble | fmdev
  | bdCtrl (j : BufIx) | bdLen (j : BufIx) | bdFs (j : BufIx) | ntaps (b : BankIx) | reserved
deriving DecidableEq, Repr

/-- The register at an offset of the block (10_state.md R21). -/
def regAt (off : Nat) : Reg :=
  if off = 0x000 then .id
  else if off = 0x004 then .status
  else if off = 0x008 then .ien
  else if off = 0x00C then .cmd
  else if off = 0x010 then .errinfo
  else if off = 0x014 then .fc
  else if off = 0x018 then .fsout
  else if off = 0x01C then .fcutoff
  else if off = 0x020 then .frumble
  else if off = 0x024 then .fmdev
  else if 0x040 ≤ off ∧ off < 0x080 then
    let j : BufIx := Fin.ofNat 4 ((off - 0x040) / 0x10)
    if off % 0x10 = 0x0 then .bdCtrl j
    else if off % 0x10 = 0x4 then .bdLen j
    else if off % 0x10 = 0x8 then .bdFs j
    else .reserved
  else if 0x080 ≤ off ∧ off < 0x090 then .ntaps (Fin.ofNat 4 ((off - 0x080) / 4))
  else .reserved

/-- The `CTRL` word of a descriptor, `VALID + 2·TYPE` (10_state.md R30; 30_encoding.md R97). -/
def Desc.ctrlWord (d : Desc) : Word := BitVec.ofNat 32 (d.valid.toNat + 2 * d.type.toNat)

/-- `RegValue` (46_system_and_host.md R222). -/
def State.regValue (s : State) : Reg → Word
  | .id => s.id
  | .status => s.statusWord
  | .ien => s.ienWord
  | .cmd => s.cmd
  | .errinfo => s.errinfo
  | .fc => s.fc
  | .fsout => s.fsout
  | .fcutoff => s.fcutoff
  | .frumble => s.frumble
  | .fmdev => s.fmdev
  | .bdCtrl j => (s.desc j).ctrlWord
  | .bdLen j => (s.desc j).len
  | .bdFs j => (s.desc j).fs
  | .ntaps b => s.tapCount b
  | .reserved => 0

/-- A register whose write is dropped while the engine owns it (20_memory.md R74). -/
def Reg.owned : Reg → Bool
  | .fc | .fsout | .fcutoff | .frumble | .fmdev | .bdCtrl _ | .bdLen _ | .bdFs _ | .ntaps _ => true
  | .id | .status | .ien | .cmd | .errinfo | .reserved => false

/-- A host write of a register, once it is not dropped (46_system_and_host.md R223; 10_state.md R22 to R30). -/
def State.storeReg (r : Reg) (v : Word) (s : State) : State :=
  match r with
  | .id => s
  | .status => s.writeStatus v
  | .ien => s.writeIen v
  | .cmd => s.writeCmd v
  | .errinfo => s
  | .fc => { s with fc := v }
  | .fsout => { s with fsout := v }
  | .fcutoff => { s with fcutoff := v }
  | .frumble => { s with frumble := v }
  | .fmdev => { s with fmdev := v }
  | .bdCtrl j => s.setDesc j { s.desc j with valid := v.getLsbD 0, type := v.extractLsb' 1 2 }
  | .bdLen j => s.setDesc j { s.desc j with len := v }
  | .bdFs j => s.setDesc j { s.desc j with fs := v }
  | .ntaps b => s.setTapCount b v
  | .reserved => s

/-- A host write of a register: dropped with `OVR <- 1` while the engine owns it (20_memory.md R74;
46_system_and_host.md R223). `CMD` has its own rule (30_encoding.md R91). -/
def State.writeReg (r : Reg) (v : Word) (s : State) : State :=
  if r.owned && s.busy then s.setOvr else s.storeReg r v

/-- A host write of a word of tap or sample memory (46_system_and_host.md R223; 20_memory.md R74). -/
def State.writeMem (a : Nat) (v : Word) (s : State) : State :=
  if s.busy then s.setOvr else { s with mem := Memory.writeWord a v s.mem }

/-- A transaction is performed only if it is 32 bits wide, word-aligned and mapped (20_memory.md R66, R70). -/
def State.performs (s : State) (bits a : Nat) : Bool :=
  bits == 32 && a % 4 == 0 && (inReg a || inTap s.params a || inBuf s.params a)

/-- The byte a host read returns: the specified one, else the one drawn for this read and address (10_state.md R41;
log 4). -/
def State.observeByte (s : State) (a : Nat) : Byte :=
  match Memory.read s.mem a with
  | some b => b
  | none => Config.freeByte s.draws a

/-- The memory word at `a` as a host read returns it with `BUSY = 0`, little-endian (20_memory.md R60). -/
def State.observeWord (s : State) (a : Nat) : Word :=
  s.observeByte (a + 3) ++ s.observeByte (a + 2) ++ s.observeByte (a + 1) ++ s.observeByte a

/-- `HostRead(A)` (46_system_and_host.md R222): the response on the port. No piece of the spec's state changes
(20_memory.md R68); the draw counter is the model's and advances, so that two reads of an unspecified value may differ
(log 5). -/
def State.hostRead (bits : Nat) (addr : Word) (s : State) : State :=
  let a := addr.toNat
  if s.performs bits a = false then { s with port := .busError }
  else if inReg a then { s with port := .data (s.regValue (regAt a)) }
  else if s.busy then { s with port := .data (Config.freeWord s.draws), draws := s.draws + 1 }
  else { s with port := .data (s.observeWord a), draws := s.draws + 1 }

/-- `HostWrite(A, v)` (46_system_and_host.md R223). -/
def State.hostWrite (bits : Nat) (addr v : Word) (s : State) : State :=
  let a := addr.toNat
  if s.performs bits a = false then { s with port := .busError }
  else if inReg a then { s.writeReg (regAt a) v with port := .written }
  else { s.writeMem a v with port := .written }

/-- A step of the host agent (00_scope.md R12). -/
def State.hostStep (t : HostTxn) (s : State) : State :=
  match t with
  | .read bits addr => s.hostRead bits addr
  | .write bits addr v => s.hostWrite bits addr v
  | .reset => s.hostReset

end Sys2Proof.Machine
end

