-- ==== Sys2Proof/Machine/Step.lean ====
section
/-! DEFINITION. One step of the machine: the turn of one agent (00_scope.md R12). -/
namespace Sys2Proof.Machine

/-- The engine's complete step, for `BUSY = 1`: the latched word is decoded, its command's rule runs, `BUSY <- 0`,
`DONE <- 1`; an illegal word ends in `ILLEGAL_CMD` (30_encoding.md R91, R94). -/
def complete (s : State) : Host.Outcome State Fault Refusal :=
  match decode s.cmd with
  | .ok i => finishOutcome (exec i s)
  | .error _ => .next s.completeIllegal

/-- The engine's turn: its complete step if enabled, else nothing (00_scope.md R12; 10_state.md R25: the engine is idle
until the host writes `CMD`). -/
def engineTurn (s : State) : Host.Outcome State Fault Refusal :=
  if s.busy then complete s else .next s

/-- One step: the next turn of the schedule; with none left, the engine's (log 1, 2). -/
def step (s : State) : Host.Outcome State Fault Refusal :=
  match s.schedule with
  | [] => engineTurn s
  | .engine :: rest => engineTurn { s with schedule := rest }
  | .host t :: rest => .next (State.hostStep t { s with schedule := rest })

/-- The state whose next step runs the command word `w`: the word in the latch, `BUSY = 1`, the engine's turn (log 14).
Bits of `w` from `nbits` on count as 0. -/
def State.withFetchWord (s : State) (nbits w : Nat) : State :=
  { s with cmd := BitVec.ofNat 32 (w % 2 ^ nbits), busy := true, schedule := [] }

end Sys2Proof.Machine
end

