-- ==== Sys2Proof/Machine/HostStatements.lean ====
section
/-! DEFINITION. The command lines of the assembler (30_encoding.md R100) and the host statements (30_encoding.md R101),
as abstract syntax, with the turns each expands to. -/
namespace Sys2Proof.Machine

/-- A command line (30_encoding.md R100). `fc` says whether the operand `FC` is written; `rum` is the bank of the
operand `RUM=t<n>`, if written. -/
inductive AsmLine where
  | nop
  | fir (src dst : BufIx) (tb : BankIx)
  | xlate (src dst : BufIx) (fc : Bool)
  | decim (src dst : BufIx) (aab : BankIx)
  | sqmag (src dst : BufIx)
  | fmdisc (src dst : BufIx)
  | amdem (src dst : BufIx) (tb aab : BankIx) (fc : Bool) (rum : Option BankIx)
  | fmdem (src dst : BufIx) (tb aab : BankIx) (fc : Bool)
  | ssbdem (src dst : BufIx) (aab : BankIx) (fc : Bool)
deriving DecidableEq, Repr

/-- The command of a line; an omitted optional operand gives its field the value 0 (30_encoding.md R100). -/
def AsmLine.instr : AsmLine → Instr
  | .nop => .nop
  | .fir src dst tb => .fir src dst tb
  | .xlate src dst fc => .xlate src dst fc
  | .decim src dst aab => .decim src dst aab
  | .sqmag src dst => .sqmag src dst
  | .fmdisc src dst => .fmdisc src dst
  | .amdem src dst tb aab fc none => .amdem src dst tb aab 0 fc false
  | .amdem src dst tb aab fc (some hpb) => .amdem src dst tb aab hpb fc true
  | .fmdem src dst tb aab fc => .fmdem src dst tb aab fc
  | .ssbdem src dst aab fc => .ssbdem src dst aab fc

/-- The word of a command line (30_encoding.md R100). -/
def AsmLine.word (l : AsmLine) : Word := encode l.instr

/-- A host statement (30_encoding.md R101). The values of `LDTAPS` and `LDBUF` are given as patterns; the conversion
from decimal is the assembler's. -/
inductive HostStmt where
  | wr (addr v : Word)
  | rd (addr : Word)
  | command (l : AsmLine)
  | wait
  | clrDone
  | clrErr
  | clrAll
  | ldTaps (b : BankIx) (h : List (BitVec 64))
  | ldBufCs (j : BufIx) (fs : Word) (x : List (Word × Word))
  | ldBufRs (j : BufIx) (fs : Word) (x : List Word)
  | ldBufRd (j : BufIx) (fs : Word) (x : List (BitVec 64))
deriving DecidableEq, Repr

/-- One host word write (46_system_and_host.md R223). -/
def wrTurn (addr : Nat) (v : Word) : Turn := .host (.write 32 (BitVec.ofNat 32 addr) v)

/-- One host word read (46_system_and_host.md R222). -/
def rdTurn (addr : Nat) : Turn := .host (.read 32 (BitVec.ofNat 32 addr))

/-- The two writes of a 64-bit pattern, low word first (20_memory.md R62, R63). -/
def wrTurns64 (addr : Nat) (v : BitVec 64) : List Turn :=
  [wrTurn addr (v.extractLsb' 0 32), wrTurn (addr + 4) (v.extractLsb' 32 32)]

/-- The writes of `LEN`, `FS` and `CTRL` that end `LDBUF` (30_encoding.md R101). -/
def descTurns (j : BufIx) (len : Nat) (fs ctrl : Word) : List Turn :=
  [wrTurn (0x044 + 0x10 * j.val) (BitVec.ofNat 32 len), wrTurn (0x048 + 0x10 * j.val) fs,
    wrTurn (0x040 + 0x10 * j.val) ctrl]

/-- The turns a statement expands to (30_encoding.md R101). `WAIT`, "repeat `RD STATUS` until" `BUSY` is 0, is the
engine's turn and the one read that then ends the loop (log 18). -/
def HostStmt.turns : HostStmt → List Turn
  | .wr addr v => [.host (.write 32 addr v)]
  | .rd addr => [.host (.read 32 addr)]
  | .command l => [wrTurn 0x00C l.word]
  | .wait => [.engine, rdTurn 0x004]
  | .clrDone => [wrTurn 0x004 0x2]
  | .clrErr => [wrTurn 0x004 0x4]
  | .clrAll => [wrTurn 0x004 0xE]
  | .ldTaps b h =>
    h.zipIdx.flatMap (fun p => wrTurns64 (tapAddr b + 8 * p.2) p.1)
      ++ [wrTurn (0x080 + 4 * b.val) (BitVec.ofNat 32 h.length)]
  | .ldBufCs j fs x =>
    x.zipIdx.flatMap (fun p => [wrTurn (bufAddr j + 8 * p.2) p.1.1, wrTurn (bufAddr j + 8 * p.2 + 4) p.1.2])
      ++ descTurns j x.length fs 0x1
  | .ldBufRs j fs x =>
    x.zipIdx.map (fun p => wrTurn (bufAddr j + 4 * p.2) p.1) ++ descTurns j x.length fs 0x3
  | .ldBufRd j fs x =>
    x.zipIdx.flatMap (fun p => wrTurns64 (bufAddr j + 8 * p.2) p.1) ++ descTurns j x.length fs 0x5

end Sys2Proof.Machine
end

