-- ==== Sys2Proof/Machine/Ideal.lean ====
section
/-! DEFINITION. The ideal level (00_scope.md R6): what the document defines over exact numbers, as relations between
input and output, and the exact value of a pattern. Nothing the machine does is computed here; claims compare the
bit-level rules with these relations, and properties T4 and A4 of the open functions are stated here. -/
namespace Sys2Proof.Machine

/-- The exact value of a finite pattern, in units of the least subnormal (40_numerics.md R121, R122). -/
def Fp.units? {w : Nat} : Fp w → Option Int
  | .pat b => if isFiniteBits b then some (svalOf b) else none
  | _ => none

/-- The exact value of a finite pattern (40_numerics.md R121, R122). -/
def Fp.rat? {w : Nat} (v : Fp w) : Option ℚ := (Fp.units? v).map fun z => (z : ℚ) / 2 ^ unitLog w

/-- The ideal filter pass: `y[n]` is the sum of `h[k] · x[n-k]` over `k` from 0 to `min(n, N-1)` (41_fir.md R162). -/
def IdealFir (h x y : List ℚ) : Prop :=
  y.length = x.length ∧
    ∀ n < x.length, y.getD n 0 = ∑ k ∈ Finset.range (min (n + 1) h.length), h.getD k 0 * x.getD (n - k) 0

/-- The number is a value of the format with `w`-bit patterns. -/
def Representable (w : Nat) (r : ℚ) : Prop := ∃ v : Fp w, Fp.rat? v = some r

/-- Every product and every partial sum of `y[n]` is exactly representable (41_fir.md R162). -/
def FirExactAt (w : Nat) (h x : List ℚ) (n : Nat) : Prop :=
  (∀ k < h.length, k ≤ n → Representable w (h.getD k 0 * x.getD (n - k) 0)) ∧
    ∀ j ≤ h.length, Representable w (∑ k ∈ Finset.range (min (n + 1) j), h.getD k 0 * x.getD (n - k) 0)

/-- The ideal translation: `y[n] = x[n] · exp(i·2π·fc·n/fs)` (42_translate.md R173; 45_demodulators.md R211). -/
def IdealTranslate (fc : ℤ) (fs : ℕ) (x y : List ℂ) : Prop :=
  y.length = x.length ∧
    ∀ n < x.length, y.getD n 0 = x.getD n 0 * Complex.exp (Complex.I * (2 * Real.pi * fc * n / fs))

/-- The ideal decimation: the identity when the rates are equal, else the zero-phase filter `z` of the sequence and
its elements 0, D, 2D, ... (43_decimate.md R182, R183). -/
def IdealDecimate (h : List ℚ) (fs fsOut : ℕ) (x y : List ℚ) : Prop :=
  (fsOut = fs ∧ y = x) ∨
    (fsOut ≠ fs ∧ 1 ≤ fs / fsOut ∧
      ∃ a b : List ℚ, IdealFir h x a ∧ IdealFir h a.reverse b ∧ y = strideList (fs / fsOut) b.reverse)

/-- The ideal envelope detector: `|z|² = a² + b²` of each complex sample `z = a + i·b`, `v²` of each real sample `v`; the
length is unchanged (44_detectors.md R192). -/
def IdealSqMag : List ℂ ⊕ List ℝ → List ℝ → Prop
  | .inl x, y => y = x.map Complex.normSq
  | .inr x, y => y = x.map (· ^ 2)

/-- `θ` is a phase angle of `z` in `(-π, π]` (44_detectors.md R194). A zero sample has no phase at the ideal level
(40_numerics.md R139; 91_not_in_source.md N20), so every angle in the range is one of it: the model leaves its value free
(DESIGN CHOICE, log 21). -/
def IdealAngle (z : ℂ) (θ : ℝ) : Prop := -Real.pi < θ ∧ θ ≤ Real.pi ∧ (z ≠ 0 → θ = Complex.arg z)

/-- The ideal discriminator: angles, unwrapping with threshold π that leaves a jump of exactly π unchanged, first
difference, scaling by `fs / (2·√2·π·fmdev)` (44_detectors.md R194). Where a sample is zero the relation admits an output
for each angle that sample may have (DESIGN CHOICE, log 21). -/
def IdealDiscriminate (fs fmdev : ℕ) (x : List ℂ) (y : List ℝ) : Prop :=
  ∃ (φ u : ℕ → ℝ) (k : ℕ → ℤ), k 0 = 0 ∧
    (∀ n < x.length, IdealAngle (x.getD n 0) (φ n)) ∧
    (∀ n < x.length, u n = φ n + 2 * Real.pi * k n) ∧
    (∀ n, n + 1 < x.length → |u (n + 1) - u n| ≤ Real.pi) ∧
    (∀ n, n + 1 < x.length → |φ (n + 1) - φ n| ≤ Real.pi → k (n + 1) = k n) ∧
    y.length = x.length - 1 ∧
    ∀ n < y.length, y.getD n 0 = fs / (2 * Real.sqrt 2 * Real.pi * fmdev) * (u (n + 1) - u n)

/-- Property T4 of `TRIG` with the open error bound `err`, default `2^-23` (40_numerics.md R136; log 9): a premise a
claim may take, not a fact of the model. -/
def TrigAccurate (err : ℝ) : Prop :=
  ∀ r m : ℕ, r < m →
    (∃ v : ℚ, Fp.rat? (cos2pi32 r m) = some v ∧ |(v : ℝ) - Real.cos (2 * Real.pi * r / m)| ≤ err) ∧
    (∃ v : ℚ, Fp.rat? (sin2pi32 r m) = some v ∧ |(v : ℝ) - Real.sin (2 * Real.pi * r / m)| ≤ err)

/-- Property A4 of `ATAN2` with the open error bound `err`, default `2^-22` (40_numerics.md R139; log 10): a premise a
claim may take, not a fact of the model. The axis `y = 0` is left to property A3, which fixes the values there: for
`y = -0`, `x < 0` it gives `-PI32`, where the arctangent of the exact numbers is `π` (DEDUCED, log 10). -/
def AtanAccurate (err : ℝ) : Prop :=
  ∀ (y x : F32) (b a : ℚ), Fp.rat? y = some b → Fp.rat? x = some a → b ≠ 0 →
    ∃ v : ℚ, Fp.rat? (atan2F y x) = some v ∧ |(v : ℝ) - Complex.arg ⟨(a : ℝ), (b : ℝ)⟩| ≤ err

end Sys2Proof.Machine
end

