-- ==== Sys2Proof/Safety.lean ====
section
/-! DEFINITION. The terms claims are stated in: what a buffer holds, which state a command may touch, when operands are
usable, which errors a command can report, the invariant of the machine, and the end of a run. -/
namespace Sys2Proof.Machine

/-! ### What memory holds -/

/-- The bytes of memory show the value `v`: the pattern itself; for a NaN result some NaN (40_numerics.md R128); for an
unspecified value the bytes it was read with, as far as a rule fixes them (93_implementation_defined.md U8, U9). -/
def Fp.ShownBy {w : Nat} (v : Fp w) (bytes : List MaybeByte) : Prop :=
  match v with
  | .pat b => bytes = (List.range (w / 8)).map fun i => some (byteOf b i)
  | .nan => ∃ b : BitVec w, isNaNBits b = true ∧ bytes = (List.range (w / 8)).map fun i => some (byteOf b i)
  | .unspec bs => bytes = (List.range (w / 8)).map fun i => (bs[i]?).join

/-- Element `n` of buffer `j` is where and what 20_memory.md R62 says. -/
def ElementShown (m : Memory) (j : BufIx) (d : Samples) (n : Nat) : Prop :=
  match d with
  | .cs x => ∀ z, x[n]? = some z →
      z.re.ShownBy (m.readBytes (bufAddr j + 8 * n) 4) ∧ z.im.ShownBy (m.readBytes (bufAddr j + 8 * n + 4) 4)
  | .rs x => ∀ v, x[n]? = some v → v.ShownBy (m.readBytes (bufAddr j + 4 * n) 4)
  | .rd x => ∀ v, x[n]? = some v → v.ShownBy (m.readBytes (bufAddr j + 8 * n) 8)

/-- Buffer `j` holds exactly the result `q`: its descriptor, its elements, and no specified byte beyond them
(20_memory.md R64). -/
structure HoldsResult (s : State) (j : BufIx) (q : SampleSeq) : Prop where
  descriptor : s.desc j = ⟨true, q.data.type.code, BitVec.ofNat 32 q.data.length, q.fs⟩
  elements : ∀ n < q.data.length, ElementShown s.mem j q.data n
  beyond : ∀ a, bufAddr j + q.data.length * q.data.type.size ≤ a → a < bufEnd s.params j →
    Memory.read s.mem a = none

/-! ### Frames -/

/-- Everything but `STATUS`, `ERRINFO`, the descriptor and bytes of buffer `j`, and the draw counter is the same: the
frame of a data command with destination `j` (20_memory.md R78; 10_state.md R38). -/
structure OnlyBuffer (j : BufIx) (s t : State) : Prop where
  cmd : t.cmd = s.cmd
  interruptEnables : t.doneIE = s.doneIE ∧ t.errIE = s.errIE
  parameters : t.fc = s.fc ∧ t.fsout = s.fsout ∧ t.fcutoff = s.fcutoff ∧ t.frumble = s.frumble ∧ t.fmdev = s.fmdev
  descriptors : ∀ k, k ≠ j → t.desc k = s.desc k
  tapCounts : t.ntaps = s.ntaps
  memory : ∀ a, ¬(bufAddr j ≤ a ∧ a < bufEnd s.params j) → Memory.read t.mem a = Memory.read s.mem a
  model : t.params = s.params ∧ t.schedule = s.schedule ∧ t.port = s.port

/-- The flags and `ERRINFO` are the same. -/
def SameFlags (s t : State) : Prop :=
  t.busy = s.busy ∧ t.done = s.done ∧ t.err = s.err ∧ t.ovr = s.ovr ∧ t.errinfo = s.errinfo

/-- The two states agree on everything but the bytes of sample and tap memory and the draw counter. -/
def SameButMemory (s t : State) : Prop := t = { s with mem := t.mem, draws := t.draws }

/-! ### Usable operands -/

/-- `CheckOperands` passes and the source's element type is `T` (60_exceptions.md R241). -/
structure UsableSource (s : State) (src dst : BufIx) (T : ElemType) : Prop where
  distinct : src ≠ dst
  valid : (s.desc src).valid = true
  type : (s.desc src).type = T.code
  nonempty : (s.desc src).len ≠ 0#32
  fits : (s.desc src).len.toNat ≤ s.params.maxLen
  rate : (s.desc src).fs ≠ 0#32

/-- `CheckBank` passes (60_exceptions.md R243). -/
def UsableBank (s : State) (b : BankIx) : Prop :=
  1 ≤ (s.tapCount b).toNat ∧ (s.tapCount b).toNat ≤ s.params.maxTaps

/-- The decimator's tests pass for a sequence at rate `fs` (60_exceptions.md R245). -/
def UsableDecimation (s : State) (b : BankIx) (fs : Word) : Prop :=
  s.fsout ≠ 0#32 ∧ (s.fsout = fs ∨ (s.fsout.toNat < fs.toNat ∧ UsableBank s b))

/-- `Decimate` without its tests (43_decimate.md R181). -/
def decimateSeq (h : List F64) (fsOut : Word) (q : SampleSeq) : SampleSeq :=
  if fsOut = q.fs then q else ⟨fsOut, (zeroPhase h q).data.stride (decimFactor q.fs.toNat fsOut.toNat)⟩

/-- The sequence a data command computes from a source of type `T` when none of its tests fails: the stages of its rule, in
order (41_fir.md R160; 42_translate.md R170; 43_decimate.md R180; 44_detectors.md R190, R193; 45_demodulators.md R200,
R205, R210). -/
def commandResult (i : Instr) (s : State) (T : ElemType) : Option SampleSeq :=
  let carrier (fcp : Bool) : Option Int := if fcp then some s.fc.toInt else none
  match i with
  | .nop => none
  | .fir src _ tb => some (filterSeq (s.taps tb) (s.srcSeq src T))
  | .xlate src _ fcp => some (translate (carrier fcp) (s.srcSeq src T))
  | .decim src _ aab => some (decimateSeq (s.taps aab) s.fsout (s.srcSeq src T))
  | .sqmag src _ => some (sqMagSeq (s.srcSeq src T))
  | .fmdisc src _ => some (discriminate s.fmdev (s.srcSeq src T))
  | .amdem src _ tb aab hpb fcp rum =>
    let s2 := decimateSeq (s.taps aab) s.fsout (translate (carrier fcp) (s.srcSeq src T))
    let s4 := sqMagSeq (filterSeq (s.taps tb) s2)
    some (if rum then filterSeq (s.taps hpb) s4 else s4)
  | .fmdem src _ tb aab fcp =>
    let s2 := filterSeq (s.taps tb) (translate (carrier fcp) (s.srcSeq src T))
    some (decimateSeq (s.taps aab) s.fsout (discriminate s.fmdev s2))
  | .ssbdem src _ aab fcp => some (decimateSeq (s.taps aab) s.fsout (translate (carrier fcp) (s.srcSeq src T)))

/-- The elements 0, `d`, `2·d`, ... of the sequence filtered forwards and backwards with `h`: filter, reverse, filter,
reverse, keep every `d`-th, `ceil(L / d)` of them (43_decimate.md R181, R183; 40_numerics.md R151). -/
def decimated {w : Nat} (h x : List (Fp w)) (d : Nat) : List (Fp w) :=
  (List.range ((x.length + d - 1) / d)).map fun m =>
    ((firSeq h (firSeq h x).reverse).reverse).getD (m * d) (.pat (packFp w false 0))

/-- Every part of every element is a specified pattern. -/
def Samples.specified : Samples → Prop
  | .cs x => ∀ z ∈ x, (∃ b, z.re = .pat b) ∧ ∃ b, z.im = .pat b
  | .rs x => ∀ v ∈ x, ∃ b, v = .pat b
  | .rd x => ∀ v ∈ x, ∃ b, v = .pat b

/-! ### NaN operands (40_numerics.md R125 to R131) -/

/-- A NaN: a NaN pattern, or the "some NaN" that every NaN result inside a command is (40_numerics.md R128; log 6). -/
def Fp.IsNaN {w : Nat} : Fp w → Prop
  | .pat b => isNaNBits b = true
  | .nan => True
  | .unspec _ => False

/-- The rules say of which kind the value is: it is not an unspecified one (93_implementation_defined.md U8; log 7). -/
def Fp.Specified {w : Nat} : Fp w → Prop
  | .unspec _ => False
  | _ => True

/-! ### Rounding (40_numerics.md R124) -/

/-- The overflow threshold of `round_F` in units of the least subnormal: `(2^p - 1/2) · 2^(emax - p + 1)`
(40_numerics.md R124). -/
def overflowUnits (w : Nat) : Nat := if w = 32 then (2 ^ 25 - 1) * 2 ^ 252 else (2 ^ 54 - 1) * 2 ^ 2044

/-- The distance of the finite magnitude pattern `m` from `num / den` units, times `den`. -/
def unitsApart (w m num den : Nat) : Nat := ((unitsOf w m * den : Int) - (num : Int)).natAbs

/-- `v` is `± num / den` units rounded as 40_numerics.md R124 says: infinity exactly from the threshold on, else a
finite value than which no finite value is nearer, and whose fraction is even when another is equally near. -/
def IsRounding (w : Nat) (s : Bool) (num den : Nat) (v : Fp w) : Prop :=
  ∃ m, m ≤ infMag w ∧ v = .pat (packFp w s m) ∧ (m = infMag w ↔ overflowUnits w * den ≤ num) ∧
    (m < infMag w → ∀ m' < infMag w, unitsApart w m num den ≤ unitsApart w m' num den ∧
      (m' ≠ m → unitsApart w m' num den = unitsApart w m num den → m % 2 = 0))

/-! ### Errors (60_exceptions.md R241 to R249) -/

/-- The `ERRINFO` of the first operand test that fails (60_exceptions.md R241, R249). -/
def operandFault (s : State) (src dst : BufIx) : Option Word :=
  if src = dst then some 0x00000201
  else if (s.desc src).valid = false then some 0x00000301
  else if (s.desc src).type = 3 then some 0x00000401
  else if s.params.maxLen < (s.desc src).len.toNat then some 0x00000501
  else if (s.desc src).len.toNat = 0 then some 0x00001002
  else if (s.desc src).fs.toNat = 0 then some 0x00000601
  else none

/-- `info` if bank `b` is unusable (60_exceptions.md R243). -/
def bankFault (s : State) (b : BankIx) (info : Word) : Option Word :=
  if (s.tapCount b).toNat = 0 ∨ s.params.maxTaps < (s.tapCount b).toNat then some info else none

/-- `info` if a carrier meets a source of type other than `CS` (60_exceptions.md R244). -/
def carrierFault (s : State) (src : BufIx) (fcp : Bool) (info : Word) : Option Word :=
  if fcp = true ∧ (s.desc src).type ≠ 0 then some info else none

/-- The decimator's tests, with the `ERRINFO` of each (60_exceptions.md R245). -/
def decimFault (s : State) (src : BufIx) (b : BankIx) (badFsout factor badTaps : Word) : Option Word :=
  if s.fsout.toNat = 0 then some badFsout
  else if s.fsout = (s.desc src).fs then none
  else if (s.desc src).fs.toNat < s.fsout.toNat then some factor
  else bankFault s b badTaps

/-- The discriminator's tests, with the `ERRINFO` of each (60_exceptions.md R247). -/
def discFault (s : State) (src : BufIx) (badType badFmdev emptyOutput : Word) : Option Word :=
  if (s.desc src).type ≠ 0 then some badType
  else if s.fmdev.toNat = 0 then some badFmdev
  else if (s.desc src).len.toNat = 1 then some emptyOutput
  else none

/-- The tests of the rumble stage (60_exceptions.md R246, R243, R248). -/
def rumbleFault (s : State) (hpb : BankIx) : Option Word :=
  if s.fsout.toNat ≤ 2 * s.frumble.toNat then some 0x00050A01
  else (bankFault s hpb 0x00050901).or (if (s.tapCount hpb).toNat % 2 = 0 then some 0x00050B01 else none)

/-- The `ERRINFO` of the first stage test that fails, in the order of the table of 60_exceptions.md R249. -/
def stageFault (i : Instr) (s : State) : Option Word :=
  match i with
  | .nop => none
  | .fir _ _ tb => bankFault s tb 0x00010901
  | .xlate src _ fcp => carrierFault s src fcp 0x00010401
  | .decim src _ aab => decimFault s src aab 0x00010701 0x00010801 0x00010901
  | .sqmag _ _ => none
  | .fmdisc src _ => discFault s src 0x00010401 0x00010C01 0x00011102
  | .amdem src _ tb aab hpb fcp rum =>
    (carrierFault s src fcp 0x00010401).or <| (decimFault s src aab 0x00020701 0x00020801 0x00020901).or <|
      (if s.fsout.toNat ≤ 2 * s.fcutoff.toNat then some 0x00030A01 else none).or <|
        (bankFault s tb 0x00030901).or (if rum then rumbleFault s hpb else none)
  | .fmdem src _ tb aab fcp =>
    (carrierFault s src fcp 0x00010401).or <|
      (if (s.desc src).fs.toNat ≤ 3 * s.fmdev.toNat then some 0x00020A01 else none).or <|
        (bankFault s tb 0x00020901).or <| (discFault s src 0x00030401 0x00030C01 0x00031102).or
          (decimFault s src aab 0x00040701 0x00040801 0x00040901)
  | .ssbdem src _ aab fcp =>
    (carrierFault s src fcp 0x00020401).or (decimFault s src aab 0x00030701 0x00030801 0x00030901)

/-- The `ERRINFO` a command reports in state `s`, if any: a function of the command, the source descriptor, the tap
counts and the parameter registers (60_exceptions.md R249, R254, R257). -/
def commandFault (i : Instr) (s : State) : Option Word :=
  match i.src?, i.dst? with
  | some src, some dst => (operandFault s src dst).or (stageFault i s)
  | _, _ => none

/-- What a command with source `src` computes from is the same in both states: the source descriptor and buffer, the
banks, the parameter registers; so are the parameters of the implementation and the draw counter (10_state.md R39;
45_demodulators.md R212). -/
structure SameInputs (s s' : State) (src : BufIx) : Prop where
  descriptor : s'.desc src = s.desc src
  source : ∀ a, bufAddr src ≤ a → a < bufEnd s.params src → Memory.read s'.mem a = Memory.read s.mem a
  banks : ∀ b a, tapAddr b ≤ a → a < tapEnd s.params b → Memory.read s'.mem a = Memory.read s.mem a
  tapCounts : s'.ntaps = s.ntaps
  registers : s'.fc = s.fc ∧ s'.fsout = s.fsout ∧ s'.fcutoff = s.fcutoff ∧ s'.frumble = s.frumble ∧ s'.fmdev = s.fmdev
  model : s'.params = s.params ∧ s'.draws = s.draws


/-- The head of the faults of every data command, in order (60_exceptions.md R249). -/
def headFaults : List Word :=
  [0x00000201, 0x00000301, 0x00000401, 0x00000501, 0x00001002, 0x00000601]

/-- The `ERRINFO` values a command can report, in the order tested (60_exceptions.md R249). -/
def faultsOf : Instr → List Word
  | .nop => []
  | .fir _ _ _ => headFaults ++ [0x00010901]
  | .xlate _ _ _ => headFaults ++ [0x00010401]
  | .decim _ _ _ => headFaults ++ [0x00010701, 0x00010801, 0x00010901]
  | .sqmag _ _ => headFaults
  | .fmdisc _ _ => headFaults ++ [0x00010401, 0x00010C01, 0x00011102]
  | .amdem _ _ _ _ _ _ _ => headFaults ++ [0x00010401, 0x00020701, 0x00020801, 0x00020901, 0x00030A01, 0x00030901,
      0x00050A01, 0x00050901, 0x00050B01]
  | .fmdem _ _ _ _ _ => headFaults ++ [0x00010401, 0x00020A01, 0x00020901, 0x00030401, 0x00030C01, 0x00031102,
      0x00040701, 0x00040801, 0x00040901]
  | .ssbdem _ _ _ _ => headFaults ++ [0x00020401, 0x00030701, 0x00030801, 0x00030901]

/-- The `ERRINFO` values the word in the latch can lead to: an illegal word to `ILLEGAL_CMD` only (60_exceptions.md
R249; 30_encoding.md R94). -/
def faultsOfWord (w : Word) : List Word :=
  match decode w with
  | .ok i => faultsOf i
  | .error _ => [0x00000101]

/-! ### The address map (20_memory.md R70) -/

/-- The address lies in a tap bank (20_memory.md R70). -/
def InTapBank (p : Params) (a : Nat) : Prop :=
  ∃ b : BankIx, 0x10000 + 0x8000 * b.val ≤ a ∧ a < 0x10000 + 0x8000 * b.val + 8 * p.maxTaps

/-- The address lies in a sample buffer (20_memory.md R70). -/
def InSampleBuffer (p : Params) (a : Nat) : Prop :=
  ∃ j : BufIx, 0x10000000 + 0x8000000 * j.val ≤ a ∧ a < 0x10000000 + 0x8000000 * j.val + 8 * p.maxLen

/-! ### The register block (10_state.md R21, R29) -/

/-- The word offsets 0x028 to 0x03C, 0x04C + 0x10·j and 0x090 to 0xFFC are reserved (10_state.md R21, R29). -/
def reservedOffset (a : Nat) : Bool :=
  a % 4 == 0 && (decide (0x028 ≤ a ∧ a ≤ 0x03C) || a == 0x04C || a == 0x05C || a == 0x06C || a == 0x07C ||
    decide (0x090 ≤ a ∧ a ≤ 0xFFC))

/-- The word offsets whose writes are ignored, whatever `BUSY` is: `ID`, `ERRINFO` and the reserved ones (10_state.md R26,
R27, R29). -/
def readOnlyOffset (a : Nat) : Bool := a == 0x000 || a == 0x010 || reservedOffset a

/-! ### The invariant and the end of a run -/

/-- What every step keeps: memory in its canonical form; while a command runs `DONE`, `ERR` and `ERRINFO` are clear
(30_encoding.md R91); `ERR = 1` comes with a cause, and `ERRINFO` is 0 or a value the latched word can lead to
(10_state.md R26; 60_exceptions.md R249, R253). -/
structure Inv (s : State) : Prop where
  memory : Memory.wf s.params s.mem = true
  running : s.busy = true → s.done = false ∧ s.err = false ∧ s.errinfo = 0#32
  cause : s.err = true → s.errinfo ≠ 0#32
  errinfo : s.errinfo = 0#32 ∨ s.errinfo ∈ faultsOfWord s.cmd

/-- The command has ended (00_scope.md R13). -/
def Ended (s : State) : Prop := s.busy = false ∧ s.done = true

/-- The command has ended well (00_scope.md R13). -/
def EndedWell (s : State) : Prop := Ended s ∧ s.err = false

/-- The command has ended in error (00_scope.md R13). -/
def EndedInError (s : State) : Prop := Ended s ∧ s.err = true

end Sys2Proof.Machine
end

