-- ==== Sys2Proof/Certificates/Slice0/Obligations.lean ====
section
/-! DEFINITION. The statements for the provers. Each docstring names the rules of the spec it formalises. -/
open Sys2Proof Sys2Proof.Machine

/-! ### Command words -/

/-- The decoder reads `i` from exactly one word, the one the field sum of 30_encoding.md R100 gives, and that word has
the fields of `i` at the bit positions of 30_encoding.md R90. -/
def Obligations.DecodeEncodeAgree : Prop :=
  ∀ (w : Word) (i : Instr), (decode w = .ok i ↔ w = encode i) ∧ fieldsOf (encode i) = i.fields

/-- A word is a command exactly when its opcode is one of the nine and every field the opcode does not use is 0, and no
word fits two rows of the decoder's table (30_encoding.md R93, R94, R95). -/
def Obligations.LegalWords : Prop :=
  (∀ w : Word, (∃ i, decode w = .ok i) ↔ (fieldsOf w).wellFormed = true) ∧
  decodeRows.Pairwise fun r r' => ∀ w : Word, ¬(r.fits w = true ∧ r'.fits w = true)

/-- The command lines shown in 30_encoding.md R100 assemble to the words shown there, those words decode to the lines'
commands, and words of 30_encoding.md R94 are illegal. -/
def Obligations.ExampleWords : Prop :=
  (AsmLine.fir 0 1 2).word = 0x00000241 ∧ (AsmLine.xlate 0 1 true).word = 0x00004042 ∧
  (AsmLine.amdem 0 1 1 0 true (some 2)).word = 0x0000E148 ∧
  decode 0x00000000 = .ok .nop ∧ decode 0x00000241 = .ok (.fir 0 1 2) ∧ decode 0x00004042 = .ok (.xlate 0 1 true) ∧
  decode 0x00000093 = .ok (.decim 1 2 0) ∧ decode 0x0000E148 = .ok (.amdem 0 1 1 0 2 true true) ∧
  decode 0x000041C9 = .ok (.fmdem 0 3 1 0 true) ∧ decode 0x00000C2A = .ok (.ssbdem 2 0 3 false) ∧
  decode 0x00000010 = .error .mustBeZero ∧ decode 0x00000006 = .error .reservedOpcode

/-! ### The step -/

/-- With `BUSY = 1` and a legal word in the latch, the engine's turn is `exec` of the command there, then `BUSY <- 0`
and `DONE <- 1` (30_encoding.md R91); a scheduled turn is taken off the schedule first (log 1). So does the next step
run a word placed by `withFetchWord` (log 14). A scheduled host turn is the host's transaction and nothing else, whatever
`BUSY` is (00_scope.md R12; 46_system_and_host.md R222 to R224). -/
def Obligations.StepRunsDecoded : Prop :=
  (∀ (s : State) (i : Instr), s.busy = true → decode s.cmd = .ok i →
    (s.schedule = [] → ∃ t, exec i s = .next t ∧ step s = .next { t with busy := false, done := true }) ∧
    (∀ rest, s.schedule = .engine :: rest →
      ∃ t, exec i { s with schedule := rest } = .next t ∧ step s = .next { t with busy := false, done := true })) ∧
  (∀ (s : State) (nbits w : Nat) (i : Instr), decodeTableWord nbits w = some i →
    ∃ t, exec i (s.withFetchWord nbits w) = .next t ∧
      step (s.withFetchWord nbits w) = .next { t with busy := false, done := true }) ∧
  ∀ (s : State) (rest : List Turn),
    (∀ (bits : Nat) (a : Word), s.schedule = .host (.read bits a) :: rest →
      step s = .next (State.hostRead bits a { s with schedule := rest })) ∧
    (∀ (bits : Nat) (a v : Word), s.schedule = .host (.write bits a v) :: rest →
      step s = .next (State.hostWrite bits a v { s with schedule := rest })) ∧
    (s.schedule = .host .reset :: rest → step s = .next (State.hostReset { s with schedule := rest }))

/-- The complete step of an illegal word reports `ILLEGAL_CMD` and touches nothing else (30_encoding.md R94;
60_exceptions.md R250); a scheduled engine turn is taken off the schedule (log 1). -/
def Obligations.IllegalWordTouchesNoBuffer : Prop :=
  ∀ s : State, s.busy = true → (fieldsOf s.cmd).wellFormed = false →
    (s.schedule = [] →
      step s = .next { s with errinfo := 0x00000101, err := true, busy := false, done := true }) ∧
    ∀ rest, s.schedule = .engine :: rest →
      step s = .next { s with errinfo := 0x00000101, err := true, busy := false, done := true, schedule := rest }

/-- Every complete step, scheduled or not, ends its command: there is a next state, in which `BUSY = 0` and `DONE = 1`,
and the latch, the interrupt enables and `OVR` are as before (70_reset_and_hazards.md R292; 30_encoding.md R91); the turn
is taken off the schedule (log 1). -/
def Obligations.EveryCommandEnds : Prop :=
  ∀ s : State, s.busy = true → (s.schedule = [] ∨ ∃ rest, s.schedule = .engine :: rest) →
    ∃ t, step s = .next t ∧ Ended t ∧ t.cmd = s.cmd ∧ t.doneIE = s.doneIE ∧ t.errIE = s.errIE ∧ t.ovr = s.ovr ∧
      t.schedule = s.schedule.tail

/-- With `BUSY = 0` the engine is idle: its turn changes nothing (10_state.md R25; that a step with no turn scheduled is
the engine's, and that a scheduled turn is taken off, is the model's, log 1, 2). -/
def Obligations.IdleEngine : Prop :=
  ∀ s : State, s.busy = false → (s.schedule = [] → step s = .next s) ∧
    ∀ rest, s.schedule = .engine :: rest → step s = .next { s with schedule := rest }

/-- The invariant holds after reset. -/
def Obligations.InvAtReset : Prop := Inv State.reset

/-- Every step keeps the invariant: memory stays canonical; a running command has `DONE`, `ERR` and `ERRINFO` clear;
`ERR = 1` has a cause; `ERRINFO` is 0 or a value the word in the latch can lead to (30_encoding.md R91;
60_exceptions.md R249, R253; 10_state.md R26). -/
def Obligations.StepKeepsInv : Prop := ∀ s t : State, Inv s → step s = .next t → Inv t

/-! ### Errors -/

/-- What a command does about errors, for every command and state: with none of the faults of 60_exceptions.md R249 it
changes no flag; else it reports the first of them in the order of that rule, one of its command's line. -/
def Obligations.FirstFaultReported : Prop :=
  ∀ (i : Instr) (s : State), ∃ t, exec i s = .next t ∧
    match commandFault i s with
    | none => SameFlags s t
    | some e => e ∈ faultsOf i ∧ t.err = true ∧ t.errinfo = e ∧ t.busy = s.busy ∧ t.done = s.done ∧ t.ovr = s.ovr

/-- A data command has its whole effect or none: either the whole sequence its rule computes, element by element, in its
destination and no flag touched, or error entry, which withdraws the destination unless it is also the source
(60_exceptions.md R250, R251; 20_memory.md R64). Nothing outside `STATUS`, `ERRINFO` and the destination changes. -/
def Obligations.AllOrNothing : Prop :=
  ∀ (i : Instr) (s : State) (src dst : BufIx), i.src? = some src → i.dst? = some dst →
    ∃ t, exec i s = .next t ∧ OnlyBuffer dst s t ∧
      ((commandFault i s = none ∧ SameFlags s t ∧
          ∃ T q, (s.desc src).type = T.code ∧ commandResult i s T = some q ∧ 1 ≤ q.data.length ∧
            q.data.length ≤ s.params.maxLen ∧ HoldsResult t dst q) ∨
        (∃ e, commandFault i s = some e ∧ t.err = true ∧ t.errinfo = e ∧ t.busy = s.busy ∧ t.done = s.done ∧
          t.ovr = s.ovr ∧ (src = dst → t.bd = s.bd ∧ t.mem = s.mem) ∧
          (src ≠ dst → t.desc dst = { s.desc dst with valid := false } ∧
            ∀ a, bufAddr dst ≤ a → a < bufEnd s.params dst → Memory.read t.mem a = none)))

/-- No command changes a byte of its source buffer, its source descriptor, a tap bank or a parameter register; equal
source and destination are refused as `SRC_DST_ALIAS` (20_memory.md R78). -/
def Obligations.SourceNeverWritten : Prop :=
  ∀ (i : Instr) (s t : State), exec i s = .next t →
    t.fc = s.fc ∧ t.fsout = s.fsout ∧ t.fcutoff = s.fcutoff ∧ t.frumble = s.frumble ∧ t.fmdev = s.fmdev ∧
    t.ntaps = s.ntaps ∧
    (∀ (b : BankIx) (a : Nat), tapAddr b ≤ a → a < tapEnd s.params b → Memory.read t.mem a = Memory.read s.mem a) ∧
    (∀ src, i.src? = some src → t.desc src = s.desc src ∧
      ∀ a, bufAddr src ≤ a → a < bufEnd s.params src → Memory.read t.mem a = Memory.read s.mem a) ∧
    (∀ j, i.src? = some j → i.dst? = some j → t.err = true ∧ t.errinfo = 0x00000201)

/-- Whether a command ends in error, the cause, and the type, length and rate of its result do not depend on any
sample or tap: two states that agree on all but memory bytes are taken to two such states (60_exceptions.md R257). -/
def Obligations.OutcomeIgnoresSamples : Prop :=
  ∀ (i : Instr) (s s' t : State), SameButMemory s s' → exec i s = .next t →
    ∃ t', exec i s' = .next t' ∧ SameButMemory t t'

/-- The result is a function of the source, the banks and the parameter registers: of no other buffer, no other
descriptor, no flag (10_state.md R39; 45_demodulators.md R212). That the bytes of a NaN agree too is the model's choice:
draws are functions of the draw counter, which the premise `SameInputs` takes equal (log 5); by 40_numerics.md R128 two
executions may differ there. -/
def Obligations.ResultIgnoresRest : Prop :=
  ∀ (i : Instr) (s s' : State) (src dst : BufIx), i.src? = some src → i.dst? = some dst → SameInputs s s' src →
    commandFault i s = none →
    ∃ t t', exec i s = .next t ∧ exec i s' = .next t' ∧ SameFlags s t ∧ SameFlags s' t' ∧ t'.desc dst = t.desc dst ∧
      ∀ a, bufAddr dst ≤ a → a < bufEnd s.params dst → Memory.read t'.mem a = Memory.read t.mem a

/-! ### What each command does -/

/-- `NOP` does nothing; run from the latch it only ends (46_system_and_host.md R220). -/
def Obligations.NopResult : Prop :=
  (∀ s : State, exec .nop s = .next s) ∧
  ∀ s : State, s.busy = true → s.schedule = [] → s.cmd = 0x00000000 →
    step s = .next { s with busy := false, done := true }

/-- `FIR`: the destination holds the source filtered with the bank's taps, same type, rate and length (41_fir.md R160,
R163). Where every command's operands stand: tap `k` of bank `b` and element `n` of buffer `j` are the little-endian
patterns of the bytes at the addresses of 20_memory.md R60, R62, R63 (10_state.md R33, R36). That a pattern of which a byte
is unspecified is taken as an unspecified value that keeps its bytes is the model's (log 7). -/
def Obligations.FirResult : Prop :=
  (∀ (s : State) (src dst : BufIx) (tb : BankIx) (T : ElemType), UsableSource s src dst T → UsableBank s tb →
    ∃ t, exec (.fir src dst tb) s = .next t ∧ SameFlags s t ∧ OnlyBuffer dst s t ∧
      HoldsResult t dst (filterSeq (s.taps tb) (s.srcSeq src T)) ∧
      t.desc dst = ⟨true, T.code, (s.desc src).len, (s.desc src).fs⟩) ∧
  (∀ (s : State) (b : BankIx), s.taps b = (List.range (s.tapCount b).toNat).map fun k =>
    Memory.readFp 64 s.mem (0x10000 + 0x8000 * b.val + 8 * k)) ∧
  (∀ (s : State) (j : BufIx), let L := (s.desc j).len.toNat; let base := 0x10000000 + 0x8000000 * j.val
    s.srcSeq j .cs = ⟨(s.desc j).fs, .cs ((List.range L).map fun n =>
      ⟨Memory.readFp 32 s.mem (base + 8 * n), Memory.readFp 32 s.mem (base + 8 * n + 4)⟩)⟩ ∧
    s.srcSeq j .rs = ⟨(s.desc j).fs, .rs ((List.range L).map fun n => Memory.readFp 32 s.mem (base + 4 * n))⟩ ∧
    s.srcSeq j .rd = ⟨(s.desc j).fs, .rd ((List.range L).map fun n => Memory.readFp 64 s.mem (base + 8 * n))⟩) ∧
  (ElemType.cs.code = 0 ∧ ElemType.rs.code = 1 ∧ ElemType.rd.code = 2 ∧
    ElemType.cs.size = 8 ∧ ElemType.rs.size = 4 ∧ ElemType.rd.size = 8) ∧
  (∀ (m : Memory) (a : Nat), Memory.readCx m a = ⟨Memory.readFp 32 m a, Memory.readFp 32 m (a + 4)⟩ ∧
    ∀ n, Memory.readBytes m a n = (List.range n).map fun k => Memory.read m (a + k)) ∧
  ∀ w : Nat, w = 32 ∨ w = 64 → ∀ (m : Memory) (a : Nat),
    (∀ b : BitVec w, (∀ k < w / 8, Memory.read m (a + k) = some (b.extractLsb' (8 * k) 8)) →
      Memory.readFp w m a = .pat b) ∧
    ((∃ k < w / 8, Memory.read m (a + k) = none) → Memory.readFp w m a = .unspec (Memory.readBytes m a (w / 8)))

/-- `XLATE` with the carrier absent copies the source byte for byte, whatever its type, and looks at no carrier
(42_translate.md R170, R171). -/
def Obligations.XlateAbsentCopies : Prop :=
  ∀ (s : State) (src dst : BufIx) (T : ElemType), UsableSource s src dst T →
    ∃ t, exec (.xlate src dst false) s = .next t ∧ SameFlags s t ∧ OnlyBuffer dst s t ∧ t.desc dst = s.desc src ∧
      HoldsResult t dst (s.srcSeq src T) ∧
      ∀ k < (s.desc src).len.toNat * T.size, Memory.read t.mem (bufAddr dst + k) = Memory.read s.mem (bufAddr src + k)

/-- `XLATE` with a carrier: element `n` is multiplied by the cosine and sine at the phase index `(fc · n) mod fs`, four
products, one difference, one sum (42_translate.md R170, R172; 40_numerics.md R134). So does the translator inside the
pipelines, on any complex sequence; an absent carrier leaves any sequence as it is (42_translate.md R171). -/
def Obligations.XlatePresentResult : Prop :=
  (∀ (s : State) (src dst : BufIx), UsableSource s src dst .cs →
    ∃ t, exec (.xlate src dst true) s = .next t ∧ SameFlags s t ∧ OnlyBuffer dst s t ∧ t.desc dst = s.desc src ∧
      HoldsResult t dst ⟨(s.desc src).fs, .cs ((List.range (s.desc src).len.toNat).map fun (n : Nat) =>
        let fs := (s.desc src).fs.toNat
        let r := (s.fc.toInt * (n : Int) % (fs : Int)).toNat
        let x := Memory.readCx s.mem (bufAddr src + 8 * n)
        ⟨Fp.sub (Fp.mul x.re (cos2pi32 r fs)) (Fp.mul x.im (sin2pi32 r fs)),
          Fp.add (Fp.mul x.re (sin2pi32 r fs)) (Fp.mul x.im (cos2pi32 r fs))⟩)⟩) ∧
  (∀ (fc : Int) (fs : Word) (x : List Cx), translate (some fc) ⟨fs, .cs x⟩ = ⟨fs, .cs (x.zipIdx.map fun p =>
    let r := (fc * (p.2 : Int) % (fs.toNat : Int)).toNat
    ⟨Fp.sub (Fp.mul p.1.re (cos2pi32 r fs.toNat)) (Fp.mul p.1.im (sin2pi32 r fs.toNat)),
      Fp.add (Fp.mul p.1.re (sin2pi32 r fs.toNat)) (Fp.mul p.1.im (cos2pi32 r fs.toNat))⟩)⟩) ∧
  ∀ q : SampleSeq, translate none q = q

/-- `DECIM` at an output rate equal to the source's copies the source byte for byte, the bank not looked at
(43_decimate.md R180, R181). -/
def Obligations.DecimIdentityCopies : Prop :=
  ∀ (s : State) (src dst : BufIx) (aab : BankIx) (T : ElemType), UsableSource s src dst T →
    s.fsout = (s.desc src).fs →
    ∃ t, exec (.decim src dst aab) s = .next t ∧ SameFlags s t ∧ OnlyBuffer dst s t ∧ t.desc dst = s.desc src ∧
      HoldsResult t dst (s.srcSeq src T) ∧
      ∀ k < (s.desc src).len.toNat * T.size, Memory.read t.mem (bufAddr dst + k) = Memory.read s.mem (bufAddr src + k)

/-- `DECIM` otherwise: every `D`-th element of the zero-phase filtered source from index 0, `D = floor(fs / FSOUT)`,
`ceil(L / D)` of them, at the nominal rate `FSOUT`, complex samples part by part (43_decimate.md R180, R181, R183). So does
the decimator inside the pipelines, on any sequence. -/
def Obligations.DecimResult : Prop :=
  (∀ (s : State) (src dst : BufIx) (aab : BankIx) (T : ElemType), UsableSource s src dst T → UsableBank s aab →
    1 ≤ s.fsout.toNat → s.fsout.toNat < (s.desc src).fs.toNat →
    let D := (s.desc src).fs.toNat / s.fsout.toNat
    let L := (s.desc src).len.toNat
    ∃ t, exec (.decim src dst aab) s = .next t ∧ SameFlags s t ∧ OnlyBuffer dst s t ∧
      HoldsResult t dst ⟨s.fsout, match T with
        | .cs =>
          let x := (List.range L).map fun n => Memory.readCx s.mem (bufAddr src + 8 * n)
          .cs (List.zipWith Cx.mk (decimated ((s.taps aab).map narrow32) (x.map Cx.re) D)
            (decimated ((s.taps aab).map narrow32) (x.map Cx.im) D))
        | .rs => .rs (decimated ((s.taps aab).map narrow32)
            ((List.range L).map fun n => Memory.readFp 32 s.mem (bufAddr src + 4 * n)) D)
        | .rd => .rd (decimated (s.taps aab)
            ((List.range L).map fun n => Memory.readFp 64 s.mem (bufAddr src + 8 * n)) D)⟩ ∧
      t.desc dst = ⟨true, T.code, BitVec.ofNat 32 ((L + D - 1) / D), s.fsout⟩) ∧
  ∀ (h : List F64) (fs : Word) (d : Nat), 1 ≤ d →
    (∀ x : List Cx, (zeroPhase h ⟨fs, .cs x⟩).data.stride d =
      .cs (List.zipWith Cx.mk (decimated (h.map narrow32) (x.map Cx.re) d) (decimated (h.map narrow32) (x.map Cx.im) d))) ∧
    (∀ x : List F32, (zeroPhase h ⟨fs, .rs x⟩).data.stride d = .rs (decimated (h.map narrow32) x d)) ∧
    ∀ x : List F64, (zeroPhase h ⟨fs, .rd x⟩).data.stride d = .rd (decimated h x d)

/-- `SQMAG`: the squared magnitude of every element; complex samples become real single, real ones keep their type
(44_detectors.md R190, R191; 10_state.md R33). So does the detector inside the pipeline, on any sequence. -/
def Obligations.SqmagResult : Prop :=
  (∀ (s : State) (src dst : BufIx) (T : ElemType), UsableSource s src dst T →
    ∃ t, exec (.sqmag src dst) s = .next t ∧ SameFlags s t ∧ OnlyBuffer dst s t ∧
      HoldsResult t dst ⟨(s.desc src).fs, match T with
        | .cs => .rs ((List.range (s.desc src).len.toNat).map fun n =>
          let z := Memory.readCx s.mem (bufAddr src + 8 * n)
          Fp.add (Fp.mul z.re z.re) (Fp.mul z.im z.im))
        | .rs => .rs ((List.range (s.desc src).len.toNat).map fun n =>
          let v : F32 := Memory.readFp 32 s.mem (bufAddr src + 4 * n)
          Fp.mul v v)
        | .rd => .rd ((List.range (s.desc src).len.toNat).map fun n =>
          let v : F64 := Memory.readFp 64 s.mem (bufAddr src + 8 * n)
          Fp.mul v v)⟩) ∧
  (∀ fs : Word,
    (∀ x, sqMagSeq ⟨fs, .cs x⟩ =
      ⟨fs, .rs (x.map fun z => Fp.add (Fp.mul z.re z.re) (Fp.mul z.im z.im))⟩) ∧
    (∀ x, sqMagSeq ⟨fs, .rs x⟩ = ⟨fs, .rs (x.map fun v => Fp.mul v v)⟩) ∧
    ∀ x, sqMagSeq ⟨fs, .rd x⟩ = ⟨fs, .rd (x.map fun v => Fp.mul v v)⟩) ∧
  ElemType.cs.real = .rs ∧ ElemType.rs.real = .rs ∧ ElemType.rd.real = .rd

/-- `FMDISC`: every two neighbouring phase angles give their difference, the later less the earlier, corrected by one turn
where it is beyond `PI32` or `neg_F32(PI32)`, times `C`; one element fewer, binary32 (44_detectors.md R193, R195;
40_numerics.md R133, R140). So does the discriminator inside the pipeline, on any complex sequence; `WrappedDifferenceInRange`
and `FmscalePositiveNormal` spell its two helpers. -/
def Obligations.FmdiscResult : Prop :=
  (∀ (s : State) (src dst : BufIx), UsableSource s src dst .cs → s.fmdev ≠ 0#32 → (s.desc src).len.toNat ≠ 1 →
    ∃ t, exec (.fmdisc src dst) s = .next t ∧ SameFlags s t ∧ OnlyBuffer dst s t ∧
      HoldsResult t dst ⟨(s.desc src).fs, .rs ((List.range ((s.desc src).len.toNat - 1)).map fun n =>
        let z := Memory.readCx s.mem (bufAddr src + 8 * n)
        let z' := Memory.readCx s.mem (bufAddr src + 8 * (n + 1))
        let d := Fp.sub (atan2F z'.im z'.re) (atan2F z.im z.re)
        Fp.mul
          (narrow32 (Fp.div (u2d (s.desc src).fs.toNat) (Fp.mul (.pat 0x4021C5831ADD62E4) (u2d s.fmdev.toNat))))
          (if Fp.gt d (.pat 0x40490FDB) then Fp.sub d (.pat 0x40C90FDB)
            else if Fp.lt d (Fp.neg (.pat 0x40490FDB)) then Fp.add d (.pat 0x40C90FDB)
            else d))⟩) ∧
  (∀ (fmdev fs : Word) (x : List Cx), discriminate fmdev ⟨fs, .cs x⟩ =
    ⟨fs, .rs (discriminateCx (fmscale fs.toNat fmdev.toNat) x)⟩) ∧
  ∀ (c : F32) (x : List Cx), discriminateCx c x =
    List.zipWith (fun z z' => Fp.mul c (wrappedDiff (atan2F z'.im z'.re) (atan2F z.im z.re))) x x.tail

/-- `AMDEM`: translate, decimate, low-pass, square, and with `RUM = 1` the rumble filter; the result is real, at the
rate `FSOUT`, and has as many elements as the decimator keeps (45_demodulators.md R200). -/
def Obligations.AmdemResult : Prop :=
  ∀ (s : State) (src dst : BufIx) (tb aab hpb : BankIx) (fcp rum : Bool) (T : ElemType), UsableSource s src dst T →
    (fcp = true → T = .cs) → UsableDecimation s aab (s.desc src).fs → 2 * s.fcutoff.toNat < s.fsout.toNat →
    UsableBank s tb →
    (rum = true → 2 * s.frumble.toNat < s.fsout.toNat ∧ UsableBank s hpb ∧ (s.tapCount hpb).toNat % 2 = 1) →
    let s1 := translate (if fcp then some s.fc.toInt else none) (s.srcSeq src T)
    let s2 := decimateSeq (s.taps aab) s.fsout s1
    let s4 := sqMagSeq (filterSeq (s.taps tb) s2)
    let D := (s.desc src).fs.toNat / s.fsout.toNat
    let L := (s.desc src).len.toNat
    ∃ t, exec (.amdem src dst tb aab hpb fcp rum) s = .next t ∧ SameFlags s t ∧ OnlyBuffer dst s t ∧
      HoldsResult t dst (if rum then filterSeq (s.taps hpb) s4 else s4) ∧
      t.desc dst = ⟨true, T.real.code, BitVec.ofNat 32 ((L + D - 1) / D), s.fsout⟩

/-- `FMDEM`: translate, low-pass at the original rate, discriminate, decimate; the result is binary32 real, at the rate
`FSOUT`, from one element fewer (45_demodulators.md R205, R206). -/
def Obligations.FmdemResult : Prop :=
  ∀ (s : State) (src dst : BufIx) (tb aab : BankIx) (fcp : Bool), UsableSource s src dst .cs →
    3 * s.fmdev.toNat < (s.desc src).fs.toNat → UsableBank s tb → s.fmdev ≠ 0#32 → (s.desc src).len.toNat ≠ 1 →
    UsableDecimation s aab (s.desc src).fs →
    let s1 := translate (if fcp then some s.fc.toInt else none) (s.srcSeq src .cs)
    let s3 := discriminate s.fmdev (filterSeq (s.taps tb) s1)
    let D := (s.desc src).fs.toNat / s.fsout.toNat
    let L := (s.desc src).len.toNat
    ∃ t, exec (.fmdem src dst tb aab fcp) s = .next t ∧ SameFlags s t ∧ OnlyBuffer dst s t ∧
      HoldsResult t dst (decimateSeq (s.taps aab) s.fsout s3) ∧
      t.desc dst = ⟨true, ElemType.rs.code, BitVec.ofNat 32 ((L - 1 + D - 1) / D), s.fsout⟩

/-- `SSBDEM`: translate and decimate; the source's element type, at the rate `FSOUT` (45_demodulators.md R210,
R211). -/
def Obligations.SsbdemResult : Prop :=
  ∀ (s : State) (src dst : BufIx) (aab : BankIx) (fcp : Bool) (T : ElemType), UsableSource s src dst T →
    (fcp = true → T = .cs) → UsableDecimation s aab (s.desc src).fs →
    let s2 := translate (if fcp then some s.fc.toInt else none) (s.srcSeq src T)
    let D := (s.desc src).fs.toNat / s.fsout.toNat
    let L := (s.desc src).len.toNat
    ∃ t, exec (.ssbdem src dst aab fcp) s = .next t ∧ SameFlags s t ∧ OnlyBuffer dst s t ∧
      HoldsResult t dst (decimateSeq (s.taps aab) s.fsout s2) ∧
      t.desc dst = ⟨true, T.code, BitVec.ofNat 32 ((L + D - 1) / D), s.fsout⟩

/-- `SSBDEM` equals `XLATE` into a third buffer followed by `DECIM`: one sequence is what the destination holds after
either, provided the translated samples are specified patterns (45_demodulators.md R210, R212). -/
def Obligations.SsbdemIsXlateThenDecim : Prop :=
  ∀ (s : State) (src mid dst : BufIx) (aab : BankIx) (fcp : Bool) (T : ElemType), UsableSource s src dst T →
    (fcp = true → T = .cs) → UsableDecimation s aab (s.desc src).fs → mid ≠ src → mid ≠ dst →
    (translate (if fcp then some s.fc.toInt else none) (s.srcSeq src T)).data.specified →
    ∃ t t1 t2, exec (.ssbdem src dst aab fcp) s = .next t ∧ exec (.xlate src mid fcp) s = .next t1 ∧
      exec (.decim mid dst aab) t1 = .next t2 ∧ SameFlags t t2 ∧ t2.desc dst = t.desc dst ∧
      let q := decimateSeq (s.taps aab) s.fsout (translate (if fcp then some s.fc.toInt else none) (s.srcSeq src T))
      HoldsResult t dst q ∧ HoldsResult t2 dst q

/-! ### Numerics -/

/-- The exact result of two operands is rounded once, to nearest, ties to even, to infinity from the threshold on
(40_numerics.md R124). -/
def Obligations.RoundsToNearestEven : Prop :=
  ∀ (w : Nat) (s : Bool) (num den : Nat), w = 32 ∨ w = 64 → 1 ≤ den → IsRounding w s num den (roundFp w s num den)

/-- Magnitude patterns are ordered as the values they stand for, infinity above every finite one, and a value of the
format is its own rounding (40_numerics.md R121, R122, R124). -/
def Obligations.PatternsAndValues : Prop :=
  ∀ w m : Nat, w = 32 ∨ w = 64 →
    (∀ m', m < m' → m' ≤ infMag w → unitsOf w m < unitsOf w m') ∧
    (∀ k, m < infMag w → 1 ≤ k → roundMag w (unitsOf w m * k) k = m)

/-- Every case of `add_F` and `sub_F`, and the facts named there (40_numerics.md R125). -/
def Obligations.AddRule : Prop :=
  ∀ w : Nat, w = 32 ∨ w = 64 →
    (∀ a b : BitVec w, isFiniteBits a = true → isFiniteBits b = true →
      (svalOf a + svalOf b ≠ 0 → IsRounding w (decide (svalOf a + svalOf b < 0)) (svalOf a + svalOf b).natAbs 1
        (Fp.add (.pat a) (.pat b))) ∧
      (svalOf a + svalOf b = 0 → Fp.add (.pat a) (.pat b) =
        if a = packFp w true 0 ∧ b = packFp w true 0 then .pat (packFp w true 0) else .pat (packFp w false 0))) ∧
    (∀ a : BitVec w, isFiniteBits a = true → Fp.add (.pat a) (Fp.neg (.pat a)) = .pat (packFp w false 0)) ∧
    (∀ (a : BitVec w) (z : Bool), isFiniteBits a = true → isZeroBits a = false →
      Fp.add (.pat a) (.pat (packFp w z 0)) = .pat a) ∧
    (∀ (z : Bool) (b : BitVec w), isFiniteBits b = true →
      Fp.add (.pat (packFp w z (infMag w))) (.pat b) = .pat (packFp w z (infMag w)) ∧
      Fp.add (.pat b) (.pat (packFp w z (infMag w))) = .pat (packFp w z (infMag w))) ∧
    (∀ z : Bool, Fp.add (.pat (packFp w z (infMag w))) (.pat (packFp w z (infMag w))) = .pat (packFp w z (infMag w))) ∧
    (∀ z : Bool, Fp.add (.pat (packFp w z (infMag w))) (.pat (packFp w (!z) (infMag w))) = .nan) ∧
    (∀ a b : Fp w, a.Specified → b.Specified → a.IsNaN ∨ b.IsNaN → Fp.add a b = .nan ∧ Fp.sub a b = .nan) ∧
    (∀ a b : Fp w, Fp.sub a b = Fp.add a (Fp.neg b))

/-- Every case of `mul_F` (40_numerics.md R126). -/
def Obligations.MulRule : Prop :=
  ∀ w : Nat, w = 32 ∨ w = 64 →
    (∀ a b : BitVec w, isFiniteBits a = true → isFiniteBits b = true →
      IsRounding w (signOf a ^^ signOf b) (unitsOf w (magOf a) * unitsOf w (magOf b)) (2 ^ unitLog w)
        (Fp.mul (.pat a) (.pat b))) ∧
    (∀ a b : BitVec w, isFiniteBits a = true → isFiniteBits b = true → isZeroBits a = true ∨ isZeroBits b = true →
      Fp.mul (.pat a) (.pat b) = .pat (packFp w (signOf a ^^ signOf b) 0)) ∧
    (∀ a b : BitVec w, isInfBits a = true → isNaNBits b = false → isZeroBits b = false →
      Fp.mul (.pat a) (.pat b) = .pat (packFp w (signOf a ^^ signOf b) (infMag w)) ∧
      Fp.mul (.pat b) (.pat a) = .pat (packFp w (signOf a ^^ signOf b) (infMag w))) ∧
    (∀ a b : BitVec w, isInfBits a = true → isZeroBits b = true →
      Fp.mul (.pat a) (.pat b) = .nan ∧ Fp.mul (.pat b) (.pat a) = .nan) ∧
    (∀ a b : Fp w, a.Specified → b.Specified → a.IsNaN ∨ b.IsNaN → Fp.mul a b = .nan)

/-- `neg_F` flips the sign bit and nothing else, NaN patterns included (40_numerics.md R129). -/
def Obligations.NegFlipsSignOnly : Prop :=
  ∀ w : Nat, w = 32 ∨ w = 64 → ∀ a : BitVec w, ∃ c : BitVec w, Fp.neg (.pat a) = .pat c ∧
    ∀ k < w, c.getLsbD k = if k = w - 1 then !a.getLsbD k else a.getLsbD k

/-- `gt_F` and `lt_F` are the IEEE comparisons (40_numerics.md R130). -/
def Obligations.CompareRule : Prop :=
  ∀ w : Nat, w = 32 ∨ w = 64 →
    (∀ a b : Fp w, Fp.lt a b = Fp.gt b a ∧ (a.IsNaN ∨ b.IsNaN → Fp.gt a b = false ∧ Fp.lt a b = false)) ∧
    ∀ a b : BitVec w,
    (isFiniteBits a = true → isFiniteBits b = true →
      ∀ x y : ℚ, Fp.rat? (.pat a) = some x → Fp.rat? (.pat b) = some y → (Fp.gt (.pat a) (.pat b) = true ↔ y < x)) ∧
    (isInfBits a = true → isFiniteBits b = true →
      Fp.gt (.pat a) (.pat b) = !signOf a ∧ Fp.gt (.pat b) (.pat a) = signOf a) ∧
    (isInfBits a = true → isInfBits b = true → Fp.gt (.pat a) (.pat b) = (!signOf a && signOf b))

/-- Every case of `div_F` (40_numerics.md R127). -/
def Obligations.DivRule : Prop :=
  ∀ w : Nat, w = 32 ∨ w = 64 →
    (∀ a b : Fp w, a.Specified → b.Specified → a.IsNaN ∨ b.IsNaN → Fp.div a b = .nan) ∧
    ∀ a b : BitVec w,
    (isFiniteBits a = true → isFiniteBits b = true → isZeroBits b = false →
      IsRounding w (signOf a ^^ signOf b) (unitsOf w (magOf a) * 2 ^ unitLog w) (unitsOf w (magOf b))
        (Fp.div (.pat a) (.pat b))) ∧
    (isFiniteBits a = true → isZeroBits a = false → isZeroBits b = true →
      Fp.div (.pat a) (.pat b) = .pat (packFp w (signOf a ^^ signOf b) (infMag w))) ∧
    (isZeroBits a = true → isZeroBits b = true → Fp.div (.pat a) (.pat b) = .nan) ∧
    (isInfBits a = true → isInfBits b = true → Fp.div (.pat a) (.pat b) = .nan) ∧
    (isInfBits a = true → isFiniteBits b = true →
      Fp.div (.pat a) (.pat b) = .pat (packFp w (signOf a ^^ signOf b) (infMag w))) ∧
    (isFiniteBits a = true → isInfBits b = true →
      Fp.div (.pat a) (.pat b) = .pat (packFp w (signOf a ^^ signOf b) 0))

/-- Narrowing rounds once; widening is exact; both take infinity to the infinity of that sign and NaN to a NaN; widening
and then narrowing a value that is not NaN gives it back (40_numerics.md R131). -/
def Obligations.ConversionRule : Prop :=
  (∀ a : BitVec 64, isFiniteBits a = true →
    IsRounding 32 (signOf a) (unitsOf 64 (magOf a)) (2 ^ (1074 - 149)) (narrow32 (.pat a))) ∧
  (∀ a : BitVec 32, isFiniteBits a = true →
    ∃ c, widen64 (.pat a) = .pat c ∧ signOf c = signOf a ∧ Fp.rat? (.pat c : F64) = Fp.rat? (.pat a : F32)) ∧
  (∀ a : BitVec 64, isInfBits a = true → narrow32 (.pat a) = .pat (packFp 32 (signOf a) (infMag 32))) ∧
  (∀ a : BitVec 32, isInfBits a = true → widen64 (.pat a) = .pat (packFp 64 (signOf a) (infMag 64))) ∧
  (∀ a : F64, a.IsNaN → narrow32 a = .nan) ∧ (∀ a : F32, a.IsNaN → widen64 a = .nan) ∧
  (∀ a : BitVec 32, isNaNBits a = false → narrow32 (widen64 (.pat a)) = .pat a) ∧
  (∀ n < 2 ^ 53, Fp.rat? (u2d n) = some (n : ℚ))

/-- The decimation factor, the number of retained elements, the refusal of an output rate of 0, and the Nyquist tests,
with the examples given there (40_numerics.md R151, R152). -/
def Obligations.IntegerLaws : Prop :=
  (∀ fs fsOut : Nat, 1 ≤ fs → 1 ≤ fsOut →
    (∀ d, decimFactor fs fsOut = d ↔ d * fsOut ≤ fs ∧ fs < (d + 1) * fsOut) ∧
    (decimFactor fs fsOut = 0 ↔ fs < fsOut) ∧ (decimFactor fs fsOut = 1 ↔ fs < 2 * fsOut ∧ fsOut ≤ fs)) ∧
  (∀ (s : State) (b : BankIx) (stage : Nat) (q : SampleSeq), s.decimate b 0 stage q = .error ⟨.badFsout, stage⟩) ∧
  (∀ len d : Nat, 1 ≤ len → 1 ≤ d →
    1 ≤ retained len d ∧ retained len d ≤ len ∧ (d ∣ len → retained len d = len / d) ∧
    (∀ m, m < retained len d ↔ m * d < len) ∧
    retained len d = ((Finset.range len).filter fun k => d ∣ k).card) ∧
  decimFactor 48000 8000 = 6 ∧ retained 48000 6 = 8000 ∧ retained 47999 6 = 8000 ∧ retained 5 2 = 3 ∧
  decimFactor 48000 30000 = 1 ∧ (∀ len, retained len 1 = len) ∧ decimFactor 8000 48000 = 0 ∧
  (∀ c r : Nat, nyquistFault c r = true ↔ 2 * c ≥ r) ∧
  (∀ fmdev fs : Nat, fmNyquistFault fmdev fs = true ↔ 3 * fmdev ≥ fs) ∧
  nyquistFault 2000 8000 = false ∧ nyquistFault 4000 8000 = true ∧
  (∀ fs : Nat, fmNyquistFault 75000 fs = false ↔ 225001 ≤ fs)

/-- The phase index is below the rate for either sign of the carrier, differs from `fc · n` by whole turns, and gives
the exact same complex exponential (40_numerics.md R153). -/
def Obligations.PhaseIndexLaw : Prop :=
  (∀ (fc : Int) (n fs : Nat), 1 ≤ fs →
    phaseIndex fc n fs < fs ∧ (∃ k : Int, fc * n = k * fs + phaseIndex fc n fs) ∧
    Complex.exp (Complex.I * (2 * Real.pi * fc * n / fs)) =
      Complex.exp (Complex.I * (2 * Real.pi * (phaseIndex fc n fs : ℂ) / fs))) ∧
  (List.range 5).map (fun n => phaseIndex 1 n 4) = [0, 1, 2, 3, 0] ∧
  (List.range 5).map (fun n => phaseIndex (-1) n 4) = [0, 3, 2, 1, 0] ∧
  ∀ n, phaseIndex 0 n 4 = 0 ∧ phaseIndex 5 n 4 = phaseIndex 1 n 4 ∧ phaseIndex 4 n 4 = 0

/-- Properties T2 and T3 of `TRIG`: exact on quarter turns, finite and in [-1, 1] everywhere (40_numerics.md R136). -/
def Obligations.TrigProperties : Prop :=
  ∀ r m : Nat, r < m →
    (4 * r = 0 → cos2pi32 r m = .pat 0x3F800000 ∧ sin2pi32 r m = .pat 0x00000000) ∧
    (4 * r = m → cos2pi32 r m = .pat 0x00000000 ∧ sin2pi32 r m = .pat 0x3F800000) ∧
    (4 * r = 2 * m → cos2pi32 r m = .pat 0xBF800000 ∧ sin2pi32 r m = .pat 0x00000000) ∧
    (4 * r = 3 * m → cos2pi32 r m = .pat 0x00000000 ∧ sin2pi32 r m = .pat 0xBF800000) ∧
    (∃ x : ℚ, Fp.rat? (cos2pi32 r m) = some x ∧ -1 ≤ x ∧ x ≤ 1) ∧
    (∃ x : ℚ, Fp.rat? (sin2pi32 r m) = some x ∧ -1 ≤ x ∧ x ≤ 1)

/-- Properties A2 and A3 of `ATAN2`: the range, NaN operands, and the values on the axes and at zero (40_numerics.md
R139). -/
def Obligations.AtanProperties : Prop :=
  (∀ y x : F32, y.Specified → x.Specified → y.IsNaN ∨ x.IsNaN → atan2F y x = .nan) ∧
  ∀ y x : BitVec 32,
    (isNaNBits y = false → isNaNBits x = false →
      ∃ c, atan2F (.pat y) (.pat x) = .pat c ∧ isNaNBits c = false ∧ magOf c ≤ 0x40490FDB) ∧
    (isZeroBits y = true → isFiniteBits x = true → signOf x = false →
      atan2F (.pat y) (.pat x) = .pat (packFp 32 (signOf y) 0)) ∧
    (isZeroBits y = true → isFiniteBits x = true → signOf x = true →
      atan2F (.pat y) (.pat x) = .pat (packFp 32 (signOf y) 0x40490FDB)) ∧
    (isFiniteBits y = true → isZeroBits y = false → isZeroBits x = true →
      atan2F (.pat y) (.pat x) = .pat (packFp 32 (signOf y) 0x3FC90FDB))

/-- Complex multiplication is four rounded products, one rounded difference and one rounded sum, for all operands;
multiplying by `(1, +0)` gives a sample with finite parts other than zero back (40_numerics.md R134). -/
def Obligations.CmulByOne : Prop :=
  (∀ a w : Cx, cmul32 a w =
    ⟨Fp.sub (Fp.mul a.re w.re) (Fp.mul a.im w.im), Fp.add (Fp.mul a.re w.im) (Fp.mul a.im w.re)⟩) ∧
  ∀ a b : BitVec 32, isFiniteBits a = true → isZeroBits a = false → isFiniteBits b = true → isZeroBits b = false →
    cmul32 ⟨.pat a, .pat b⟩ ⟨.pat 0x3F800000, .pat 0x00000000⟩ = ⟨.pat a, .pat b⟩

/-- The FM scale constant is the narrowed binary64 quotient of `fs` and `K64 · fmdev` (40_numerics.md R140, R133), and a
positive normal number for all 32-bit operands other than zero. -/
def Obligations.FmscalePositiveNormal : Prop :=
  (∀ fs fmdev : Nat, fmscale fs fmdev =
    narrow32 (Fp.div (u2d fs) (Fp.mul (.pat 0x4021C5831ADD62E4) (u2d fmdev)))) ∧
  ∀ fs fmdev : Nat, 1 ≤ fs → fs < 2 ^ 32 → 1 ≤ fmdev → fmdev < 2 ^ 32 →
    ∃ c, fmscale fs fmdev = .pat c ∧ signOf c = false ∧ 0x00800000 ≤ magOf c ∧ magOf c < 0x7F800000

/-! ### The units -/

/-- The filter sum runs over the taps in ascending index from `+0`, with `+0` before the first sample, and complex
samples are filtered part by part (41_fir.md R161, R163, R164). A sequence of type `CS` or `RS` is filtered with the taps
narrowed once, one of type `RD` with the taps as stored; type and rate are kept (41_fir.md R163; 40_numerics.md R141). -/
def Obligations.FirSumInOrder : Prop :=
  (∀ (w : Nat) (h x : List (Fp w)),
    (firSeq h x).length = x.length ∧ (∀ n < x.length, (firSeq h x)[n]? = some (firAt h x n)) ∧
    ∀ (n : Nat) (c : Fp w), firAt [] x n = .pat (packFp w false 0) ∧
      (n < h.length → firAt (h ++ [c]) x n = Fp.add (firAt h x n) (Fp.mul c (.pat (packFp w false 0)))) ∧
      (∀ v : Fp w, h.length ≤ n → x[n - h.length]? = some v →
        firAt (h ++ [c]) x n = Fp.add (firAt h x n) (Fp.mul c v))) ∧
  (∀ (h : List F32) (x : List Cx),
    (firCx h x).map Cx.re = firSeq h (x.map Cx.re) ∧ (firCx h x).map Cx.im = firSeq h (x.map Cx.im)) ∧
  ∀ (h : List F64) (fs : Word),
    (∀ x : List Cx, ∃ y : List Cx, filterSeq h ⟨fs, .cs x⟩ = ⟨fs, .cs y⟩ ∧
      y.map Cx.re = firSeq (h.map narrow32) (x.map Cx.re) ∧ y.map Cx.im = firSeq (h.map narrow32) (x.map Cx.im)) ∧
    (∀ x : List F32, filterSeq h ⟨fs, .rs x⟩ = ⟨fs, .rs (firSeq (h.map narrow32) x)⟩) ∧
    ∀ x : List F64, filterSeq h ⟨fs, .rd x⟩ = ⟨fs, .rd (firSeq h x)⟩

/-- No filtered sample is -0, whatever the taps and samples (41_fir.md R164). -/
def Obligations.FirNeverNegativeZero : Prop :=
  ∀ w : Nat, w = 32 ∨ w = 64 → ∀ h x : List (Fp w), ∀ v ∈ firSeq h x, v ≠ .pat (packFp w true 0)

/-- Causality: output `n` depends on samples 0 to `n` only, and with finite taps on taps 0 to `n` only (41_fir.md
R164). -/
def Obligations.FirCausal : Prop :=
  ∀ w : Nat, w = 32 ∨ w = 64 → ∀ (h x x' : List (Fp w)) (n : Nat), n < x.length → n < x'.length →
    x.take (n + 1) = x'.take (n + 1) →
    firAt h x n = firAt h x' n ∧
      ((∀ c ∈ h, ∃ b, c = .pat b ∧ isFiniteBits b = true) → firAt h x n = firAt (h.take (n + 1)) x n)

/-- The bit-level filter pass equals the ideal convolution when every product and partial sum is exactly representable
(41_fir.md R162). -/
def Obligations.FirMeetsIdeal : Prop :=
  ∀ w : Nat, w = 32 ∨ w = 64 → ∀ (h x : List (Fp w)) (hr xr : List ℚ),
    h.map Fp.rat? = hr.map some → x.map Fp.rat? = xr.map some → (∀ n < xr.length, FirExactAt w hr xr n) →
    ∃ yr : List ℚ, (firSeq h x).map Fp.rat? = yr.map some ∧ IdealFir hr xr yr

/-- The multiplier of a sample is the cosine and sine at the phase index; it depends on `fc · n` modulo the rate only, and is
`(1, +0)` where that is 0 (42_translate.md R172, R174, R170). -/
def Obligations.MultiplierPeriodic : Prop :=
  (∀ (fc : Int) (fs n : Nat), carrierAt fc fs n =
    ⟨cos2pi32 (fc * (n : Int) % (fs : Int)).toNat fs, sin2pi32 (fc * (n : Int) % (fs : Int)).toNat fs⟩) ∧
  ∀ (fc fc' : Int) (n n' fs : Nat), 1 ≤ fs →
    ((fs : Int) ∣ fc * n - fc' * n' → carrierAt fc fs n = carrierAt fc' fs n') ∧
    ((fs : Int) ∣ fc * n → carrierAt fc fs n = ⟨.pat 0x3F800000, .pat 0x00000000⟩)

/-- If `TRIG` is accurate to `err` (property T4), the multiplier of every sample is within `err` of the exact
exponential `exp(i·2π·fc·n/fs)` in each part (42_translate.md R172, R173; 40_numerics.md R136). -/
def Obligations.MultiplierAccurate : Prop :=
  ∀ (err : ℝ) (fc : Int) (n fs : Nat), TrigAccurate err → 1 ≤ fs →
    ∃ c v : ℚ, Fp.rat? (carrierAt fc fs n).re = some c ∧ Fp.rat? (carrierAt fc fs n).im = some v ∧
      |(c : ℝ) - (Complex.exp (Complex.I * (2 * Real.pi * fc * n / fs))).re| ≤ err ∧
      |(v : ℝ) - (Complex.exp (Complex.I * (2 * Real.pi * fc * n / fs))).im| ≤ err

/-- A squared magnitude is never negative, never -0, and no pattern of it is NaN (44_detectors.md R191; 45_demodulators.md
R202). -/
def Obligations.SqMagNeverNegative : Prop :=
  (∀ (z : Cx) (c : BitVec 32), Fp.add (Fp.mul z.re z.re) (Fp.mul z.im z.im) = .pat c → signOf c = false ∧ isNaNBits c = false) ∧
  ∀ w : Nat, w = 32 ∨ w = 64 → ∀ (v : Fp w) (c : BitVec w), Fp.mul v v = .pat c →
    signOf c = false ∧ isNaNBits c = false

/-- A constant sequence of samples that are not NaN discriminates to `+0` throughout (44_detectors.md R193). -/
def Obligations.ConstantDiscriminatesToZero : Prop :=
  ∀ (re im : BitVec 32) (fs fmdev k : Nat), isNaNBits re = false → isNaNBits im = false → 1 ≤ fs → fs < 2 ^ 32 →
    1 ≤ fmdev → fmdev < 2 ^ 32 →
    discriminateCx (fmscale fs fmdev) (List.replicate (k + 1) ⟨.pat re, .pat im⟩) =
      List.replicate k (.pat 0x00000000)

/-- The corrected phase difference is the later angle less the earlier, less or plus one turn where that is strictly beyond
`PI32` or `neg_F32(PI32)`; of two angles in [-PI32, PI32] it lies in that range (44_detectors.md R195, R196). -/
def Obligations.WrappedDifferenceInRange : Prop :=
  (∀ next prev : F32, wrappedDiff next prev =
    let d := Fp.sub next prev
    if Fp.gt d (.pat 0x40490FDB) then Fp.sub d (.pat 0x40C90FDB)
    else if Fp.lt d (Fp.neg (.pat 0x40490FDB)) then Fp.add d (.pat 0x40C90FDB)
    else d) ∧
  ∀ a b : BitVec 32, magOf a ≤ 0x40490FDB → magOf b ≤ 0x40490FDB →
    ∃ d, wrappedDiff (.pat a) (.pat b) = .pat d ∧ magOf d ≤ 0x40490FDB

/-! ### The host port -/

/-- `ID` reads 0x52444501 in every state, and a write to it does nothing (10_state.md R27). -/
def Obligations.IdConstant : Prop :=
  ∀ s : State, (State.hostRead 32 0x00000000 s).port = .data 0x52444501 ∧
    ∀ v : Word, State.hostWrite 32 0x00000000 v s = { s with port := .written }

/-- A transaction that is misaligned, not 32 bits wide or unmapped gets a bus error and changes nothing
(46_system_and_host.md R225; 20_memory.md R66, R70). -/
def Obligations.BusErrorChangesNothing : Prop :=
  ∀ (s : State) (bits : Nat) (a v : Word),
    (bits ≠ 32 ∨ a.toNat % 4 ≠ 0 ∨
      (0xFFF < a.toNat ∧
        (∀ b : BankIx, ¬(0x10000 + 0x8000 * b.val ≤ a.toNat ∧ a.toNat < 0x10000 + 0x8000 * b.val + 8 * s.params.maxTaps)) ∧
        ∀ j : BufIx, ¬(0x10000000 + 0x8000000 * j.val ≤ a.toNat ∧
          a.toNat < 0x10000000 + 0x8000000 * j.val + 8 * s.params.maxLen))) →
    State.hostRead bits a s = { s with port := .busError } ∧ State.hostWrite bits a v s = { s with port := .busError }

/-- A word written to tap or sample memory with `BUSY = 0` lies there little-endian, is read back, and no other byte
changes; whoever wrote it, a word read with `BUSY = 0` has in each place the byte that memory holds there, and so is `v`
where the four bytes are those of `v` (46_system_and_host.md R222, R223; 20_memory.md R60). The banks and buffers lie where
20_memory.md R70 says. The draw counter of the read is the model's (log 5). -/
def Obligations.MemoryWordWritten : Prop :=
  (∀ (s : State) (a v : Word), s.busy = false → a.toNat % 4 = 0 →
    (InTapBank s.params a.toNat ∨ InSampleBuffer s.params a.toNat) →
    (let t := State.hostWrite 32 a v s
     t = { s with mem := t.mem, port := .written } ∧
      (∀ k < 4, Memory.read t.mem (a.toNat + k) = some (v.extractLsb' (8 * k) 8)) ∧
      (∀ x, ¬(a.toNat ≤ x ∧ x < a.toNat + 4) → Memory.read t.mem x = Memory.read s.mem x) ∧
      (State.hostRead 32 a t).port = .data v) ∧
    ((∀ k < 4, Memory.read s.mem (a.toNat + k) = some (v.extractLsb' (8 * k) 8)) →
      State.hostRead 32 a s = { s with port := .data v, draws := s.draws + 1 }) ∧
    ∃ w : Word, State.hostRead 32 a s = { s with port := .data w, draws := s.draws + 1 } ∧
      ∀ k < 4, ∀ b : Byte, Memory.read s.mem (a.toNat + k) = some b → w.extractLsb' (8 * k) 8 = b) ∧
  ∀ p : Params,
    (∀ b : BankIx, tapAddr b = 0x10000 + 0x8000 * b.val ∧ tapEnd p b = 0x10000 + 0x8000 * b.val + 8 * p.maxTaps) ∧
    ∀ j : BufIx,
      bufAddr j = 0x10000000 + 0x8000000 * j.val ∧ bufEnd p j = 0x10000000 + 0x8000000 * j.val + 8 * p.maxLen

/-- `IEN` holds what was written to it at any time, and a write of `ID`, `ERRINFO` or a reserved word changes nothing, `OVR`
included; with `BUSY = 0` every parameter register, descriptor register and tap count holds what was written to it, and
nothing else changes (46_system_and_host.md R222, R223; 10_state.md R21, R23, R29). -/
def Obligations.RegisterWordWritten : Prop :=
  ∀ (s : State) (v : Word),
    State.hostWrite 32 0x008 v s = { s with doneIE := v.getLsbD 1, errIE := v.getLsbD 2, port := .written } ∧
    (∀ a : Word, readOnlyOffset a.toNat = true → State.hostWrite 32 a v s = { s with port := .written }) ∧
    (s.busy = false →
      State.hostWrite 32 0x014 v s = { s with fc := v, port := .written } ∧
      State.hostWrite 32 0x018 v s = { s with fsout := v, port := .written } ∧
      State.hostWrite 32 0x01C v s = { s with fcutoff := v, port := .written } ∧
      State.hostWrite 32 0x020 v s = { s with frumble := v, port := .written } ∧
      State.hostWrite 32 0x024 v s = { s with fmdev := v, port := .written } ∧
      (∀ j : BufIx,
        (let t := State.hostWrite 32 (BitVec.ofNat 32 (0x040 + 0x10 * j.val)) v s
         t = { s with bd := t.bd, port := .written } ∧
            t.desc j = { s.desc j with valid := v.getLsbD 0, type := v.extractLsb' 1 2 } ∧
            ∀ k, k ≠ j → t.desc k = s.desc k) ∧
        (let t := State.hostWrite 32 (BitVec.ofNat 32 (0x044 + 0x10 * j.val)) v s
         t = { s with bd := t.bd, port := .written } ∧ t.desc j = { s.desc j with len := v } ∧
            ∀ k, k ≠ j → t.desc k = s.desc k) ∧
        (let t := State.hostWrite 32 (BitVec.ofNat 32 (0x048 + 0x10 * j.val)) v s
         t = { s with bd := t.bd, port := .written } ∧ t.desc j = { s.desc j with fs := v } ∧
            ∀ k, k ≠ j → t.desc k = s.desc k)) ∧
      ∀ b : BankIx,
        let t := State.hostWrite 32 (BitVec.ofNat 32 (0x080 + 4 * b.val)) v s
        t = { s with ntaps := t.ntaps, port := .written } ∧ t.tapCount b = v ∧ ∀ c, c ≠ b → t.tapCount c = s.tapCount c)

/-- While a command runs, a host write to `CMD`, a parameter register, a descriptor, a tap count or memory only sets
`OVR`; `STATUS` and `IEN` are written; `ID`, `ERRINFO` and reserved words are ignored; registers read their current
values (each by `RegisterWordRead`); a memory word reads as an unspecified value (20_memory.md R74). That this value is
`Config.freeWord` of the draw counter, and that the counter advances, is the model's choice (log 5, 12). -/
def Obligations.BusyOwnership : Prop :=
  ∀ (s : State) (a v : Word), s.busy = true → a.toNat % 4 = 0 →
    (a.toNat ≤ 0xFFF ∨ InTapBank s.params a.toNat ∨ InSampleBuffer s.params a.toNat) →
    (a.toNat ≤ 0xFFF →
      State.hostRead 32 a s = { s with port := .data (s.regValue (regAt a.toNat)) } ∧
      State.hostWrite 32 a v s =
        if a = 0x004 then { s.writeStatus v with port := .written }
        else if a = 0x008 then { s with doneIE := v.getLsbD 1, errIE := v.getLsbD 2, port := .written }
        else if readOnlyOffset a.toNat then { s with port := .written }
        else { s with ovr := true, port := .written }) ∧
    (0xFFF < a.toNat →
      State.hostRead 32 a s = { s with port := .data (Config.freeWord s.draws), draws := s.draws + 1 } ∧
      State.hostWrite 32 a v s = { s with ovr := true, port := .written })

/-- A write of `CMD` is accepted, whatever the word, exactly when `BUSY = 0` and `ERR = 0`, otherwise it is dropped and
`OVR` set; the complete step runs the latched command, or error entry for an illegal word, then clears `BUSY` and sets
`DONE` (30_encoding.md R91). -/
def Obligations.CommandIssueAndCompletion : Prop :=
  (∀ (s : State) (w : Word), State.hostWrite 32 0x00C w s =
    if s.busy = true ∨ s.err = true then { s with ovr := true, port := .written }
    else { s with cmd := w, errinfo := 0, done := false, busy := true, port := .written }) ∧
  ∀ s : State, s.busy = true → s.schedule = [] →
    match decode s.cmd with
    | .ok i => ∃ t, exec i s = .next t ∧ step s = .next { t with busy := false, done := true }
    | .error _ => step s = .next { s with errinfo := 0x00000101, err := true, busy := false, done := true }

/-- A write to `STATUS` clears each of `DONE`, `ERR`, `OVR` whose bit is 1 and changes nothing else, whatever `BUSY` is;
`STATUS` then reads as the flags say (10_state.md R22). -/
def Obligations.StatusWrittenOneToClear : Prop :=
  ∀ (s : State) (v : Word),
    State.hostWrite 32 0x004 v s =
      { s with
        done := if v.getLsbD 1 then false else s.done
        err := if v.getLsbD 2 then false else s.err
        ovr := if v.getLsbD 3 then false else s.ovr
        port := .written } ∧
    ∃ w, (State.hostRead 32 0x004 s).port = .data w ∧
      ∀ k < 32, w.getLsbD k = if k = 0 then s.busy else if k = 1 then s.done else if k = 2 then s.err
        else if k = 3 then s.ovr else false

/-- Return from an error: writing bit 2 of `STATUS` clears `ERR` alone, nothing is restored or run again, and with
`BUSY = 0` a command is then accepted (60_exceptions.md R252). -/
def Obligations.ReturnFromError : Prop :=
  ∀ s : State,
    State.hostWrite 32 0x004 0x00000004 s = { s with err := false, port := .written } ∧
    ∀ w : Word, s.busy = false → State.hostWrite 32 0x00C w (State.hostWrite 32 0x004 0x00000004 s) =
      { s with err := false, cmd := w, errinfo := 0, done := false, busy := true, port := .written }

/-- `irq` is the enabled part of `DONE` and `ERR`, as the words of `STATUS` and `IEN` show it (60_exceptions.md R260). -/
def Obligations.IrqRule : Prop :=
  ∀ s : State, (s.irq = true ↔ (s.done = true ∧ s.doneIE = true) ∨ (s.err = true ∧ s.errIE = true)) ∧
    (s.irq = true ↔ s.statusWord &&& s.ienWord ≠ 0#32)

/-- Reset, in any state, a running command abandoned: every register, descriptor and flag takes its reset value, every
byte of memory is unspecified, `irq` is 0, and the engine is idle (10_state.md R40; 70_reset_and_hazards.md R280, R281). -/
def Obligations.ResetValues : Prop :=
  ∀ (s : State) (rest : List Turn), s.schedule = .host .reset :: rest →
    ∃ t, step s = .next t ∧ t.busy = false ∧ t.done = false ∧ t.err = false ∧ t.ovr = false ∧ t.doneIE = false ∧
      t.errIE = false ∧ t.cmd = 0 ∧ t.errinfo = 0 ∧ t.fc = 0 ∧ t.fsout = 0 ∧ t.fcutoff = 10000 ∧ t.frumble = 0 ∧
      t.fmdev = 75000 ∧ (∀ j, t.desc j = ⟨false, 0, 0, 0⟩) ∧ (∀ b, t.tapCount b = 0) ∧
      (∀ a, Memory.read t.mem a = none) ∧ t.irq = false ∧ t.id = 0x52444501 ∧ (rest = [] → step t = .next t)

/-- Each register address reads as the register it names, a reserved word as 0, whatever `BUSY` is, and no read, of any
width, address or outcome, changes a piece of the spec's state (46_system_and_host.md R222; 10_state.md R21, R29;
20_memory.md R68). The response and the draw counter are the model's fields (log 3, 5). -/
def Obligations.RegisterWordRead : Prop :=
  ∀ s : State,
    State.hostRead 32 0x000 s = { s with port := .data 0x52444501 } ∧
    State.hostRead 32 0x004 s = { s with
      port := .data (BitVec.ofNat 32 (s.busy.toNat + 2 * s.done.toNat + 4 * s.err.toNat + 8 * s.ovr.toNat)) } ∧
    State.hostRead 32 0x008 s = { s with port := .data (BitVec.ofNat 32 (2 * s.doneIE.toNat + 4 * s.errIE.toNat)) } ∧
    State.hostRead 32 0x00C s = { s with port := .data s.cmd } ∧
    State.hostRead 32 0x010 s = { s with port := .data s.errinfo } ∧
    State.hostRead 32 0x014 s = { s with port := .data s.fc } ∧
    State.hostRead 32 0x018 s = { s with port := .data s.fsout } ∧
    State.hostRead 32 0x01C s = { s with port := .data s.fcutoff } ∧
    State.hostRead 32 0x020 s = { s with port := .data s.frumble } ∧
    State.hostRead 32 0x024 s = { s with port := .data s.fmdev } ∧
    (∀ j : BufIx,
      State.hostRead 32 (BitVec.ofNat 32 (0x040 + 0x10 * j.val)) s =
        { s with port := .data (BitVec.ofNat 32 ((s.desc j).valid.toNat + 2 * (s.desc j).type.toNat)) } ∧
      State.hostRead 32 (BitVec.ofNat 32 (0x044 + 0x10 * j.val)) s = { s with port := .data (s.desc j).len } ∧
      State.hostRead 32 (BitVec.ofNat 32 (0x048 + 0x10 * j.val)) s = { s with port := .data (s.desc j).fs }) ∧
    (∀ b : BankIx,
      State.hostRead 32 (BitVec.ofNat 32 (0x080 + 4 * b.val)) s = { s with port := .data (s.tapCount b) }) ∧
    (∀ a : Word, reservedOffset a.toNat = true → State.hostRead 32 a s = { s with port := .data 0 }) ∧
    ∀ (bits : Nat) (a : Word),
      State.hostRead bits a s =
        { s with port := (State.hostRead bits a s).port, draws := (State.hostRead bits a s).draws }
end

