-- ==== Sys2Proof/Laws/Memory.lean ====
section
/-! SUPPORT. What the memory operations do: what a read gives after each of them, and that each keeps the canonical
form `Memory.wf`. -/
namespace Sys2Proof.Machine

/-! ### The canonical form -/

theorem rising_iff_pairwise (m : Memory) : Memory.rising m = true ↔ m.Pairwise (fun c d => c.1 < d.1) := by
  induction m with
  | nil => simp [Memory.rising]
  | cons c t ih =>
    cases t with
    | nil => simp [Memory.rising]
    | cons d u =>
      simp only [Memory.rising, Bool.and_eq_true, decide_eq_true_eq, ih, List.pairwise_cons, List.mem_cons]
      constructor
      · rintro ⟨hcd, hd, hu⟩
        refine ⟨?_, hd, hu⟩
        rintro e (rfl | he)
        · exact hcd
        · exact hcd.trans (hd e he)
      · rintro ⟨hc, hd, hu⟩
        exact ⟨hc d (Or.inl rfl), hd, hu⟩

theorem wf_iff (p : Params) (m : Memory) :
    Memory.wf p m = true ↔
      m.Pairwise (fun c d => c.1 < d.1) ∧ ∀ c ∈ m, (inTap p c.1 || inBuf p c.1) = true := by
  simp [Memory.wf, rising_iff_pairwise, List.all_eq_true]

theorem wf_nil (p : Params) : Memory.wf p [] = true := rfl

/-! ### Reading -/

@[simp] theorem read_nil (a : Nat) : Memory.read [] a = none := rfl

theorem read_cons (c : Host.Cell) (m : Memory) (a : Nat) :
    Memory.read (c :: m) a = if a = c.1 then some c.2 else Memory.read m a := by
  obtain ⟨x, v⟩ := c
  unfold Memory.read
  rw [List.lookup_cons]
  by_cases h : a = x
  · simp [h]
  · rw [beq_false_of_ne h, if_neg h]

theorem read_append (m n : Memory) (a : Nat) :
    Memory.read (m ++ n) a = (Memory.read m a).or (Memory.read n a) := by
  induction m with
  | nil => simp
  | cons c t ih =>
    rw [List.cons_append, read_cons, read_cons, ih]
    split <;> simp

/-- Keeping the entries whose address satisfies `p` keeps exactly what those addresses read. -/
theorem read_filter (p : Nat → Bool) (m : Memory) (a : Nat) :
    Memory.read (m.filter fun c => p c.1) a = if p a then Memory.read m a else none := by
  induction m with
  | nil => simp
  | cons c t ih =>
    by_cases hc : p c.1 = true
    · rw [List.filter_cons, if_pos hc, read_cons, read_cons, ih]
      by_cases h : a = c.1
      · subst h; simp [hc]
      · simp [h]
    · rw [List.filter_cons, if_neg hc, ih, read_cons]
      by_cases h : a = c.1
      · subst h; simp [hc]
      · simp [h]

/-! ### One byte -/

theorem mem_write {a : Nat} {b : Byte} {m : Memory} {c : Host.Cell} (h : c ∈ Memory.write a b m) :
    c = (a, b) ∨ c ∈ m := by
  induction m with
  | nil => simpa [Memory.write] using h
  | cons d t ih =>
    obtain ⟨x, v⟩ := d
    simp only [Memory.write] at h
    split at h
    · simpa using h
    · split at h
      · rcases List.mem_cons.mp h with rfl | h
        · exact Or.inl rfl
        · exact Or.inr (List.mem_cons_of_mem _ h)
      · rcases List.mem_cons.mp h with rfl | h
        · exact Or.inr (List.mem_cons_self ..)
        · rcases ih h with rfl | h
          · exact Or.inl rfl
          · exact Or.inr (List.mem_cons_of_mem _ h)

/-- A byte write changes what its own address reads and nothing else. -/
theorem read_write (a : Nat) (b : Byte) (m : Memory) (x : Nat) :
    Memory.read (Memory.write a b m) x = if x = a then some b else Memory.read m x := by
  induction m with
  | nil => simp [Memory.write, read_cons]
  | cons d t ih =>
    obtain ⟨y, v⟩ := d
    simp only [Memory.write]
    split
    · rw [read_cons]
    · split
      · next h => subst h; rw [read_cons, read_cons]; split <;> simp_all
      · next h =>
        rw [read_cons, ih, read_cons]
        by_cases hy : x = y
        · subst hy; simp [Ne.symm h]
        · simp [hy]

theorem pairwise_write (a : Nat) (b : Byte) {m : Memory} (h : m.Pairwise (fun c d => c.1 < d.1)) :
    (Memory.write a b m).Pairwise (fun c d => c.1 < d.1) := by
  induction m with
  | nil => simp [Memory.write]
  | cons d t ih =>
    obtain ⟨y, v⟩ := d
    have ht := (List.pairwise_cons.mp h).2
    have hd := (List.pairwise_cons.mp h).1
    simp only [Memory.write]
    split
    · next hay =>
      refine List.pairwise_cons.mpr ⟨?_, h⟩
      intro e he
      rcases List.mem_cons.mp he with rfl | he
      · exact hay
      · exact Nat.lt_trans hay (hd e he)
    · split
      · next hay =>
        subst hay
        exact List.pairwise_cons.mpr ⟨hd, ht⟩
      · next h1 h2 =>
        refine List.pairwise_cons.mpr ⟨?_, ih ht⟩
        intro e he
        rcases mem_write he with rfl | he
        · show y < a
          omega
        · exact hd e he

theorem wf_write {p : Params} {m : Memory} (a : Nat) (b : Byte) (h : Memory.wf p m = true)
    (ha : (inTap p a || inBuf p a) = true) : Memory.wf p (Memory.write a b m) = true := by
  rw [wf_iff] at h ⊢
  refine ⟨pairwise_write a b h.1, ?_⟩
  intro c hc
  rcases mem_write hc with rfl | hc
  · exact ha
  · exact h.2 c hc

/-! ### One word -/

/-- A word write puts byte `k` of the word at `a + k` and changes nothing else (20_memory.md R60). -/
theorem read_writeWord (a : Nat) (v : Word) (m : Memory) (x : Nat) :
    Memory.read (Memory.writeWord a v m) x =
      if x < a ∨ a + 4 ≤ x then Memory.read m x else some (v.extractLsb' (8 * (x - a)) 8) := by
  simp only [Memory.writeWord, read_write]
  by_cases h3 : x = a + 3
  · subst h3; simp
  by_cases h2 : x = a + 2
  · subst h2; simp
  by_cases h1 : x = a + 1
  · subst h1; simp
  by_cases h0 : x = a
  · subst h0; simp
  simp only [h3, h2, h1, h0, if_false]
  rw [if_pos (by omega)]

theorem wf_writeWord {p : Params} {m : Memory} (a : Nat) (v : Word) (h : Memory.wf p m = true)
    (ha : ∀ k < 4, (inTap p (a + k) || inBuf p (a + k)) = true) : Memory.wf p (Memory.writeWord a v m) = true := by
  unfold Memory.writeWord
  exact wf_write _ _ (wf_write _ _ (wf_write _ _ (wf_write _ _ h (ha 0 (by omega))) (ha 1 (by omega)))
    (ha 2 (by omega))) (ha 3 (by omega))

/-- The four bytes of an aligned mapped memory word are mapped (20_memory.md R66, R70). -/
theorem word_mapped {p : Params} {a : Nat} (h4 : a % 4 = 0) (ha : (inTap p a || inBuf p a) = true) :
    ∀ k < 4, (inTap p (a + k) || inBuf p (a + k)) = true := by
  intro k hk
  simp only [inTap, inBuf, inTapB, inBufJ, Bool.or_eq_true, Bool.and_eq_true, decide_eq_true_eq] at ha ⊢
  simp only [tapAddr, tapEnd, bufAddr, bufEnd] at ha ⊢
  omega

/-! ### A block -/

theorem mem_cellsFrom {bytes : List MaybeByte} {lo : Nat} {c : Host.Cell} (h : c ∈ cellsFrom lo bytes) :
    lo ≤ c.1 ∧ c.1 < lo + bytes.length := by
  induction bytes generalizing lo with
  | nil => simp [cellsFrom] at h
  | cons b t ih =>
    cases b with
    | none =>
      have := ih h
      simp only [List.length_cons]; omega
    | some b =>
      rcases List.mem_cons.mp h with rfl | h
      · simp
      · have := ih h
        simp only [List.length_cons]; omega

theorem pairwise_cellsFrom (lo : Nat) (bytes : List MaybeByte) :
    (cellsFrom lo bytes).Pairwise (fun c d => c.1 < d.1) := by
  induction bytes generalizing lo with
  | nil => simp [cellsFrom]
  | cons b t ih =>
    cases b with
    | none => exact ih _
    | some b =>
      refine List.pairwise_cons.mpr ⟨?_, ih _⟩
      intro e he
      exact (mem_cellsFrom he).1

theorem read_cellsFrom (lo : Nat) (bytes : List MaybeByte) (a : Nat) :
    Memory.read (cellsFrom lo bytes) a = if lo ≤ a then (bytes[a - lo]?).join else none := by
  induction bytes generalizing lo with
  | nil => simp [cellsFrom]
  | cons b t ih =>
    have step : Memory.read (cellsFrom (lo + 1) t) a = if lo ≤ a ∧ a ≠ lo then ((b :: t)[a - lo]?).join else none := by
      rw [ih]
      by_cases h : lo + 1 ≤ a
      · have e : a - lo = (a - (lo + 1)) + 1 := by omega
        rw [if_pos h, if_pos (by omega), e, List.getElem?_cons_succ]
      · rw [if_neg h, if_neg (by omega)]
    cases b with
    | none =>
      simp only [cellsFrom]
      rw [step]
      by_cases h : a = lo
      · subst h; simp
      · simp [h]
    | some b =>
      simp only [cellsFrom]
      rw [read_cons, step]
      by_cases h : a = lo
      · subst h; simp
      · simp [h]

/-- What every address reads after a block write (20_memory.md R64): the block's bytes, then nothing specified up to
`hi`, and the old byte outside. -/
theorem read_fill {lo hi : Nat} {bytes : List MaybeByte} (hfit : lo + bytes.length ≤ hi) (m : Memory) (a : Nat) :
    Memory.read (Memory.fill lo hi bytes m) a =
      if lo ≤ a ∧ a < hi then (bytes[a - lo]?).join else Memory.read m a := by
  unfold Memory.fill
  rw [read_append, read_append, read_filter (fun x => decide (x < lo)), read_filter (fun x => decide (hi ≤ x)),
    read_cellsFrom]
  by_cases h1 : lo ≤ a
  · by_cases h2 : a < hi
    · simp [h1, h2, Nat.not_lt.mpr h1, Nat.not_le.mpr h2]
    · have hnone : bytes[a - lo]? = none := by
        rw [List.getElem?_eq_none_iff]; omega
      simp [h1, h2, Nat.not_lt.mpr h1, hnone, Nat.not_lt.mp h2]
  · have : ¬hi ≤ a := by omega
    simp [h1, this, Nat.not_le.mp h1]

theorem read_fill_outside {lo hi : Nat} {bytes : List MaybeByte} (hfit : lo + bytes.length ≤ hi) (m : Memory) {a : Nat}
    (ha : ¬(lo ≤ a ∧ a < hi)) : Memory.read (Memory.fill lo hi bytes m) a = Memory.read m a := by
  rw [read_fill hfit, if_neg ha]

/-- What every address reads after a block became unspecified (60_exceptions.md R250). -/
theorem read_forget {lo hi : Nat} (h : lo ≤ hi) (m : Memory) (a : Nat) :
    Memory.read (Memory.forget lo hi m) a = if lo ≤ a ∧ a < hi then none else Memory.read m a := by
  unfold Memory.forget
  rw [read_fill (by simpa using h)]
  simp

theorem pairwise_fill {lo hi : Nat} {bytes : List MaybeByte} (hfit : lo + bytes.length ≤ hi) {m : Memory}
    (h : m.Pairwise (fun c d => c.1 < d.1)) : (Memory.fill lo hi bytes m).Pairwise (fun c d => c.1 < d.1) := by
  unfold Memory.fill
  rw [List.pairwise_append, List.pairwise_append]
  refine ⟨⟨h.filter _, pairwise_cellsFrom lo bytes, ?_⟩, h.filter _, ?_⟩
  · intro c hc d hd
    have := (List.mem_filter.mp hc).2
    have hd := mem_cellsFrom hd
    simp only [decide_eq_true_eq] at this
    omega
  · intro c hc d hd
    have hd := (List.mem_filter.mp hd).2
    simp only [decide_eq_true_eq] at hd
    rcases List.mem_append.mp hc with hc | hc
    · have hc := (List.mem_filter.mp hc).2
      simp only [decide_eq_true_eq] at hc
      omega
    · have hc := mem_cellsFrom hc
      omega

theorem inBuf_of_inBufJ {p : Params} {j : BufIx} {a : Nat} (h : inBufJ p j a = true) : inBuf p a = true := by
  have hj : j = 0 ∨ j = 1 ∨ j = 2 ∨ j = 3 := by
    have := j.isLt
    simp only [Fin.ext_iff]
    simp
    omega
  rcases hj with rfl | rfl | rfl | rfl <;> simp [inBuf, h]

/-- Writing a block that fits the buffer keeps the canonical form. -/
theorem wf_fill {p : Params} {m : Memory} (j : BufIx) {bytes : List MaybeByte}
    (hfit : bytes.length ≤ 8 * p.maxLen) (h : Memory.wf p m = true) :
    Memory.wf p (Memory.fill (bufAddr j) (bufEnd p j) bytes m) = true := by
  have hf : bufAddr j + bytes.length ≤ bufEnd p j := by simp [bufEnd]; omega
  rw [wf_iff] at h ⊢
  refine ⟨pairwise_fill hf h.1, ?_⟩
  intro c hc
  unfold Memory.fill at hc
  rcases List.mem_append.mp hc with hc | hc
  · rcases List.mem_append.mp hc with hc | hc
    · exact h.2 c (List.mem_filter.mp hc).1
    · have hc := mem_cellsFrom hc
      have : inBufJ p j c.1 = true := by simp [inBufJ]; omega
      simp [inBuf_of_inBufJ this]
  · exact h.2 c (List.mem_filter.mp hc).1

theorem wf_forget {p : Params} {m : Memory} (j : BufIx) (h : Memory.wf p m = true) :
    Memory.wf p (Memory.forget (bufAddr j) (bufEnd p j) m) = true :=
  wf_fill j (by simp) h

end Sys2Proof.Machine
end

