-- ==== Sys2Proof/Laws/Sequences.lean ====
section
/-! SUPPORT. What the stage functions do to the length, the element type and the rate of a sequence (41_fir.md R164,
42_translate.md R174, 43_decimate.md R184, 44_detectors.md R196), and how many bytes a result has. -/
namespace Sys2Proof.Machine

/-! ### Element types -/

@[simp] theorem ofCode_code (t : ElemType) : ElemType.ofCode t.code = some t := by cases t <;> rfl

theorem ofCode_eq_some {c : BitVec 2} {t : ElemType} : ElemType.ofCode c = some t ↔ c = t.code := by
  cases t <;> revert c <;> decide

theorem ofCode_eq_none {c : BitVec 2} : ElemType.ofCode c = none ↔ c = 3 := by
  revert c; decide

theorem ElemType.size_le (t : ElemType) : t.size ≤ 8 := by cases t <;> decide

theorem ElemType.size_pos (t : ElemType) : 0 < t.size := by cases t <;> decide

/-! ### Lengths of lists of elements -/

@[simp] theorem firSeq_length {w : Nat} (h x : List (Fp w)) : (firSeq h x).length = x.length := by simp [firSeq]

@[simp] theorem firCx_length (h : List F32) (x : List Cx) : (firCx h x).length = x.length := by simp [firCx]

@[simp] theorem translateCx_length (fc : Int) (fs : Nat) (x : List Cx) : (translateCx fc fs x).length = x.length := by
  simp [translateCx]

@[simp] theorem discriminateCx_length (c : F32) (x : List Cx) : (discriminateCx c x).length = x.length - 1 := by
  simp [discriminateCx]

/-- An index below `ceil(L / D)` times `D` stays below `L` (40_numerics.md R151). -/
theorem mul_lt_of_lt_retained {m len d : Nat} (hd : 0 < d) (h : m < retained len d) : m * d < len := by
  unfold retained at h
  have := (Nat.le_div_iff_mul_le hd).mp h
  rw [Nat.succ_mul] at this
  omega

@[simp] theorem strideList_length {α : Type} {d : Nat} (hd : 0 < d) (z : List α) :
    (strideList d z).length = retained z.length d := by
  have key : ∀ k ≤ retained z.length d, ((List.range k).filterMap fun m => z[m * d]?).length = k := by
    intro k hk
    induction k with
    | zero => rfl
    | succ n ih =>
      have hn : n * d < z.length := mul_lt_of_lt_retained hd hk
      rw [List.range_succ, List.filterMap_append, List.length_append, ih (by omega)]
      simp [List.getElem?_eq_getElem hn]
  exact key _ le_rfl

/-- Element `m` of the decimated sequence is element `m · D` of the filtered one (43_decimate.md R184). -/
theorem strideList_getElem? {α : Type} {d : Nat} (hd : 0 < d) (z : List α) {m : Nat} (hm : m < retained z.length d) :
    (strideList d z)[m]? = z[m * d]? := by
  have key : ∀ k ≤ retained z.length d, ∀ m < k,
      ((List.range k).filterMap fun m => z[m * d]?)[m]? = z[m * d]? := by
    intro k hk
    induction k with
    | zero => intro m hm; omega
    | succ n ih =>
      intro m hm
      have hn : n * d < z.length := mul_lt_of_lt_retained hd hk
      have hlen : ((List.range n).filterMap fun m => z[m * d]?).length = n := by
        have : n ≤ retained z.length d := by omega
        clear ih hm hk
        induction n with
        | zero => rfl
        | succ p ihp =>
          have hp : p * d < z.length := by
            rw [Nat.succ_mul] at hn; omega
          rw [List.range_succ, List.filterMap_append, List.length_append, ihp hp (by omega)]
          simp [List.getElem?_eq_getElem hp]
      rw [List.range_succ, List.filterMap_append]
      by_cases h : m < n
      · rw [List.getElem?_append_left (by omega), ih (by omega) m h]
      · have : m = n := by omega
        subst this
        rw [List.getElem?_append_right (by omega), hlen]
        simp [List.getElem?_eq_getElem hn]
  exact key _ le_rfl m hm

/-- `1 ≤ M ≤ L` for `1 ≤ L` and `1 ≤ D` (40_numerics.md R151). -/
theorem retained_bounds {len d : Nat} (hl : 1 ≤ len) (hd : 1 ≤ d) : 1 ≤ retained len d ∧ retained len d ≤ len := by
  unfold retained
  constructor
  · exact (Nat.le_div_iff_mul_le hd).mpr (by omega)
  · apply Nat.div_le_of_le_mul
    obtain ⟨l, rfl⟩ := Nat.exists_eq_add_of_le hl
    obtain ⟨e, rfl⟩ := Nat.exists_eq_add_of_le hd
    have : (1 + e) * (1 + l) = 1 + e + l + e * l := by ring
    omega

/-! ### Samples -/

@[simp] theorem Samples.filter_length (h : List F64) (x : Samples) : (x.filter h).length = x.length := by
  cases x <;> simp [Samples.filter, Samples.length]

@[simp] theorem Samples.filter_type (h : List F64) (x : Samples) : (x.filter h).type = x.type := by cases x <;> rfl

@[simp] theorem Samples.reverse_length (x : Samples) : x.reverse.length = x.length := by
  cases x <;> simp [Samples.reverse, Samples.length]

@[simp] theorem Samples.reverse_type (x : Samples) : x.reverse.type = x.type := by cases x <;> rfl

@[simp] theorem Samples.stride_length {d : Nat} (hd : 0 < d) (x : Samples) :
    (x.stride d).length = retained x.length d := by
  cases x <;> simp [Samples.stride, Samples.length, hd]

@[simp] theorem Samples.stride_type (d : Nat) (x : Samples) : (x.stride d).type = x.type := by cases x <;> rfl

@[simp] theorem Samples.sqMag_length (x : Samples) : x.sqMag.length = x.length := by
  cases x <;> simp [Samples.sqMag, Samples.length]

@[simp] theorem Samples.sqMag_type (x : Samples) : x.sqMag.type = x.type.real := by cases x <;> rfl

@[simp] theorem State.samples_length (s : State) (j : BufIx) (t : ElemType) (n : Nat) :
    (s.samples j t n).length = n := by
  cases t <;> simp [State.samples, Samples.length]

@[simp] theorem State.samples_type (s : State) (j : BufIx) (t : ElemType) (n : Nat) : (s.samples j t n).type = t := by
  cases t <;> rfl

/-! ### Sequences -/

@[simp] theorem filterSeq_fs (h : List F64) (q : SampleSeq) : (filterSeq h q).fs = q.fs := rfl

@[simp] theorem filterSeq_length (h : List F64) (q : SampleSeq) :
    (filterSeq h q).data.length = q.data.length := by simp [filterSeq]

@[simp] theorem filterSeq_type (h : List F64) (q : SampleSeq) : (filterSeq h q).data.type = q.data.type := by
  simp [filterSeq]

@[simp] theorem zeroPhase_fs (h : List F64) (q : SampleSeq) : (zeroPhase h q).fs = q.fs := rfl

@[simp] theorem zeroPhase_length (h : List F64) (q : SampleSeq) :
    (zeroPhase h q).data.length = q.data.length := by simp [zeroPhase, revSeq]

@[simp] theorem zeroPhase_type (h : List F64) (q : SampleSeq) : (zeroPhase h q).data.type = q.data.type := by
  simp [zeroPhase, revSeq]

@[simp] theorem sqMagSeq_fs (q : SampleSeq) : (sqMagSeq q).fs = q.fs := rfl

@[simp] theorem sqMagSeq_length (q : SampleSeq) : (sqMagSeq q).data.length = q.data.length := by simp [sqMagSeq]

@[simp] theorem sqMagSeq_type (q : SampleSeq) : (sqMagSeq q).data.type = q.data.type.real := by simp [sqMagSeq]

/-- An absent carrier leaves every sequence alone (42_translate.md R171). -/
@[simp] theorem translate_none (q : SampleSeq) : translate none q = q := rfl

@[simp] theorem translate_fs (fc : Option Int) (q : SampleSeq) : (translate fc q).fs = q.fs := by
  obtain ⟨fs, x⟩ := q
  cases fc <;> cases x <;> rfl

@[simp] theorem translate_length (fc : Option Int) (q : SampleSeq) :
    (translate fc q).data.length = q.data.length := by
  obtain ⟨fs, x⟩ := q
  cases fc <;> cases x <;> simp [translate, Samples.length]

@[simp] theorem translate_type (fc : Option Int) (q : SampleSeq) : (translate fc q).data.type = q.data.type := by
  obtain ⟨fs, x⟩ := q
  cases fc <;> cases x <;> rfl

@[simp] theorem discriminate_fs (v : Word) (q : SampleSeq) : (discriminate v q).fs = q.fs := by
  obtain ⟨fs, x⟩ := q
  cases x <;> rfl

/-- On complex samples the discriminator gives binary32 samples, one fewer (44_detectors.md R196). -/
theorem discriminate_shape (v : Word) {q : SampleSeq} (h : q.data.type = .cs) :
    (discriminate v q).data.type = .rs ∧ (discriminate v q).data.length = q.data.length - 1 := by
  obtain ⟨fs, x⟩ := q
  cases x with
  | cs x => exact ⟨rfl, by simp [discriminate, Samples.length]⟩
  | rs x => exact absurd h (by simp [Samples.type])
  | rd x => exact absurd h (by simp [Samples.type])

@[simp] theorem State.srcSeq_fs (s : State) (j : BufIx) (t : ElemType) : (s.srcSeq j t).fs = (s.desc j).fs := rfl

@[simp] theorem State.srcSeq_length (s : State) (j : BufIx) (t : ElemType) :
    (s.srcSeq j t).data.length = (s.desc j).len.toNat := by simp [State.srcSeq]

@[simp] theorem State.srcSeq_type (s : State) (j : BufIx) (t : ElemType) : (s.srcSeq j t).data.type = t := by
  simp [State.srcSeq]

@[simp] theorem State.taps_length (s : State) (b : BankIx) : (s.taps b).length = (s.tapCount b).toNat := by
  simp [State.taps]

/-! ### Bytes -/

@[simp] theorem Fp.toBytes_length {w : Nat} (d k : Nat) (v : Fp w) : (Fp.toBytes d k v).length = w / 8 := by
  simp [Fp.toBytes]

@[simp] theorem Memory.readBytes_length (m : Memory) (a n : Nat) : (m.readBytes a n).length = n := by
  simp [Memory.readBytes]

theorem flatMap_length_const {α β : Type} {f : α → List β} {c : Nat} (hf : ∀ a, (f a).length = c) (l : List α) :
    (l.flatMap f).length = l.length * c := by
  induction l with
  | nil => simp
  | cons a t ih => simp [ih, hf, Nat.succ_mul, Nat.add_comm]

/-- In a concatenation of pieces of one length `c`, entry `c·n + i` is entry `i` of piece `n`. -/
theorem flatMap_getElem?_const {α β : Type} {f : α → List β} {c : Nat} (hf : ∀ a, (f a).length = c) (l : List α)
    (n : Nat) {i : Nat} (hi : i < c) : (l.flatMap f)[c * n + i]? = (l[n]?).bind fun a => (f a)[i]? := by
  induction l generalizing n with
  | nil => simp
  | cons a t ih =>
    cases n with
    | zero =>
      simp only [List.flatMap_cons, Nat.mul_zero, Nat.zero_add, List.getElem?_cons_zero, Option.bind_some]
      rw [List.getElem?_append_left (by rw [hf]; exact hi)]
    | succ n =>
      simp only [List.flatMap_cons, List.getElem?_cons_succ]
      rw [List.getElem?_append_right (by rw [hf, Nat.mul_succ]; omega), hf, ← ih n]
      congr 1
      rw [Nat.mul_succ]; omega

/-- A result has `L · size(T)` bytes (20_memory.md R62, R64). -/
@[simp] theorem Samples.bytes_length (d : Nat) (x : Samples) : (x.bytes d).length = x.length * x.type.size := by
  cases x with
  | cs x =>
    simp only [Samples.bytes, Samples.length, Samples.type, ElemType.size]
    rw [flatMap_length_const (c := 8) (by simp), List.length_zipIdx]
  | rs x =>
    simp only [Samples.bytes, Samples.length, Samples.type, ElemType.size]
    rw [flatMap_length_const (c := 4) (by simp), List.length_zipIdx]
  | rd x =>
    simp only [Samples.bytes, Samples.length, Samples.type, ElemType.size]
    rw [flatMap_length_const (c := 8) (by simp), List.length_zipIdx]

/-- A result of at most `MAXLEN` elements fits its buffer (10_state.md R31). -/
theorem bytes_fit {p : Params} (d : Nat) {x : Samples} (h : x.length ≤ p.maxLen) :
    (x.bytes d).length ≤ 8 * p.maxLen := by
  rw [Samples.bytes_length]
  have := x.type.size_le
  nlinarith

end Sys2Proof.Machine
end

