-- ==== Sys2Proof/Laws/State.lean ====
section
/-! SUPPORT. One lemma per field per update of the state, so that no later proof unfolds a record update. The lemma
`<update>_<field>` says what the field is after the update. -/
namespace Sys2Proof.Machine


/-! ### `State.setDesc` -/

@[simp] theorem State.setDesc_busy (j : BufIx) (d : Desc) (s : State) : (s.setDesc j d).busy = s.busy := rfl
@[simp] theorem State.setDesc_done (j : BufIx) (d : Desc) (s : State) : (s.setDesc j d).done = s.done := rfl
@[simp] theorem State.setDesc_err (j : BufIx) (d : Desc) (s : State) : (s.setDesc j d).err = s.err := rfl
@[simp] theorem State.setDesc_ovr (j : BufIx) (d : Desc) (s : State) : (s.setDesc j d).ovr = s.ovr := rfl
@[simp] theorem State.setDesc_doneIE (j : BufIx) (d : Desc) (s : State) : (s.setDesc j d).doneIE = s.doneIE := rfl
@[simp] theorem State.setDesc_errIE (j : BufIx) (d : Desc) (s : State) : (s.setDesc j d).errIE = s.errIE := rfl
@[simp] theorem State.setDesc_cmd (j : BufIx) (d : Desc) (s : State) : (s.setDesc j d).cmd = s.cmd := rfl
@[simp] theorem State.setDesc_errinfo (j : BufIx) (d : Desc) (s : State) : (s.setDesc j d).errinfo = s.errinfo := rfl
@[simp] theorem State.setDesc_fc (j : BufIx) (d : Desc) (s : State) : (s.setDesc j d).fc = s.fc := rfl
@[simp] theorem State.setDesc_fsout (j : BufIx) (d : Desc) (s : State) : (s.setDesc j d).fsout = s.fsout := rfl
@[simp] theorem State.setDesc_fcutoff (j : BufIx) (d : Desc) (s : State) : (s.setDesc j d).fcutoff = s.fcutoff := rfl
@[simp] theorem State.setDesc_frumble (j : BufIx) (d : Desc) (s : State) : (s.setDesc j d).frumble = s.frumble := rfl
@[simp] theorem State.setDesc_fmdev (j : BufIx) (d : Desc) (s : State) : (s.setDesc j d).fmdev = s.fmdev := rfl
@[simp] theorem State.setDesc_bd (j : BufIx) (d : Desc) (s : State) : (s.setDesc j d).bd = s.bd.set j.val d := rfl
@[simp] theorem State.setDesc_ntaps (j : BufIx) (d : Desc) (s : State) : (s.setDesc j d).ntaps = s.ntaps := rfl
@[simp] theorem State.setDesc_mem (j : BufIx) (d : Desc) (s : State) : (s.setDesc j d).mem = s.mem := rfl
@[simp] theorem State.setDesc_params (j : BufIx) (d : Desc) (s : State) : (s.setDesc j d).params = s.params := rfl
@[simp] theorem State.setDesc_schedule (j : BufIx) (d : Desc) (s : State) :
    (s.setDesc j d).schedule = s.schedule := rfl
@[simp] theorem State.setDesc_port (j : BufIx) (d : Desc) (s : State) : (s.setDesc j d).port = s.port := rfl
@[simp] theorem State.setDesc_draws (j : BufIx) (d : Desc) (s : State) : (s.setDesc j d).draws = s.draws := rfl

/-! ### `State.setTapCount` -/

@[simp] theorem State.setTapCount_busy (b : BankIx) (v : Word) (s : State) : (s.setTapCount b v).busy = s.busy := rfl
@[simp] theorem State.setTapCount_done (b : BankIx) (v : Word) (s : State) : (s.setTapCount b v).done = s.done := rfl
@[simp] theorem State.setTapCount_err (b : BankIx) (v : Word) (s : State) : (s.setTapCount b v).err = s.err := rfl
@[simp] theorem State.setTapCount_ovr (b : BankIx) (v : Word) (s : State) : (s.setTapCount b v).ovr = s.ovr := rfl
@[simp] theorem State.setTapCount_doneIE (b : BankIx) (v : Word) (s : State) :
    (s.setTapCount b v).doneIE = s.doneIE := rfl
@[simp] theorem State.setTapCount_errIE (b : BankIx) (v : Word) (s : State) :
    (s.setTapCount b v).errIE = s.errIE := rfl
@[simp] theorem State.setTapCount_cmd (b : BankIx) (v : Word) (s : State) : (s.setTapCount b v).cmd = s.cmd := rfl
@[simp] theorem State.setTapCount_errinfo (b : BankIx) (v : Word) (s : State) :
    (s.setTapCount b v).errinfo = s.errinfo := rfl
@[simp] theorem State.setTapCount_fc (b : BankIx) (v : Word) (s : State) : (s.setTapCount b v).fc = s.fc := rfl
@[simp] theorem State.setTapCount_fsout (b : BankIx) (v : Word) (s : State) :
    (s.setTapCount b v).fsout = s.fsout := rfl
@[simp] theorem State.setTapCount_fcutoff (b : BankIx) (v : Word) (s : State) :
    (s.setTapCount b v).fcutoff = s.fcutoff := rfl
@[simp] theorem State.setTapCount_frumble (b : BankIx) (v : Word) (s : State) :
    (s.setTapCount b v).frumble = s.frumble := rfl
@[simp] theorem State.setTapCount_fmdev (b : BankIx) (v : Word) (s : State) :
    (s.setTapCount b v).fmdev = s.fmdev := rfl
@[simp] theorem State.setTapCount_bd (b : BankIx) (v : Word) (s : State) : (s.setTapCount b v).bd = s.bd := rfl
@[simp] theorem State.setTapCount_ntaps (b : BankIx) (v : Word) (s : State) :
    (s.setTapCount b v).ntaps = s.ntaps.set b.val v := rfl
@[simp] theorem State.setTapCount_mem (b : BankIx) (v : Word) (s : State) : (s.setTapCount b v).mem = s.mem := rfl
@[simp] theorem State.setTapCount_params (b : BankIx) (v : Word) (s : State) :
    (s.setTapCount b v).params = s.params := rfl
@[simp] theorem State.setTapCount_schedule (b : BankIx) (v : Word) (s : State) :
    (s.setTapCount b v).schedule = s.schedule := rfl
@[simp] theorem State.setTapCount_port (b : BankIx) (v : Word) (s : State) : (s.setTapCount b v).port = s.port := rfl
@[simp] theorem State.setTapCount_draws (b : BankIx) (v : Word) (s : State) :
    (s.setTapCount b v).draws = s.draws := rfl

/-! ### `State.writeStatus` -/

@[simp] theorem State.writeStatus_busy (v : Word) (s : State) : (s.writeStatus v).busy = s.busy := rfl
@[simp] theorem State.writeStatus_done (v : Word) (s : State) :
    (s.writeStatus v).done = (s.done && !v.getLsbD 1) := rfl
@[simp] theorem State.writeStatus_err (v : Word) (s : State) : (s.writeStatus v).err = (s.err && !v.getLsbD 2) := rfl
@[simp] theorem State.writeStatus_ovr (v : Word) (s : State) : (s.writeStatus v).ovr = (s.ovr && !v.getLsbD 3) := rfl
@[simp] theorem State.writeStatus_doneIE (v : Word) (s : State) : (s.writeStatus v).doneIE = s.doneIE := rfl
@[simp] theorem State.writeStatus_errIE (v : Word) (s : State) : (s.writeStatus v).errIE = s.errIE := rfl
@[simp] theorem State.writeStatus_cmd (v : Word) (s : State) : (s.writeStatus v).cmd = s.cmd := rfl
@[simp] theorem State.writeStatus_errinfo (v : Word) (s : State) : (s.writeStatus v).errinfo = s.errinfo := rfl
@[simp] theorem State.writeStatus_fc (v : Word) (s : State) : (s.writeStatus v).fc = s.fc := rfl
@[simp] theorem State.writeStatus_fsout (v : Word) (s : State) : (s.writeStatus v).fsout = s.fsout := rfl
@[simp] theorem State.writeStatus_fcutoff (v : Word) (s : State) : (s.writeStatus v).fcutoff = s.fcutoff := rfl
@[simp] theorem State.writeStatus_frumble (v : Word) (s : State) : (s.writeStatus v).frumble = s.frumble := rfl
@[simp] theorem State.writeStatus_fmdev (v : Word) (s : State) : (s.writeStatus v).fmdev = s.fmdev := rfl
@[simp] theorem State.writeStatus_bd (v : Word) (s : State) : (s.writeStatus v).bd = s.bd := rfl
@[simp] theorem State.writeStatus_ntaps (v : Word) (s : State) : (s.writeStatus v).ntaps = s.ntaps := rfl
@[simp] theorem State.writeStatus_mem (v : Word) (s : State) : (s.writeStatus v).mem = s.mem := rfl
@[simp] theorem State.writeStatus_params (v : Word) (s : State) : (s.writeStatus v).params = s.params := rfl
@[simp] theorem State.writeStatus_schedule (v : Word) (s : State) : (s.writeStatus v).schedule = s.schedule := rfl
@[simp] theorem State.writeStatus_port (v : Word) (s : State) : (s.writeStatus v).port = s.port := rfl
@[simp] theorem State.writeStatus_draws (v : Word) (s : State) : (s.writeStatus v).draws = s.draws := rfl

/-! ### `State.writeIen` -/

@[simp] theorem State.writeIen_busy (v : Word) (s : State) : (s.writeIen v).busy = s.busy := rfl
@[simp] theorem State.writeIen_done (v : Word) (s : State) : (s.writeIen v).done = s.done := rfl
@[simp] theorem State.writeIen_err (v : Word) (s : State) : (s.writeIen v).err = s.err := rfl
@[simp] theorem State.writeIen_ovr (v : Word) (s : State) : (s.writeIen v).ovr = s.ovr := rfl
@[simp] theorem State.writeIen_doneIE (v : Word) (s : State) : (s.writeIen v).doneIE = v.getLsbD 1 := rfl
@[simp] theorem State.writeIen_errIE (v : Word) (s : State) : (s.writeIen v).errIE = v.getLsbD 2 := rfl
@[simp] theorem State.writeIen_cmd (v : Word) (s : State) : (s.writeIen v).cmd = s.cmd := rfl
@[simp] theorem State.writeIen_errinfo (v : Word) (s : State) : (s.writeIen v).errinfo = s.errinfo := rfl
@[simp] theorem State.writeIen_fc (v : Word) (s : State) : (s.writeIen v).fc = s.fc := rfl
@[simp] theorem State.writeIen_fsout (v : Word) (s : State) : (s.writeIen v).fsout = s.fsout := rfl
@[simp] theorem State.writeIen_fcutoff (v : Word) (s : State) : (s.writeIen v).fcutoff = s.fcutoff := rfl
@[simp] theorem State.writeIen_frumble (v : Word) (s : State) : (s.writeIen v).frumble = s.frumble := rfl
@[simp] theorem State.writeIen_fmdev (v : Word) (s : State) : (s.writeIen v).fmdev = s.fmdev := rfl
@[simp] theorem State.writeIen_bd (v : Word) (s : State) : (s.writeIen v).bd = s.bd := rfl
@[simp] theorem State.writeIen_ntaps (v : Word) (s : State) : (s.writeIen v).ntaps = s.ntaps := rfl
@[simp] theorem State.writeIen_mem (v : Word) (s : State) : (s.writeIen v).mem = s.mem := rfl
@[simp] theorem State.writeIen_params (v : Word) (s : State) : (s.writeIen v).params = s.params := rfl
@[simp] theorem State.writeIen_schedule (v : Word) (s : State) : (s.writeIen v).schedule = s.schedule := rfl
@[simp] theorem State.writeIen_port (v : Word) (s : State) : (s.writeIen v).port = s.port := rfl
@[simp] theorem State.writeIen_draws (v : Word) (s : State) : (s.writeIen v).draws = s.draws := rfl

/-! ### `State.setOvr` -/

@[simp] theorem State.setOvr_busy (s : State) : (s.setOvr).busy = s.busy := rfl
@[simp] theorem State.setOvr_done (s : State) : (s.setOvr).done = s.done := rfl
@[simp] theorem State.setOvr_err (s : State) : (s.setOvr).err = s.err := rfl
@[simp] theorem State.setOvr_ovr (s : State) : (s.setOvr).ovr = true := rfl
@[simp] theorem State.setOvr_doneIE (s : State) : (s.setOvr).doneIE = s.doneIE := rfl
@[simp] theorem State.setOvr_errIE (s : State) : (s.setOvr).errIE = s.errIE := rfl
@[simp] theorem State.setOvr_cmd (s : State) : (s.setOvr).cmd = s.cmd := rfl
@[simp] theorem State.setOvr_errinfo (s : State) : (s.setOvr).errinfo = s.errinfo := rfl
@[simp] theorem State.setOvr_fc (s : State) : (s.setOvr).fc = s.fc := rfl
@[simp] theorem State.setOvr_fsout (s : State) : (s.setOvr).fsout = s.fsout := rfl
@[simp] theorem State.setOvr_fcutoff (s : State) : (s.setOvr).fcutoff = s.fcutoff := rfl
@[simp] theorem State.setOvr_frumble (s : State) : (s.setOvr).frumble = s.frumble := rfl
@[simp] theorem State.setOvr_fmdev (s : State) : (s.setOvr).fmdev = s.fmdev := rfl
@[simp] theorem State.setOvr_bd (s : State) : (s.setOvr).bd = s.bd := rfl
@[simp] theorem State.setOvr_ntaps (s : State) : (s.setOvr).ntaps = s.ntaps := rfl
@[simp] theorem State.setOvr_mem (s : State) : (s.setOvr).mem = s.mem := rfl
@[simp] theorem State.setOvr_params (s : State) : (s.setOvr).params = s.params := rfl
@[simp] theorem State.setOvr_schedule (s : State) : (s.setOvr).schedule = s.schedule := rfl
@[simp] theorem State.setOvr_port (s : State) : (s.setOvr).port = s.port := rfl
@[simp] theorem State.setOvr_draws (s : State) : (s.setOvr).draws = s.draws := rfl

/-! ### `State.writeSeq` -/

@[simp] theorem State.writeSeq_busy (j : BufIx) (q : SampleSeq) (s : State) : (s.writeSeq j q).busy = s.busy := rfl
@[simp] theorem State.writeSeq_done (j : BufIx) (q : SampleSeq) (s : State) : (s.writeSeq j q).done = s.done := rfl
@[simp] theorem State.writeSeq_err (j : BufIx) (q : SampleSeq) (s : State) : (s.writeSeq j q).err = s.err := rfl
@[simp] theorem State.writeSeq_ovr (j : BufIx) (q : SampleSeq) (s : State) : (s.writeSeq j q).ovr = s.ovr := rfl
@[simp] theorem State.writeSeq_doneIE (j : BufIx) (q : SampleSeq) (s : State) :
    (s.writeSeq j q).doneIE = s.doneIE := rfl
@[simp] theorem State.writeSeq_errIE (j : BufIx) (q : SampleSeq) (s : State) : (s.writeSeq j q).errIE = s.errIE := rfl
@[simp] theorem State.writeSeq_cmd (j : BufIx) (q : SampleSeq) (s : State) : (s.writeSeq j q).cmd = s.cmd := rfl
@[simp] theorem State.writeSeq_errinfo (j : BufIx) (q : SampleSeq) (s : State) :
    (s.writeSeq j q).errinfo = s.errinfo := rfl
@[simp] theorem State.writeSeq_fc (j : BufIx) (q : SampleSeq) (s : State) : (s.writeSeq j q).fc = s.fc := rfl
@[simp] theorem State.writeSeq_fsout (j : BufIx) (q : SampleSeq) (s : State) : (s.writeSeq j q).fsout = s.fsout := rfl
@[simp] theorem State.writeSeq_fcutoff (j : BufIx) (q : SampleSeq) (s : State) :
    (s.writeSeq j q).fcutoff = s.fcutoff := rfl
@[simp] theorem State.writeSeq_frumble (j : BufIx) (q : SampleSeq) (s : State) :
    (s.writeSeq j q).frumble = s.frumble := rfl
@[simp] theorem State.writeSeq_fmdev (j : BufIx) (q : SampleSeq) (s : State) : (s.writeSeq j q).fmdev = s.fmdev := rfl
@[simp] theorem State.writeSeq_bd (j : BufIx) (q : SampleSeq) (s : State) :
    (s.writeSeq j q).bd = s.bd.set j.val ⟨true, q.data.type.code, BitVec.ofNat 32 q.data.length, q.fs⟩ := rfl
@[simp] theorem State.writeSeq_ntaps (j : BufIx) (q : SampleSeq) (s : State) : (s.writeSeq j q).ntaps = s.ntaps := rfl
@[simp] theorem State.writeSeq_mem (j : BufIx) (q : SampleSeq) (s : State) :
    (s.writeSeq j q).mem = Memory.fill (bufAddr j) (bufEnd s.params j) (q.data.bytes s.draws) s.mem := rfl
@[simp] theorem State.writeSeq_params (j : BufIx) (q : SampleSeq) (s : State) :
    (s.writeSeq j q).params = s.params := rfl
@[simp] theorem State.writeSeq_schedule (j : BufIx) (q : SampleSeq) (s : State) :
    (s.writeSeq j q).schedule = s.schedule := rfl
@[simp] theorem State.writeSeq_port (j : BufIx) (q : SampleSeq) (s : State) : (s.writeSeq j q).port = s.port := rfl
@[simp] theorem State.writeSeq_draws (j : BufIx) (q : SampleSeq) (s : State) :
    (s.writeSeq j q).draws = s.draws + 1 := rfl

/-! ### `State.withdraw` -/

@[simp] theorem State.withdraw_busy (j : BufIx) (s : State) : (s.withdraw j).busy = s.busy := rfl
@[simp] theorem State.withdraw_done (j : BufIx) (s : State) : (s.withdraw j).done = s.done := rfl
@[simp] theorem State.withdraw_err (j : BufIx) (s : State) : (s.withdraw j).err = s.err := rfl
@[simp] theorem State.withdraw_ovr (j : BufIx) (s : State) : (s.withdraw j).ovr = s.ovr := rfl
@[simp] theorem State.withdraw_doneIE (j : BufIx) (s : State) : (s.withdraw j).doneIE = s.doneIE := rfl
@[simp] theorem State.withdraw_errIE (j : BufIx) (s : State) : (s.withdraw j).errIE = s.errIE := rfl
@[simp] theorem State.withdraw_cmd (j : BufIx) (s : State) : (s.withdraw j).cmd = s.cmd := rfl
@[simp] theorem State.withdraw_errinfo (j : BufIx) (s : State) : (s.withdraw j).errinfo = s.errinfo := rfl
@[simp] theorem State.withdraw_fc (j : BufIx) (s : State) : (s.withdraw j).fc = s.fc := rfl
@[simp] theorem State.withdraw_fsout (j : BufIx) (s : State) : (s.withdraw j).fsout = s.fsout := rfl
@[simp] theorem State.withdraw_fcutoff (j : BufIx) (s : State) : (s.withdraw j).fcutoff = s.fcutoff := rfl
@[simp] theorem State.withdraw_frumble (j : BufIx) (s : State) : (s.withdraw j).frumble = s.frumble := rfl
@[simp] theorem State.withdraw_fmdev (j : BufIx) (s : State) : (s.withdraw j).fmdev = s.fmdev := rfl
@[simp] theorem State.withdraw_bd (j : BufIx) (s : State) :
    (s.withdraw j).bd = s.bd.set j.val { s.desc j with valid := false } := rfl
@[simp] theorem State.withdraw_ntaps (j : BufIx) (s : State) : (s.withdraw j).ntaps = s.ntaps := rfl
@[simp] theorem State.withdraw_mem (j : BufIx) (s : State) :
    (s.withdraw j).mem = Memory.forget (bufAddr j) (bufEnd s.params j) s.mem := rfl
@[simp] theorem State.withdraw_params (j : BufIx) (s : State) : (s.withdraw j).params = s.params := rfl
@[simp] theorem State.withdraw_schedule (j : BufIx) (s : State) : (s.withdraw j).schedule = s.schedule := rfl
@[simp] theorem State.withdraw_port (j : BufIx) (s : State) : (s.withdraw j).port = s.port := rfl
@[simp] theorem State.withdraw_draws (j : BufIx) (s : State) : (s.withdraw j).draws = s.draws := rfl

/-! ### `State.finish` -/

@[simp] theorem State.finish_busy (s : State) : (s.finish).busy = false := rfl
@[simp] theorem State.finish_done (s : State) : (s.finish).done = true := rfl
@[simp] theorem State.finish_err (s : State) : (s.finish).err = s.err := rfl
@[simp] theorem State.finish_ovr (s : State) : (s.finish).ovr = s.ovr := rfl
@[simp] theorem State.finish_doneIE (s : State) : (s.finish).doneIE = s.doneIE := rfl
@[simp] theorem State.finish_errIE (s : State) : (s.finish).errIE = s.errIE := rfl
@[simp] theorem State.finish_cmd (s : State) : (s.finish).cmd = s.cmd := rfl
@[simp] theorem State.finish_errinfo (s : State) : (s.finish).errinfo = s.errinfo := rfl
@[simp] theorem State.finish_fc (s : State) : (s.finish).fc = s.fc := rfl
@[simp] theorem State.finish_fsout (s : State) : (s.finish).fsout = s.fsout := rfl
@[simp] theorem State.finish_fcutoff (s : State) : (s.finish).fcutoff = s.fcutoff := rfl
@[simp] theorem State.finish_frumble (s : State) : (s.finish).frumble = s.frumble := rfl
@[simp] theorem State.finish_fmdev (s : State) : (s.finish).fmdev = s.fmdev := rfl
@[simp] theorem State.finish_bd (s : State) : (s.finish).bd = s.bd := rfl
@[simp] theorem State.finish_ntaps (s : State) : (s.finish).ntaps = s.ntaps := rfl
@[simp] theorem State.finish_mem (s : State) : (s.finish).mem = s.mem := rfl
@[simp] theorem State.finish_params (s : State) : (s.finish).params = s.params := rfl
@[simp] theorem State.finish_schedule (s : State) : (s.finish).schedule = s.schedule := rfl
@[simp] theorem State.finish_port (s : State) : (s.finish).port = s.port := rfl
@[simp] theorem State.finish_draws (s : State) : (s.finish).draws = s.draws := rfl

/-! ### `State.hostReset` -/

@[simp] theorem State.hostReset_busy (s : State) : (s.hostReset).busy = false := rfl
@[simp] theorem State.hostReset_done (s : State) : (s.hostReset).done = false := rfl
@[simp] theorem State.hostReset_err (s : State) : (s.hostReset).err = false := rfl
@[simp] theorem State.hostReset_ovr (s : State) : (s.hostReset).ovr = false := rfl
@[simp] theorem State.hostReset_doneIE (s : State) : (s.hostReset).doneIE = false := rfl
@[simp] theorem State.hostReset_errIE (s : State) : (s.hostReset).errIE = false := rfl
@[simp] theorem State.hostReset_cmd (s : State) : (s.hostReset).cmd = 0 := rfl
@[simp] theorem State.hostReset_errinfo (s : State) : (s.hostReset).errinfo = 0 := rfl
@[simp] theorem State.hostReset_fc (s : State) : (s.hostReset).fc = 0 := rfl
@[simp] theorem State.hostReset_fsout (s : State) : (s.hostReset).fsout = 0 := rfl
@[simp] theorem State.hostReset_fcutoff (s : State) : (s.hostReset).fcutoff = 10000 := rfl
@[simp] theorem State.hostReset_frumble (s : State) : (s.hostReset).frumble = 0 := rfl
@[simp] theorem State.hostReset_fmdev (s : State) : (s.hostReset).fmdev = 75000 := rfl
@[simp] theorem State.hostReset_bd (s : State) : (s.hostReset).bd = Vector.replicate 4 Desc.reset := rfl
@[simp] theorem State.hostReset_ntaps (s : State) : (s.hostReset).ntaps = Vector.replicate 4 0 := rfl
@[simp] theorem State.hostReset_mem (s : State) : (s.hostReset).mem = [] := rfl
@[simp] theorem State.hostReset_params (s : State) : (s.hostReset).params = s.params := rfl
@[simp] theorem State.hostReset_schedule (s : State) : (s.hostReset).schedule = s.schedule := rfl
@[simp] theorem State.hostReset_port (s : State) : (s.hostReset).port = .none := rfl
@[simp] theorem State.hostReset_draws (s : State) : (s.hostReset).draws = s.draws := rfl

/-! ### `State.raiseErr` -/

@[simp] theorem State.raiseErr_busy (bufs : Option (BufIx × BufIx)) (e : CmdError) (s : State) :
    (s.raiseErr bufs e).busy = s.busy := by
  cases bufs with
  | none => rfl
  | some p => simp only [State.raiseErr]; split <;> rfl
@[simp] theorem State.raiseErr_done (bufs : Option (BufIx × BufIx)) (e : CmdError) (s : State) :
    (s.raiseErr bufs e).done = s.done := by
  cases bufs with
  | none => rfl
  | some p => simp only [State.raiseErr]; split <;> rfl
@[simp] theorem State.raiseErr_err (bufs : Option (BufIx × BufIx)) (e : CmdError) (s : State) :
    (s.raiseErr bufs e).err = true := by
  cases bufs with
  | none => rfl
  | some p => simp only [State.raiseErr]; split <;> rfl
@[simp] theorem State.raiseErr_ovr (bufs : Option (BufIx × BufIx)) (e : CmdError) (s : State) :
    (s.raiseErr bufs e).ovr = s.ovr := by
  cases bufs with
  | none => rfl
  | some p => simp only [State.raiseErr]; split <;> rfl
@[simp] theorem State.raiseErr_doneIE (bufs : Option (BufIx × BufIx)) (e : CmdError) (s : State) :
    (s.raiseErr bufs e).doneIE = s.doneIE := by
  cases bufs with
  | none => rfl
  | some p => simp only [State.raiseErr]; split <;> rfl
@[simp] theorem State.raiseErr_errIE (bufs : Option (BufIx × BufIx)) (e : CmdError) (s : State) :
    (s.raiseErr bufs e).errIE = s.errIE := by
  cases bufs with
  | none => rfl
  | some p => simp only [State.raiseErr]; split <;> rfl
@[simp] theorem State.raiseErr_cmd (bufs : Option (BufIx × BufIx)) (e : CmdError) (s : State) :
    (s.raiseErr bufs e).cmd = s.cmd := by
  cases bufs with
  | none => rfl
  | some p => simp only [State.raiseErr]; split <;> rfl
@[simp] theorem State.raiseErr_errinfo (bufs : Option (BufIx × BufIx)) (e : CmdError) (s : State) :
    (s.raiseErr bufs e).errinfo = e.info := by
  cases bufs with
  | none => rfl
  | some p => simp only [State.raiseErr]; split <;> rfl
@[simp] theorem State.raiseErr_fc (bufs : Option (BufIx × BufIx)) (e : CmdError) (s : State) :
    (s.raiseErr bufs e).fc = s.fc := by
  cases bufs with
  | none => rfl
  | some p => simp only [State.raiseErr]; split <;> rfl
@[simp] theorem State.raiseErr_fsout (bufs : Option (BufIx × BufIx)) (e : CmdError) (s : State) :
    (s.raiseErr bufs e).fsout = s.fsout := by
  cases bufs with
  | none => rfl
  | some p => simp only [State.raiseErr]; split <;> rfl
@[simp] theorem State.raiseErr_fcutoff (bufs : Option (BufIx × BufIx)) (e : CmdError) (s : State) :
    (s.raiseErr bufs e).fcutoff = s.fcutoff := by
  cases bufs with
  | none => rfl
  | some p => simp only [State.raiseErr]; split <;> rfl
@[simp] theorem State.raiseErr_frumble (bufs : Option (BufIx × BufIx)) (e : CmdError) (s : State) :
    (s.raiseErr bufs e).frumble = s.frumble := by
  cases bufs with
  | none => rfl
  | some p => simp only [State.raiseErr]; split <;> rfl
@[simp] theorem State.raiseErr_fmdev (bufs : Option (BufIx × BufIx)) (e : CmdError) (s : State) :
    (s.raiseErr bufs e).fmdev = s.fmdev := by
  cases bufs with
  | none => rfl
  | some p => simp only [State.raiseErr]; split <;> rfl
@[simp] theorem State.raiseErr_ntaps (bufs : Option (BufIx × BufIx)) (e : CmdError) (s : State) :
    (s.raiseErr bufs e).ntaps = s.ntaps := by
  cases bufs with
  | none => rfl
  | some p => simp only [State.raiseErr]; split <;> rfl
@[simp] theorem State.raiseErr_params (bufs : Option (BufIx × BufIx)) (e : CmdError) (s : State) :
    (s.raiseErr bufs e).params = s.params := by
  cases bufs with
  | none => rfl
  | some p => simp only [State.raiseErr]; split <;> rfl
@[simp] theorem State.raiseErr_schedule (bufs : Option (BufIx × BufIx)) (e : CmdError) (s : State) :
    (s.raiseErr bufs e).schedule = s.schedule := by
  cases bufs with
  | none => rfl
  | some p => simp only [State.raiseErr]; split <;> rfl
@[simp] theorem State.raiseErr_port (bufs : Option (BufIx × BufIx)) (e : CmdError) (s : State) :
    (s.raiseErr bufs e).port = s.port := by
  cases bufs with
  | none => rfl
  | some p => simp only [State.raiseErr]; split <;> rfl
@[simp] theorem State.raiseErr_draws (bufs : Option (BufIx × BufIx)) (e : CmdError) (s : State) :
    (s.raiseErr bufs e).draws = s.draws := by
  cases bufs with
  | none => rfl
  | some p => simp only [State.raiseErr]; split <;> rfl

/-! ### `State.commit` -/

@[simp] theorem State.commit_busy (src dst : BufIx) (r : Except CmdError SampleSeq) (s : State) :
    (s.commit src dst r).busy = s.busy := by
  cases r <;> simp [State.commit]
@[simp] theorem State.commit_done (src dst : BufIx) (r : Except CmdError SampleSeq) (s : State) :
    (s.commit src dst r).done = s.done := by
  cases r <;> simp [State.commit]
@[simp] theorem State.commit_ovr (src dst : BufIx) (r : Except CmdError SampleSeq) (s : State) :
    (s.commit src dst r).ovr = s.ovr := by
  cases r <;> simp [State.commit]
@[simp] theorem State.commit_doneIE (src dst : BufIx) (r : Except CmdError SampleSeq) (s : State) :
    (s.commit src dst r).doneIE = s.doneIE := by
  cases r <;> simp [State.commit]
@[simp] theorem State.commit_errIE (src dst : BufIx) (r : Except CmdError SampleSeq) (s : State) :
    (s.commit src dst r).errIE = s.errIE := by
  cases r <;> simp [State.commit]
@[simp] theorem State.commit_cmd (src dst : BufIx) (r : Except CmdError SampleSeq) (s : State) :
    (s.commit src dst r).cmd = s.cmd := by
  cases r <;> simp [State.commit]
@[simp] theorem State.commit_fc (src dst : BufIx) (r : Except CmdError SampleSeq) (s : State) :
    (s.commit src dst r).fc = s.fc := by
  cases r <;> simp [State.commit]
@[simp] theorem State.commit_fsout (src dst : BufIx) (r : Except CmdError SampleSeq) (s : State) :
    (s.commit src dst r).fsout = s.fsout := by
  cases r <;> simp [State.commit]
@[simp] theorem State.commit_fcutoff (src dst : BufIx) (r : Except CmdError SampleSeq) (s : State) :
    (s.commit src dst r).fcutoff = s.fcutoff := by
  cases r <;> simp [State.commit]
@[simp] theorem State.commit_frumble (src dst : BufIx) (r : Except CmdError SampleSeq) (s : State) :
    (s.commit src dst r).frumble = s.frumble := by
  cases r <;> simp [State.commit]
@[simp] theorem State.commit_fmdev (src dst : BufIx) (r : Except CmdError SampleSeq) (s : State) :
    (s.commit src dst r).fmdev = s.fmdev := by
  cases r <;> simp [State.commit]
@[simp] theorem State.commit_ntaps (src dst : BufIx) (r : Except CmdError SampleSeq) (s : State) :
    (s.commit src dst r).ntaps = s.ntaps := by
  cases r <;> simp [State.commit]
@[simp] theorem State.commit_params (src dst : BufIx) (r : Except CmdError SampleSeq) (s : State) :
    (s.commit src dst r).params = s.params := by
  cases r <;> simp [State.commit]
@[simp] theorem State.commit_schedule (src dst : BufIx) (r : Except CmdError SampleSeq) (s : State) :
    (s.commit src dst r).schedule = s.schedule := by
  cases r <;> simp [State.commit]
@[simp] theorem State.commit_port (src dst : BufIx) (r : Except CmdError SampleSeq) (s : State) :
    (s.commit src dst r).port = s.port := by
  cases r <;> simp [State.commit]

/-! ### `State.writeCmd` -/

@[simp] theorem State.writeCmd_err (w : Word) (s : State) : (s.writeCmd w).err = s.err := by
  simp only [State.writeCmd]; split <;> rfl
@[simp] theorem State.writeCmd_doneIE (w : Word) (s : State) : (s.writeCmd w).doneIE = s.doneIE := by
  simp only [State.writeCmd]; split <;> rfl
@[simp] theorem State.writeCmd_errIE (w : Word) (s : State) : (s.writeCmd w).errIE = s.errIE := by
  simp only [State.writeCmd]; split <;> rfl
@[simp] theorem State.writeCmd_fc (w : Word) (s : State) : (s.writeCmd w).fc = s.fc := by
  simp only [State.writeCmd]; split <;> rfl
@[simp] theorem State.writeCmd_fsout (w : Word) (s : State) : (s.writeCmd w).fsout = s.fsout := by
  simp only [State.writeCmd]; split <;> rfl
@[simp] theorem State.writeCmd_fcutoff (w : Word) (s : State) : (s.writeCmd w).fcutoff = s.fcutoff := by
  simp only [State.writeCmd]; split <;> rfl
@[simp] theorem State.writeCmd_frumble (w : Word) (s : State) : (s.writeCmd w).frumble = s.frumble := by
  simp only [State.writeCmd]; split <;> rfl
@[simp] theorem State.writeCmd_fmdev (w : Word) (s : State) : (s.writeCmd w).fmdev = s.fmdev := by
  simp only [State.writeCmd]; split <;> rfl
@[simp] theorem State.writeCmd_bd (w : Word) (s : State) : (s.writeCmd w).bd = s.bd := by
  simp only [State.writeCmd]; split <;> rfl
@[simp] theorem State.writeCmd_ntaps (w : Word) (s : State) : (s.writeCmd w).ntaps = s.ntaps := by
  simp only [State.writeCmd]; split <;> rfl
@[simp] theorem State.writeCmd_mem (w : Word) (s : State) : (s.writeCmd w).mem = s.mem := by
  simp only [State.writeCmd]; split <;> rfl
@[simp] theorem State.writeCmd_params (w : Word) (s : State) : (s.writeCmd w).params = s.params := by
  simp only [State.writeCmd]; split <;> rfl
@[simp] theorem State.writeCmd_schedule (w : Word) (s : State) : (s.writeCmd w).schedule = s.schedule := by
  simp only [State.writeCmd]; split <;> rfl
@[simp] theorem State.writeCmd_port (w : Word) (s : State) : (s.writeCmd w).port = s.port := by
  simp only [State.writeCmd]; split <;> rfl
@[simp] theorem State.writeCmd_draws (w : Word) (s : State) : (s.writeCmd w).draws = s.draws := by
  simp only [State.writeCmd]; split <;> rfl

/-! ### `State.withFetchWord` -/

@[simp] theorem State.withFetchWord_busy (s : State) (nbits w : Nat) : (s.withFetchWord nbits w).busy = true := rfl
@[simp] theorem State.withFetchWord_done (s : State) (nbits w : Nat) : (s.withFetchWord nbits w).done = s.done := rfl
@[simp] theorem State.withFetchWord_err (s : State) (nbits w : Nat) : (s.withFetchWord nbits w).err = s.err := rfl
@[simp] theorem State.withFetchWord_ovr (s : State) (nbits w : Nat) : (s.withFetchWord nbits w).ovr = s.ovr := rfl
@[simp] theorem State.withFetchWord_doneIE (s : State) (nbits w : Nat) :
    (s.withFetchWord nbits w).doneIE = s.doneIE := rfl
@[simp] theorem State.withFetchWord_errIE (s : State) (nbits w : Nat) :
    (s.withFetchWord nbits w).errIE = s.errIE := rfl
@[simp] theorem State.withFetchWord_cmd (s : State) (nbits w : Nat) :
    (s.withFetchWord nbits w).cmd = BitVec.ofNat 32 (w % 2 ^ nbits) := rfl
@[simp] theorem State.withFetchWord_errinfo (s : State) (nbits w : Nat) :
    (s.withFetchWord nbits w).errinfo = s.errinfo := rfl
@[simp] theorem State.withFetchWord_fc (s : State) (nbits w : Nat) : (s.withFetchWord nbits w).fc = s.fc := rfl
@[simp] theorem State.withFetchWord_fsout (s : State) (nbits w : Nat) :
    (s.withFetchWord nbits w).fsout = s.fsout := rfl
@[simp] theorem State.withFetchWord_fcutoff (s : State) (nbits w : Nat) :
    (s.withFetchWord nbits w).fcutoff = s.fcutoff := rfl
@[simp] theorem State.withFetchWord_frumble (s : State) (nbits w : Nat) :
    (s.withFetchWord nbits w).frumble = s.frumble := rfl
@[simp] theorem State.withFetchWord_fmdev (s : State) (nbits w : Nat) :
    (s.withFetchWord nbits w).fmdev = s.fmdev := rfl
@[simp] theorem State.withFetchWord_bd (s : State) (nbits w : Nat) : (s.withFetchWord nbits w).bd = s.bd := rfl
@[simp] theorem State.withFetchWord_ntaps (s : State) (nbits w : Nat) :
    (s.withFetchWord nbits w).ntaps = s.ntaps := rfl
@[simp] theorem State.withFetchWord_mem (s : State) (nbits w : Nat) : (s.withFetchWord nbits w).mem = s.mem := rfl
@[simp] theorem State.withFetchWord_params (s : State) (nbits w : Nat) :
    (s.withFetchWord nbits w).params = s.params := rfl
@[simp] theorem State.withFetchWord_schedule (s : State) (nbits w : Nat) :
    (s.withFetchWord nbits w).schedule = [] := rfl
@[simp] theorem State.withFetchWord_port (s : State) (nbits w : Nat) : (s.withFetchWord nbits w).port = s.port := rfl
@[simp] theorem State.withFetchWord_draws (s : State) (nbits w : Nat) :
    (s.withFetchWord nbits w).draws = s.draws := rfl

/-! ### `State.reset` -/

@[simp] theorem State.reset_busy : State.reset.busy = false := rfl
@[simp] theorem State.reset_done : State.reset.done = false := rfl
@[simp] theorem State.reset_err : State.reset.err = false := rfl
@[simp] theorem State.reset_ovr : State.reset.ovr = false := rfl
@[simp] theorem State.reset_doneIE : State.reset.doneIE = false := rfl
@[simp] theorem State.reset_errIE : State.reset.errIE = false := rfl
@[simp] theorem State.reset_cmd : State.reset.cmd = 0 := rfl
@[simp] theorem State.reset_errinfo : State.reset.errinfo = 0 := rfl
@[simp] theorem State.reset_fc : State.reset.fc = 0 := rfl
@[simp] theorem State.reset_fsout : State.reset.fsout = 0 := rfl
@[simp] theorem State.reset_fcutoff : State.reset.fcutoff = 10000 := rfl
@[simp] theorem State.reset_frumble : State.reset.frumble = 0 := rfl
@[simp] theorem State.reset_fmdev : State.reset.fmdev = 75000 := rfl
@[simp] theorem State.reset_bd : State.reset.bd = Vector.replicate 4 Desc.reset := rfl
@[simp] theorem State.reset_ntaps : State.reset.ntaps = Vector.replicate 4 0 := rfl
@[simp] theorem State.reset_mem : State.reset.mem = [] := rfl
@[simp] theorem State.reset_params : State.reset.params = Params.default := rfl
@[simp] theorem State.reset_schedule : State.reset.schedule = [] := rfl
@[simp] theorem State.reset_port : State.reset.port = .none := rfl
@[simp] theorem State.reset_draws : State.reset.draws = 0 := rfl

/-! ### Descriptors and tap counts -/

@[simp] theorem State.desc_setDesc_same (j : BufIx) (d : Desc) (s : State) : (s.setDesc j d).desc j = d := by
  simp [State.desc]

theorem State.desc_setDesc_other {j k : BufIx} (h : k ≠ j) (d : Desc) (s : State) :
    (s.setDesc j d).desc k = s.desc k := by
  have : j.val ≠ k.val := fun e => h (Fin.ext e.symm)
  simp [State.desc, this]

@[simp] theorem State.tapCount_setTapCount_same (b : BankIx) (v : Word) (s : State) :
    (s.setTapCount b v).tapCount b = v := by
  simp [State.tapCount]

theorem State.tapCount_setTapCount_other {b c : BankIx} (h : c ≠ b) (v : Word) (s : State) :
    (s.setTapCount b v).tapCount c = s.tapCount c := by
  have : b.val ≠ c.val := fun e => h (Fin.ext e.symm)
  simp [State.tapCount, this]

@[simp] theorem State.desc_writeSeq_same (j : BufIx) (q : SampleSeq) (s : State) :
    (s.writeSeq j q).desc j = ⟨true, q.data.type.code, BitVec.ofNat 32 q.data.length, q.fs⟩ := by
  simp [State.desc]

theorem State.desc_writeSeq_other {j k : BufIx} (h : k ≠ j) (q : SampleSeq) (s : State) :
    (s.writeSeq j q).desc k = s.desc k := by
  have : j.val ≠ k.val := fun e => h (Fin.ext e.symm)
  simp [State.desc, this]

@[simp] theorem State.desc_withdraw_same (j : BufIx) (s : State) :
    (s.withdraw j).desc j = { s.desc j with valid := false } := by
  simp [State.desc]

theorem State.desc_withdraw_other {j k : BufIx} (h : k ≠ j) (s : State) : (s.withdraw j).desc k = s.desc k := by
  have : j.val ≠ k.val := fun e => h (Fin.ext e.symm)
  simp [State.desc, this]

@[simp] theorem State.desc_reset (j : BufIx) : State.reset.desc j = Desc.reset := by
  simp [State.desc]

@[simp] theorem State.tapCount_reset (b : BankIx) : State.reset.tapCount b = 0 := by
  simp [State.tapCount]

end Sys2Proof.Machine
end

