-- ==== Sys2Proof/Laws/Commands.lean ====
section
/-! SUPPORT. What the shared operations of the commands can do: the operand tests, the end of a command, error entry,
writing a result. Each lemma is cited instead of unfolding its operation. -/
namespace Sys2Proof.Machine

/-! ### Operand tests (60_exceptions.md R241 to R248) -/

/-- `CheckOperands` passes exactly on usable operands (60_exceptions.md R241). -/
theorem checkOperands_eq_ok {s : State} {src dst : BufIx} {t : ElemType} :
    s.checkOperands src dst = .ok t ↔ UsableSource s src dst t := by
  constructor
  · intro h
    simp only [State.checkOperands] at h
    split at h
    · cases h
    next h1 =>
    split at h
    · cases h
    next h2 =>
    split at h
    · cases h
    next t' ht =>
    split at h
    · cases h
    next h3 =>
    split at h
    · cases h
    next h4 =>
    split at h
    · cases h
    next h5 =>
    cases h
    exact ⟨h1, by simpa using h2, ofCode_eq_some.mp ht, h4, by omega, h5⟩
  · rintro ⟨h1, h2, h3, h4, h5, h6⟩
    have h7 : ¬ s.params.maxLen < (s.desc src).len.toNat := by omega
    simp [State.checkOperands, h1, h2, h3, h4, h6, h7]

/-- The errors of `CheckOperands` (60_exceptions.md R241, R249). -/
theorem checkOperands_error {s : State} {src dst : BufIx} {e : CmdError} (h : s.checkOperands src dst = .error e) :
    e.info ∈ headFaults := by
  simp only [State.checkOperands] at h
  split at h
  · cases h; decide
  split at h
  · cases h; decide
  split at h
  · cases h; decide
  split at h
  · cases h; decide
  split at h
  · cases h; decide
  split at h
  · cases h; decide
  · cases h

/-- `CheckOperands` refuses equal buffers first, as `SRC_DST_ALIAS` (60_exceptions.md R241). -/
theorem checkOperands_alias (s : State) (j : BufIx) : s.checkOperands j j = .error ⟨.srcDstAlias, 0⟩ := by
  simp [State.checkOperands]

theorem loadSource_eq_ok {s : State} {src dst : BufIx} {q : SampleSeq} :
    s.loadSource src dst = .ok q ↔ ∃ t, UsableSource s src dst t ∧ q = s.srcSeq src t := by
  unfold State.loadSource
  constructor
  · intro h
    split at h
    · cases h
    · next t ht => cases h; exact ⟨t, checkOperands_eq_ok.mp ht, rfl⟩
  · rintro ⟨t, ht, rfl⟩
    rw [checkOperands_eq_ok.mpr ht]

theorem loadSource_error {s : State} {src dst : BufIx} {e : CmdError} (h : s.loadSource src dst = .error e) :
    e.info ∈ headFaults := by
  unfold State.loadSource at h
  split at h
  · next e' he => cases h; exact checkOperands_error he
  · cases h

/-- A usable source loads as `SrcSeq(SRC)` (60_exceptions.md R241). -/
theorem loadSource_usable {s : State} {src dst : BufIx} {t : ElemType} (h : UsableSource s src dst t) :
    s.loadSource src dst = .ok (s.srcSeq src t) := loadSource_eq_ok.mpr ⟨t, h, rfl⟩

/-- A usable bank loads as its taps (60_exceptions.md R243). -/
theorem loadBank_usable {s : State} {b : BankIx} (h : UsableBank s b) (stage : Nat) :
    s.loadBank b stage = .ok (s.taps b) := by
  obtain ⟨h1, h2⟩ := h
  have h0 : s.tapCount b ≠ 0#32 := by
    intro h0
    rw [h0] at h1
    simp at h1
  have h3 : ¬ s.params.maxTaps < (s.tapCount b).toNat := by omega
  simp [State.loadBank, h0, h3]

theorem loadBank_cases (s : State) (b : BankIx) (stage : Nat) :
    (UsableBank s b ∧ s.loadBank b stage = .ok (s.taps b)) ∨
      (¬ UsableBank s b ∧ s.loadBank b stage = .error ⟨.badTaps, stage⟩) := by
  by_cases h : UsableBank s b
  · exact Or.inl ⟨h, loadBank_usable h stage⟩
  · refine Or.inr ⟨h, ?_⟩
    unfold State.loadBank
    rw [if_pos]
    by_contra hc
    push Not at hc
    obtain ⟨h0, h2⟩ := hc
    refine h ⟨?_, by omega⟩
    have : (s.tapCount b).toNat ≠ 0 := fun e => h0 (by simpa using BitVec.eq_of_toNat_eq (y := 0) (by simpa using e))
    omega

/-- What the decimator's tests answer (60_exceptions.md R245). -/
theorem checkDecim_cases (fsOut fs : Word) (stage : Nat) :
    (fsOut = 0#32 ∧ checkDecim fsOut fs stage = .error ⟨.badFsout, stage⟩) ∨
    (fsOut ≠ 0#32 ∧ fsOut = fs ∧ checkDecim fsOut fs stage = .ok none) ∨
    (fsOut ≠ 0#32 ∧ fs.toNat < fsOut.toNat ∧ checkDecim fsOut fs stage = .error ⟨.decimFactor, stage⟩) ∨
    (fsOut ≠ 0#32 ∧ fsOut.toNat < fs.toNat ∧ 1 ≤ decimFactor fs.toNat fsOut.toNat ∧
      checkDecim fsOut fs stage = .ok (some (decimFactor fs.toNat fsOut.toNat))) := by
  unfold checkDecim
  by_cases h0 : fsOut = 0#32
  · exact Or.inl ⟨h0, by simp [h0]⟩
  have hpos : 0 < fsOut.toNat := by
    have : fsOut.toNat ≠ 0 := fun e => h0 (by simpa using BitVec.eq_of_toNat_eq (y := 0) (by simpa using e))
    omega
  by_cases h1 : fsOut = fs
  · exact Or.inr (Or.inl ⟨h0, h1, by simp [h1, show fs ≠ 0#32 from h1 ▸ h0]⟩)
  have hne : fsOut.toNat ≠ fs.toNat := fun e => h1 (BitVec.eq_of_toNat_eq e)
  by_cases h2 : fs.toNat < fsOut.toNat
  · have : decimFactor fs.toNat fsOut.toNat < 1 := by
      unfold decimFactor
      rw [Nat.div_eq_of_lt h2]; exact Nat.one_pos
    exact Or.inr (Or.inr (Or.inl ⟨h0, h2, by simp only [h0, h1, this, if_false, if_true]⟩))
  · have h3 : 1 ≤ decimFactor fs.toNat fsOut.toNat := (Nat.le_div_iff_mul_le hpos).mpr (by omega)
    refine Or.inr (Or.inr (Or.inr ⟨h0, by omega, h3, ?_⟩))
    have : ¬ decimFactor fs.toNat fsOut.toNat < 1 := by omega
    simp only [h0, h1, this, if_false]

/-- What the decimator answers (43_decimate.md R181). -/
theorem decimate_cases (s : State) (b : BankIx) (stage : Nat) (q : SampleSeq) :
    (UsableDecimation s b q.fs ∧ s.decimate b s.fsout stage q = .ok (decimateSeq (s.taps b) s.fsout q)) ∨
    (¬ UsableDecimation s b q.fs ∧ ∃ c ∈ [SubCause.badFsout, .decimFactor, .badTaps],
      s.decimate b s.fsout stage q = .error ⟨c, stage⟩) := by
  unfold State.decimate
  rcases checkDecim_cases s.fsout q.fs stage with ⟨h0, h⟩ | ⟨h0, h1, h⟩ | ⟨h0, h1, h⟩ | ⟨h0, h1, h2, h⟩
  · refine Or.inr ⟨fun hu => hu.1 h0, .badFsout, by simp, ?_⟩
    rw [h]; rfl
  · refine Or.inl ⟨⟨h0, Or.inl h1⟩, ?_⟩
    rw [h]
    simp [decimateSeq, h1, bind, Except.bind, pure, Except.pure]
  · refine Or.inr ⟨?_, .decimFactor, by simp, ?_⟩
    · rintro ⟨-, h2 | ⟨h2, -⟩⟩
      · rw [h2] at h1; omega
      · omega
    · rw [h]; rfl
  · have hne : s.fsout ≠ q.fs := fun e => by rw [e] at h1; omega
    rcases loadBank_cases s b stage with ⟨hb, hl⟩ | ⟨hb, hl⟩
    · refine Or.inl ⟨⟨h0, Or.inr ⟨h1, hb⟩⟩, ?_⟩
      rw [h]
      simp [decimateSeq, hne, hl, bind, Except.bind, pure, Except.pure]
    · refine Or.inr ⟨?_, .badTaps, by simp, ?_⟩
      · rintro ⟨-, h2 | ⟨-, h2⟩⟩
        · exact hne h2
        · exact hb h2
      · rw [h]
        simp [hl, bind, Except.bind]

/-- A decimated sequence keeps its element type, has rate `fsOut`, and has between 1 and `L` elements (43_decimate.md
R184). -/
theorem decimateSeq_shape {s : State} {b : BankIx} {q : SampleSeq} (hu : UsableDecimation s b q.fs)
    (hq : 1 ≤ q.data.length) :
    (decimateSeq (s.taps b) s.fsout q).data.type = q.data.type ∧ (decimateSeq (s.taps b) s.fsout q).fs = s.fsout ∧
      1 ≤ (decimateSeq (s.taps b) s.fsout q).data.length ∧
      (decimateSeq (s.taps b) s.fsout q).data.length ≤ q.data.length := by
  unfold decimateSeq
  by_cases h : s.fsout = q.fs
  · rw [if_pos h]
    exact ⟨rfl, h.symm, hq, le_rfl⟩
  · obtain ⟨h0, h1 | ⟨h1, hb⟩⟩ := hu
    · exact absurd h1 h
    have hpos : 0 < s.fsout.toNat := by
      have : s.fsout.toNat ≠ 0 := fun e => h0 (by simpa using BitVec.eq_of_toNat_eq (y := 0) (by simpa using e))
      omega
    have hd : 1 ≤ decimFactor q.fs.toNat s.fsout.toNat := (Nat.le_div_iff_mul_le hpos).mpr (by omega)
    have hb := retained_bounds hq hd
    rw [if_neg h]
    refine ⟨by simp, rfl, ?_, ?_⟩ <;> simp [Samples.stride_length (show 0 < decimFactor q.fs.toNat s.fsout.toNat by omega)]
    · exact hb.1
    · exact hb.2

/-- What the translation stage answers (60_exceptions.md R244; 42_translate.md R170). -/
theorem translateStage_cases (fc : Option Int) (stage : Nat) (q : SampleSeq) :
    ((fc.isSome → q.data.type = .cs) ∧ translateStage fc stage q = .ok (translate fc q)) ∨
    (fc.isSome ∧ q.data.type ≠ .cs ∧ translateStage fc stage q = .error ⟨.badType, stage⟩) := by
  unfold translateStage checkXlate
  by_cases h : fc.isSome ∧ q.data.type ≠ .cs
  · exact Or.inr ⟨h.1, h.2, by simp [h, bind, Except.bind]⟩
  · refine Or.inl ⟨fun hs => by by_contra hc; exact h ⟨hs, hc⟩, ?_⟩
    rw [if_neg h]; rfl

/-- What the discriminator stage answers (60_exceptions.md R247; 44_detectors.md R193). -/
theorem discriminateStage_cases (fmdev : Word) (stage : Nat) (q : SampleSeq) :
    (q.data.type = .cs ∧ fmdev ≠ 0#32 ∧ q.data.length ≠ 1 ∧ discriminateStage fmdev stage q = .ok (discriminate fmdev q)) ∨
    (∃ c ∈ [SubCause.badType, .badFmdev, .emptyOutput], discriminateStage fmdev stage q = .error ⟨c, stage⟩) := by
  unfold discriminateStage checkDisc
  by_cases h1 : q.data.type = .cs
  · by_cases h2 : fmdev = 0#32
    · exact Or.inr ⟨.badFmdev, by simp, by simp [h1, h2, bind, Except.bind]⟩
    · by_cases h3 : q.data.length = 1
      · exact Or.inr ⟨.emptyOutput, by simp, by simp [h1, h2, h3, bind, Except.bind]⟩
      · exact Or.inl ⟨h1, h2, h3, by simp [h1, h2, h3, bind, Except.bind, pure, Except.pure]⟩
  · exact Or.inr ⟨.badType, by simp, by simp [h1, bind, Except.bind]⟩

/-- What the Nyquist test answers (60_exceptions.md R246). -/
theorem checkNyquist_cases (c r : Word) (stage : Nat) :
    (2 * c.toNat < r.toNat ∧ checkNyquist c r stage = .ok ()) ∨
    (r.toNat ≤ 2 * c.toNat ∧ checkNyquist c r stage = .error ⟨.nyquist, stage⟩) := by
  unfold checkNyquist nyquistFault
  by_cases h : r.toNat ≤ 2 * c.toNat
  · exact Or.inr ⟨h, by simp [h]⟩
  · exact Or.inl ⟨by omega, by simp [h]⟩

/-- What the FM Nyquist test answers (60_exceptions.md R246). -/
theorem checkFmNyquist_cases (fmdev fs : Word) (stage : Nat) :
    (3 * fmdev.toNat < fs.toNat ∧ checkFmNyquist fmdev fs stage = .ok ()) ∨
    (fs.toNat ≤ 3 * fmdev.toNat ∧ checkFmNyquist fmdev fs stage = .error ⟨.nyquist, stage⟩) := by
  unfold checkFmNyquist fmNyquistFault
  by_cases h : fs.toNat ≤ 3 * fmdev.toNat
  · exact Or.inr ⟨h, by simp [h]⟩
  · exact Or.inl ⟨by omega, by simp [h]⟩

/-- What the rumble stage answers (45_demodulators.md R200, stage 5). -/
theorem rumbleStage_cases (s : State) (hpb : BankIx) (q : SampleSeq) :
    (2 * s.frumble.toNat < s.fsout.toNat ∧ UsableBank s hpb ∧ (s.tapCount hpb).toNat % 2 = 1 ∧
      s.rumbleStage hpb q = .ok (filterSeq (s.taps hpb) q)) ∨
    (∃ c ∈ [SubCause.nyquist, .badTaps, .hpEvenTaps], s.rumbleStage hpb q = .error ⟨c, 5⟩) := by
  unfold State.rumbleStage
  rcases checkNyquist_cases s.frumble s.fsout 5 with ⟨h1, hn⟩ | ⟨h1, hn⟩
  · rcases loadBank_cases s hpb 5 with ⟨h2, hb⟩ | ⟨h2, hb⟩
    · by_cases h3 : (s.tapCount hpb).toNat % 2 = 0
      · exact Or.inr ⟨.hpEvenTaps, by simp, by simp [hn, hb, State.checkOddTaps, h3, bind, Except.bind]⟩
      · exact Or.inl ⟨h1, h2, by omega,
          by simp [hn, hb, State.checkOddTaps, h3, bind, Except.bind, pure, Except.pure]⟩
    · exact Or.inr ⟨.badTaps, by simp, by simp [hn, hb, bind, Except.bind]⟩
  · exact Or.inr ⟨.nyquist, by simp, by simp [hn, bind, Except.bind]⟩

/-- What a filter stage answers (60_exceptions.md R243). -/
theorem filterStage_cases (s : State) (b : BankIx) (stage : Nat) (q : SampleSeq) :
    (UsableBank s b ∧ s.filterStage b stage q = .ok (filterSeq (s.taps b) q)) ∨
    (¬ UsableBank s b ∧ s.filterStage b stage q = .error ⟨.badTaps, stage⟩) := by
  unfold State.filterStage
  rcases loadBank_cases s b stage with ⟨h, hb⟩ | ⟨h, hb⟩
  · exact Or.inl ⟨h, by simp [hb, bind, Except.bind, pure, Except.pure]⟩
  · exact Or.inr ⟨h, by simp [hb, bind, Except.bind]⟩

/-! ### Error entry (60_exceptions.md R250) -/

/-- Error entry with equal buffers, or for an illegal word: `ERRINFO` and `ERR`, nothing else. -/
theorem raiseErr_untouched {bufs : Option (BufIx × BufIx)} (h : ∀ p, bufs = some p → p.1 = p.2) (e : CmdError)
    (s : State) : s.raiseErr bufs e = { s with errinfo := e.info, err := true } := by
  cases bufs with
  | none => rfl
  | some p => simp [State.raiseErr, h p rfl]

/-- Error entry of a data command with distinct buffers: the destination is withdrawn as well. -/
theorem raiseErr_distinct {src dst : BufIx} (h : src ≠ dst) (e : CmdError) (s : State) :
    s.raiseErr (some (src, dst)) e = State.withdraw dst { s with errinfo := e.info, err := true } := by
  simp [State.raiseErr, h]

theorem bufAddr_le_bufEnd (p : Params) (j : BufIx) : bufAddr j ≤ bufEnd p j := by simp [bufEnd]

/-- Error entry touches no descriptor but the destination's and no byte outside the destination buffer. -/
theorem raiseErr_onlyBuffer (src dst : BufIx) (e : CmdError) (s : State) :
    OnlyBuffer dst s (s.raiseErr (some (src, dst)) e) := by
  by_cases h : src = dst
  · rw [raiseErr_untouched (by intro p hp; cases hp; exact h)]
    exact ⟨rfl, ⟨rfl, rfl⟩, ⟨rfl, rfl, rfl, rfl, rfl⟩, fun _ _ => rfl, rfl, fun _ _ => rfl, ⟨rfl, rfl, rfl⟩⟩
  · rw [raiseErr_distinct h]
    refine ⟨rfl, ⟨rfl, rfl⟩, ⟨rfl, rfl, rfl, rfl, rfl⟩, fun k hk => State.desc_withdraw_other hk _, rfl, ?_,
      ⟨rfl, rfl, rfl⟩⟩
    intro a ha
    rw [State.withdraw_mem, read_forget (bufAddr_le_bufEnd _ _), if_neg ha]

theorem raiseErr_wf {s : State} (h : Memory.wf s.params s.mem = true) (bufs : Option (BufIx × BufIx)) (e : CmdError) :
    Memory.wf s.params (s.raiseErr bufs e).mem = true := by
  cases bufs with
  | none => exact h
  | some p =>
    by_cases hp : p.1 = p.2
    · rw [raiseErr_untouched (by intro q hq; cases hq; exact hp)]; exact h
    · obtain ⟨a, b⟩ := p
      rw [raiseErr_distinct hp]
      exact wf_forget b h

/-! ### Writing a result (20_memory.md R64) -/

theorem writeSeq_fits {s : State} {j : BufIx} {q : SampleSeq} (h : q.data.length ≤ s.params.maxLen) :
    bufAddr j + (q.data.bytes s.draws).length ≤ bufEnd s.params j := by
  have := bytes_fit (p := s.params) s.draws h
  simp only [bufEnd]
  omega

/-- Writing a result touches no descriptor but the destination's and no byte outside the destination buffer. -/
theorem writeSeq_onlyBuffer {s : State} (j : BufIx) {q : SampleSeq} (h : q.data.length ≤ s.params.maxLen) :
    OnlyBuffer j s (s.writeSeq j q) := by
  refine ⟨rfl, ⟨rfl, rfl⟩, ⟨rfl, rfl, rfl, rfl, rfl⟩, fun k hk => State.desc_writeSeq_other hk q s, rfl, ?_,
    ⟨rfl, rfl, rfl⟩⟩
  intro a ha
  rw [State.writeSeq_mem, read_fill_outside (writeSeq_fits h) _ ha]

theorem writeSeq_sameFlags (s : State) (j : BufIx) (q : SampleSeq) : SameFlags s (s.writeSeq j q) :=
  ⟨rfl, rfl, rfl, rfl, rfl⟩

theorem writeSeq_wf {s : State} (hw : Memory.wf s.params s.mem = true) (j : BufIx) {q : SampleSeq}
    (h : q.data.length ≤ s.params.maxLen) : Memory.wf s.params (s.writeSeq j q).mem = true := by
  rw [State.writeSeq_mem]
  exact wf_fill j (bytes_fit _ h) hw

/-! #### What is read back -/

theorem readBytes_writeSeq {s : State} {j : BufIx} {q : SampleSeq} (h : q.data.length ≤ s.params.maxLen) (off n : Nat)
    (hn : off + n ≤ (q.data.bytes s.draws).length) :
    Memory.readBytes (s.writeSeq j q).mem (bufAddr j + off) n =
      (List.range n).map fun i => ((q.data.bytes s.draws)[off + i]?).join := by
  have hf := writeSeq_fits (j := j) h
  unfold Memory.readBytes
  apply List.map_congr_left
  intro i hi
  have hi := List.mem_range.mp hi
  rw [State.writeSeq_mem, read_fill hf, if_pos (by omega)]
  congr 2
  omega

theorem magOf_packFp {w : Nat} (hw : 0 < w) (s : Bool) {m : Nat} (hm : m < 2 ^ (w - 1)) : magOf (packFp w s m) = m := by
  have h2 : 2 ^ w = 2 * 2 ^ (w - 1) := by
    obtain ⟨v, rfl⟩ := Nat.exists_eq_add_of_le' hw
    simp [Nat.pow_succ, Nat.mul_comm]
  unfold magOf packFp
  rw [BitVec.toNat_ofNat]
  cases s
  · simp only [Bool.false_eq_true, if_false, Nat.zero_add]
    rw [Nat.mod_eq_of_lt (a := m) (b := 2 ^ w) (by omega), Nat.mod_eq_of_lt hm]
  · simp only [if_true]
    rw [Nat.mod_eq_of_lt (b := 2 ^ w) (by omega), Nat.add_mod_left, Nat.mod_eq_of_lt hm]

/-- A drawn NaN is a NaN (40_numerics.md R128). -/
theorem drawnNaN_isNaN {w : Nat} (hw : w = 32 ∨ w = 64) (d k : Nat) : isNaNBits (drawnNaN w d k) = true := by
  rcases hw with rfl | rfl
  · have := (Config.freeNaN32 d k).2.isLt
    unfold isNaNBits drawnNaN
    rw [if_pos rfl, magOf_packFp (by decide) _ (by norm_num [infMag]; omega)]
    simp
    omega
  · have := (Config.freeNaN64 d k).2.isLt
    unfold isNaNBits drawnNaN
    rw [if_neg (by decide), magOf_packFp (by decide) _ (by norm_num [infMag]; omega)]
    simp
    omega

/-- The bytes a value is written as show it (20_memory.md R62; 40_numerics.md R128). -/
theorem toBytes_shown {w : Nat} (hw : w = 32 ∨ w = 64) (d k : Nat) (v : Fp w) : v.ShownBy (Fp.toBytes d k v) := by
  cases v with
  | pat b => rfl
  | nan => exact ⟨drawnNaN w d k, drawnNaN_isNaN hw d k, rfl⟩
  | unspec bs => rfl

/-- A piece of the result's bytes, read entry by entry, is the piece. -/
theorem map_join_getElem? {l : List MaybeByte} {n : Nat} (h : l.length = n) :
    ((List.range n).map fun i => (l[i]?).join) = l := by
  subst h
  apply List.ext_getElem
  · simp
  · intro i h1 h2
    simp at h1
    simp [List.getElem?_eq_getElem h1]

/-- A written result is what the buffer then holds (20_memory.md R64). -/
theorem writeSeq_holds {s : State} (j : BufIx) {q : SampleSeq} (h : q.data.length ≤ s.params.maxLen) :
    HoldsResult (s.writeSeq j q) j q := by
  refine ⟨State.desc_writeSeq_same j q s, ?_, ?_⟩
  · intro n hn
    obtain ⟨fs, x⟩ := q
    have hb := Samples.bytes_length s.draws x
    have hread := fun off k hk => readBytes_writeSeq (s := s) (j := j) (q := ⟨fs, x⟩) h off k hk
    cases x with
    | cs x =>
      intro z hz
      simp only [Samples.length] at hn
      simp only [Samples.length, Samples.type, ElemType.size] at hb
      have piece : ∀ i < 8, (Samples.bytes s.draws (.cs x))[8 * n + i]? =
          (Fp.toBytes s.draws (2 * n) z.re ++ Fp.toBytes s.draws (2 * n + 1) z.im)[i]? := by
        intro i hi
        simp only [Samples.bytes]
        rw [flatMap_getElem?_const (c := 8) (by simp) _ n hi]
        simp [List.getElem?_zipIdx, hz]
      refine ⟨?_, ?_⟩
      · rw [hread (8 * n) 4 (by show _ ≤ (Samples.bytes s.draws (.cs x)).length; omega)]
        have : ((List.range 4).map fun i => ((Samples.bytes s.draws (.cs x))[8 * n + i]?).join) =
            Fp.toBytes s.draws (2 * n) z.re := by
          rw [← map_join_getElem? (l := Fp.toBytes s.draws (2 * n) z.re) (n := 4) (by simp)]
          apply List.map_congr_left
          intro i hi
          have hi := List.mem_range.mp hi
          rw [piece i (by omega), List.getElem?_append_left (by simpa using hi)]
        rw [this]
        exact toBytes_shown (Or.inl rfl) ..
      · rw [Nat.add_assoc, hread (8 * n + 4) 4 (by show _ ≤ (Samples.bytes s.draws (.cs x)).length; omega)]
        have : ((List.range 4).map fun i => ((Samples.bytes s.draws (.cs x))[8 * n + 4 + i]?).join) =
            Fp.toBytes s.draws (2 * n + 1) z.im := by
          rw [← map_join_getElem? (l := Fp.toBytes s.draws (2 * n + 1) z.im) (n := 4) (by simp)]
          apply List.map_congr_left
          intro i hi
          have hi := List.mem_range.mp hi
          rw [Nat.add_assoc, piece (4 + i) (by omega), List.getElem?_append_right (by simp)]
          simp
        rw [this]
        exact toBytes_shown (Or.inl rfl) ..
    | rs x =>
      intro v hv
      simp only [Samples.length] at hn
      simp only [Samples.length, Samples.type, ElemType.size] at hb
      rw [hread (4 * n) 4 (by show _ ≤ (Samples.bytes s.draws (.rs x)).length; omega)]
      have : ((List.range 4).map fun i => ((Samples.bytes s.draws (.rs x))[4 * n + i]?).join) =
          Fp.toBytes s.draws n v := by
        rw [← map_join_getElem? (l := Fp.toBytes s.draws n v) (n := 4) (by simp)]
        apply List.map_congr_left
        intro i hi
        have hi := List.mem_range.mp hi
        simp only [Samples.bytes]
        rw [flatMap_getElem?_const (c := 4) (by simp) _ n hi]
        simp [List.getElem?_zipIdx, hv]
      rw [this]
      exact toBytes_shown (Or.inl rfl) ..
    | rd x =>
      intro v hv
      simp only [Samples.length] at hn
      simp only [Samples.length, Samples.type, ElemType.size] at hb
      rw [hread (8 * n) 8 (by show _ ≤ (Samples.bytes s.draws (.rd x)).length; omega)]
      have : ((List.range 8).map fun i => ((Samples.bytes s.draws (.rd x))[8 * n + i]?).join) =
          Fp.toBytes s.draws n v := by
        rw [← map_join_getElem? (l := Fp.toBytes s.draws n v) (n := 8) (by simp)]
        apply List.map_congr_left
        intro i hi
        have hi := List.mem_range.mp hi
        simp only [Samples.bytes]
        rw [flatMap_getElem?_const (c := 8) (by simp) _ n hi]
        simp [List.getElem?_zipIdx, hv]
      rw [this]
      exact toBytes_shown (Or.inr rfl) ..
  · intro a h1 h2
    have hb := Samples.bytes_length s.draws q.data
    rw [State.writeSeq_mem, read_fill (writeSeq_fits h)]
    rw [State.writeSeq_params] at h2
    rw [if_pos ⟨by omega, h2⟩, List.getElem?_eq_none_iff.mpr (by omega)]
    rfl

/-! ### The end of a data command -/

theorem commit_ok {s : State} {src dst : BufIx} {r : Except CmdError SampleSeq} {q : SampleSeq} (h : r = .ok q) :
    s.commit src dst r = s.writeSeq dst q := by rw [h]; rfl

theorem commit_error {s : State} {src dst : BufIx} {r : Except CmdError SampleSeq} {e : CmdError}
    (h : r = .error e) : s.commit src dst r = s.raiseErr (some (src, dst)) e := by rw [h]; rfl

/-- A data command touches nothing but `STATUS`, `ERRINFO`, its destination and the draw counter. -/
theorem commit_onlyBuffer {s : State} {src dst : BufIx} {r : Except CmdError SampleSeq}
    (h : ∀ q, r = .ok q → q.data.length ≤ s.params.maxLen) : OnlyBuffer dst s (s.commit src dst r) := by
  cases r with
  | ok q => exact writeSeq_onlyBuffer dst (h q rfl)
  | error e => exact raiseErr_onlyBuffer src dst e s

theorem commit_wf {s : State} (hw : Memory.wf s.params s.mem = true) {src dst : BufIx}
    {r : Except CmdError SampleSeq} (h : ∀ q, r = .ok q → q.data.length ≤ s.params.maxLen) :
    Memory.wf s.params (s.commit src dst r).mem = true := by
  cases r with
  | ok q => exact writeSeq_wf hw dst (h q rfl)
  | error e => exact raiseErr_wf hw _ e

end Sys2Proof.Machine
end

