-- ==== Sys2Proof/Laws/Numerics.lean ====
section
/-! SUPPORT. Patterns of the two formats and their values, and the range of the open functions. -/
namespace Sys2Proof.Machine

/-- A NaN operand beside a specified one makes the result of a two-operand rule NaN (40_numerics.md R125 to R127). -/
theorem lift2_nan {w : Nat} (op : BitVec w → BitVec w → Fp w) {a b : Fp w} (ha : a.Specified) (hb : b.Specified)
    (h : a.IsNaN ∨ b.IsNaN) : Fp.lift2 op a b = .nan := by
  cases a <;> cases b <;> simp_all [Fp.lift2, Fp.IsNaN, Fp.Specified]

/-- The sign of a packed pattern. -/
theorem signOf_packFp {w : Nat} (hw : 0 < w) (s : Bool) {m : Nat} (hm : m < 2 ^ (w - 1)) : signOf (packFp w s m) = s := by
  obtain ⟨v, rfl⟩ := Nat.exists_eq_add_of_le' hw
  have h2 : 2 ^ (v + 1) = 2 * 2 ^ v := by rw [Nat.pow_succ, Nat.mul_comm]
  simp only [Nat.add_sub_cancel] at hm
  unfold signOf packFp
  simp only [Nat.add_sub_cancel, BitVec.getLsbD_ofNat]
  cases s
  · simp [Nat.testBit_lt_two_pow hm]
  · simp only [if_true]
    rw [Nat.testBit_two_pow_add_eq, Nat.testBit_lt_two_pow hm]
    simp

/-- A magnitude pattern up to that of 1.0 stands for at most `2^149` units (40_numerics.md R121). -/
theorem unitsOf_le_one {m : Nat} (hm : m ≤ 0x3F800000) : unitsOf 32 m ≤ 2 ^ 149 := by
  have hp : prec 32 - 1 = 23 := by decide
  unfold unitsOf
  simp only [hp]
  split
  · next h => exact le_trans (le_of_lt h) (by norm_num)
  · next h =>
    have hdm := Nat.div_add_mod m (2 ^ 23)
    have hlt := Nat.mod_lt m (show 0 < 2 ^ 23 by norm_num)
    have hq : m / 2 ^ 23 ≤ 127 := by omega
    rcases Nat.lt_or_ge (m / 2 ^ 23) 127 with h1 | h1
    · have : (2 ^ 23 + m % 2 ^ 23) * 2 ^ (m / 2 ^ 23 - 1) ≤ 2 ^ 24 * 2 ^ 125 :=
        Nat.mul_le_mul (by omega) (Nat.pow_le_pow_right (by norm_num) (by omega))
      exact le_trans this (by norm_num)
    · have hq' : m / 2 ^ 23 = 127 := by omega
      have hr : m % 2 ^ 23 = 0 := by omega
      rw [hq', hr]
      norm_num

/-- A binary32 pattern with magnitude at most that of 1.0 has a value in `[-1, 1]` (40_numerics.md R136, T3). -/
theorem rat_packFp_le_one (s : Bool) {m : Nat} (hm : m ≤ 0x3F800000) :
    ∃ v : ℚ, Fp.rat? (.pat (packFp 32 s m)) = some v ∧ |v| ≤ 1 := by
  have hm' : m < 2 ^ (32 - 1) := by norm_num; omega
  have hmag := magOf_packFp (w := 32) (by norm_num) s hm'
  have hfin : isFiniteBits (packFp 32 s m) = true := by
    unfold isFiniteBits
    rw [hmag]
    simp [infMag]
    omega
  refine ⟨_, by simp [Fp.rat?, Fp.units?, hfin]; rfl, ?_⟩
  have hu := unitsOf_le_one hm
  have hul : unitLog 32 = 149 := by decide
  have habs : |((svalOf (packFp 32 s m) : Int) : ℚ)| = (unitsOf 32 m : ℚ) := by
    unfold svalOf
    rw [hmag]
    split <;> simp
  rw [abs_div, habs, hul, abs_of_pos (by positivity), div_le_one (by positivity)]
  exact_mod_cast hu

/-- Both halves of `TRIG` are finite and in `[-1, 1]` (40_numerics.md R136, T2 and T3). -/
theorem trig_le_one (r m : Nat) :
    (∃ v : ℚ, Fp.rat? (cos2pi32 r m) = some v ∧ |v| ≤ 1) ∧ (∃ v : ℚ, Fp.rat? (sin2pi32 r m) = some v ∧ |v| ≤ 1) := by
  have h1 := rat_packFp_le_one false (m := 0x3F800000) le_rfl
  have h2 := rat_packFp_le_one true (m := 0x3F800000) le_rfl
  have h0 := rat_packFp_le_one false (m := 0) (by norm_num)
  refine ⟨?_, ?_⟩
  · unfold cos2pi32
    split; · exact h1
    split; · exact h0
    split; · exact h2
    split; · exact h0
    exact rat_packFp_le_one _ (by have := (Config.trigCos r m).2.isLt; omega)
  · unfold sin2pi32
    split; · exact h0
    split; · exact h1
    split; · exact h0
    split; · exact h2
    exact rat_packFp_le_one _ (by have := (Config.trigSin r m).2.isLt; omega)

/-- Every `TRIG` is accurate to 2, so a claim with the premise `TrigAccurate err` is not empty. -/
theorem trigAccurate_two : TrigAccurate 2 := by
  intro r m _
  obtain ⟨⟨c, hc, hc1⟩, ⟨v, hv, hv1⟩⟩ := trig_le_one r m
  have bound : ∀ (q : ℚ) (x : ℝ), |q| ≤ 1 → |x| ≤ 1 → |(q : ℝ) - x| ≤ 2 := by
    intro q x hq hx
    have hq' : |(q : ℝ)| ≤ 1 := by exact_mod_cast hq
    rw [abs_le] at *
    constructor <;> linarith [hq'.1, hq'.2, hx.1, hx.2]
  exact ⟨⟨c, hc, bound _ _ hc1 (Real.abs_cos_le_one _)⟩, ⟨v, hv, bound _ _ hv1 (Real.abs_sin_le_one _)⟩⟩

end Sys2Proof.Machine
end

