-- ==== Sys2Proof/Laws/PerInstr.lean ====
section
/-! SUPPORT. Statements made instruction by instruction: every command of the syntax has legal fields (30_encoding.md
R93, R94). -/
namespace Sys2Proof.Laws.WellFormedFields

/-- The command's fields are legal. -/
def Statement (i : Instr) : Prop := i.wellFormed = true

theorem nop : Statement .nop := by
  show Instr.wellFormed .nop = true
  decide

theorem fir (src dst : BufIx) (tb : BankIx) : Statement (.fir src dst tb) := by
  simp [Statement, Instr.wellFormed, Instr.fields, Fields.wellFormed, Opcode.ofCode, Opcode.code, Fields.unusedZero,
    Opcode.uses]

theorem xlate (src dst : BufIx) (fcp : Bool) : Statement (.xlate src dst fcp) := by
  simp [Statement, Instr.wellFormed, Instr.fields, Fields.wellFormed, Opcode.ofCode, Opcode.code, Fields.unusedZero,
    Opcode.uses]

theorem decim (src dst : BufIx) (aab : BankIx) : Statement (.decim src dst aab) := by
  simp [Statement, Instr.wellFormed, Instr.fields, Fields.wellFormed, Opcode.ofCode, Opcode.code, Fields.unusedZero,
    Opcode.uses]

theorem sqmag (src dst : BufIx) : Statement (.sqmag src dst) := by
  simp [Statement, Instr.wellFormed, Instr.fields, Fields.wellFormed, Opcode.ofCode, Opcode.code, Fields.unusedZero,
    Opcode.uses]

theorem fmdisc (src dst : BufIx) : Statement (.fmdisc src dst) := by
  simp [Statement, Instr.wellFormed, Instr.fields, Fields.wellFormed, Opcode.ofCode, Opcode.code, Fields.unusedZero,
    Opcode.uses]

theorem amdem (src dst : BufIx) (tb aab hpb : BankIx) (fcp rum : Bool) :
    Statement (.amdem src dst tb aab hpb fcp rum) := by
  simp [Statement, Instr.wellFormed, Instr.fields, Fields.wellFormed, Opcode.ofCode, Opcode.code, Fields.unusedZero,
    Opcode.uses]

theorem fmdem (src dst : BufIx) (tb aab : BankIx) (fcp : Bool) : Statement (.fmdem src dst tb aab fcp) := by
  simp [Statement, Instr.wellFormed, Instr.fields, Fields.wellFormed, Opcode.ofCode, Opcode.code, Fields.unusedZero,
    Opcode.uses]

theorem ssbdem (src dst : BufIx) (aab : BankIx) (fcp : Bool) : Statement (.ssbdem src dst aab fcp) := by
  simp [Statement, Instr.wellFormed, Instr.fields, Fields.wellFormed, Opcode.ofCode, Opcode.code, Fields.unusedZero,
    Opcode.uses]

end Sys2Proof.Laws.WellFormedFields
end

