-- ==== Sys2Proof/Laws/Step.lean ====
section
/-! SUPPORT. What the step, the host port and the dispatch can do, case by case. -/
namespace Sys2Proof.Machine

/-! ### The host port (46_system_and_host.md R222, R223, R225) -/

/-- A read answers on the port and advances the draw counter at most; it changes nothing else (20_memory.md R68). -/
theorem hostRead_cases (bits : Nat) (addr : Word) (s : State) :
    (s.performs bits addr.toNat = false ∧ s.hostRead bits addr = { s with port := .busError }) ∨
    (s.performs bits addr.toNat = true ∧ inReg addr.toNat = true ∧
      s.hostRead bits addr = { s with port := .data (s.regValue (regAt addr.toNat)) }) ∨
    (s.performs bits addr.toNat = true ∧ inReg addr.toNat = false ∧ s.busy = true ∧
      s.hostRead bits addr = { s with port := .data (Config.freeWord s.draws), draws := s.draws + 1 }) ∨
    (s.performs bits addr.toNat = true ∧ inReg addr.toNat = false ∧ s.busy = false ∧
      s.hostRead bits addr = { s with port := .data (s.observeWord addr.toNat), draws := s.draws + 1 }) := by
  unfold State.hostRead
  dsimp only
  by_cases h1 : s.performs bits addr.toNat = false
  · exact Or.inl ⟨h1, by rw [if_pos h1]⟩
  have h1' : s.performs bits addr.toNat = true := by simpa using h1
  by_cases h2 : inReg addr.toNat = true
  · exact Or.inr (Or.inl ⟨h1', h2, by rw [if_neg h1, if_pos h2]⟩)
  have h2' : inReg addr.toNat = false := by simpa using h2
  by_cases h3 : s.busy = true
  · exact Or.inr (Or.inr (Or.inl ⟨h1', h2', h3, by rw [if_neg h1, if_neg h2, if_pos h3]⟩))
  · exact Or.inr (Or.inr (Or.inr ⟨h1', h2', by simpa using h3, by rw [if_neg h1, if_neg h2, if_neg h3]⟩))

/-- A write gets a bus error and changes nothing, or goes to a register, or to memory. -/
theorem hostWrite_cases (bits : Nat) (addr v : Word) (s : State) :
    (s.performs bits addr.toNat = false ∧ s.hostWrite bits addr v = { s with port := .busError }) ∨
    (s.performs bits addr.toNat = true ∧ inReg addr.toNat = true ∧
      s.hostWrite bits addr v = { s.writeReg (regAt addr.toNat) v with port := .written }) ∨
    (s.performs bits addr.toNat = true ∧ inReg addr.toNat = false ∧
      s.hostWrite bits addr v = { s.writeMem addr.toNat v with port := .written }) := by
  unfold State.hostWrite
  dsimp only
  by_cases h1 : s.performs bits addr.toNat = false
  · exact Or.inl ⟨h1, by rw [if_pos h1]⟩
  have h1' : s.performs bits addr.toNat = true := by simpa using h1
  by_cases h2 : inReg addr.toNat = true
  · exact Or.inr (Or.inl ⟨h1', h2, by rw [if_neg h1, if_pos h2]⟩)
  · exact Or.inr (Or.inr ⟨h1', by simpa using h2, by rw [if_neg h1, if_neg h2]⟩)

/-- Byte `k` of the word a host read returns is the byte observed at `a + k` (20_memory.md R60). -/
theorem observeWord_byte (s : State) (a : Nat) {k : Nat} (hk : k < 4) :
    (s.observeWord a).extractLsb' (8 * k) 8 = s.observeByte (a + k) := by
  have h : (s.observeWord a).toNat = (((s.observeByte (a + 3)).toNat * 256 + (s.observeByte (a + 2)).toNat) * 256 +
      (s.observeByte (a + 1)).toNat) * 256 + (s.observeByte a).toNat := by
    show (s.observeByte (a + 3) ++ s.observeByte (a + 2) ++ s.observeByte (a + 1) ++ s.observeByte a).toNat = _
    have cat : ∀ (x : Nat) (b : Byte), x <<< 8 ||| b.toNat = x * 256 + b.toNat := fun x b => by
      rw [← Nat.shiftLeft_add_eq_or_of_lt b.isLt, Nat.shiftLeft_eq]
    simp only [BitVec.toNat_append, cat]
  apply BitVec.eq_of_toNat_eq
  have h0 := (s.observeByte a).isLt
  have h1 := (s.observeByte (a + 1)).isLt
  have h2 := (s.observeByte (a + 2)).isLt
  have h3 := (s.observeByte (a + 3)).isLt
  rw [BitVec.extractLsb'_toNat, h, Nat.shiftRight_eq_div_pow]
  obtain rfl | rfl | rfl | rfl : k = 0 ∨ k = 1 ∨ k = 2 ∨ k = 3 := by omega
  all_goals norm_num
  all_goals omega
/-- An aligned 32-bit transaction in a bank or a buffer is performed, on memory (20_memory.md R66, R70). -/
theorem performs_memory {s : State} {a : Nat} (h4 : a % 4 = 0)
    (h : InTapBank s.params a ∨ InSampleBuffer s.params a) : s.performs 32 a = true ∧ inReg a = false := by
  constructor
  · simp only [State.performs, h4, inTap, inBuf, inTapB, inBufJ, tapAddr, tapEnd, bufAddr, bufEnd]
    rcases h with ⟨b, h⟩ | ⟨b, h⟩ <;> fin_cases b <;> simp at h <;> simp [h]
  · rcases h with ⟨b, h⟩ | ⟨b, h⟩ <;> simp [inReg] <;> omega

/-- Which register a word of the register block names, and whether a running command owns it: `CMD` and the ignored words
apart, a write of any word but `STATUS` and `IEN` is dropped while `BUSY = 1` (10_state.md R21, R29; 20_memory.md R74). -/
theorem regAt_cases {n : Nat} (h4 : n % 4 = 0) (hn : n ≤ 0xFFF) :
    (n = 0x000 ∧ regAt n = .id) ∨ (n = 0x004 ∧ regAt n = .status) ∨ (n = 0x008 ∧ regAt n = .ien) ∨
    (n = 0x00C ∧ regAt n = .cmd) ∨ (n = 0x010 ∧ regAt n = .errinfo) ∨
    (reservedOffset n = true ∧ regAt n = .reserved) ∨
    (readOnlyOffset n = false ∧ n ≠ 0x004 ∧ n ≠ 0x008 ∧ n ≠ 0x00C ∧ (regAt n).owned = true) := by
  have word : ∀ k < 1024,
      (4 * k = 0x000 ∧ regAt (4 * k) = .id) ∨ (4 * k = 0x004 ∧ regAt (4 * k) = .status) ∨
      (4 * k = 0x008 ∧ regAt (4 * k) = .ien) ∨ (4 * k = 0x00C ∧ regAt (4 * k) = .cmd) ∨
      (4 * k = 0x010 ∧ regAt (4 * k) = .errinfo) ∨ (reservedOffset (4 * k) = true ∧ regAt (4 * k) = .reserved) ∨
      (readOnlyOffset (4 * k) = false ∧ 4 * k ≠ 0x004 ∧ 4 * k ≠ 0x008 ∧ 4 * k ≠ 0x00C ∧
        (regAt (4 * k)).owned = true) := by
    decide +kernel
  obtain ⟨k, rfl⟩ : ∃ k, n = 4 * k := ⟨n / 4, by omega⟩
  exact word k (by omega)

/-- The `CMD` write is accepted exactly when neither `BUSY` nor `ERR` is set (30_encoding.md R91). -/
theorem writeCmd_cases (w : Word) (s : State) :
    ((s.busy = true ∨ s.err = true) ∧ s.writeCmd w = { s with ovr := true }) ∨
    (s.busy = false ∧ s.err = false ∧
      s.writeCmd w = { s with cmd := w, errinfo := 0, done := false, busy := true }) := by
  unfold State.writeCmd
  cases h1 : s.busy <;> cases h2 : s.err <;> simp [State.setOvr, h1, h2]

/-- A memory write performed with `BUSY = 0` keeps the canonical form. -/
theorem writeMem_wf {s : State} {bits a : Nat} (hw : Memory.wf s.params s.mem = true) (hp : s.performs bits a = true)
    (hr : inReg a = false) (v : Word) : Memory.wf s.params (s.writeMem a v).mem = true := by
  unfold State.writeMem
  split
  · exact hw
  · simp only [State.performs, hr, Bool.false_or, Bool.and_eq_true, beq_iff_eq] at hp
    exact wf_writeWord a v hw (word_mapped hp.1.2 hp.2)

/-- No register write touches memory or the parameters. -/
theorem writeReg_mem (r : Reg) (v : Word) (s : State) :
    (s.writeReg r v).mem = s.mem ∧ (s.writeReg r v).params = s.params := by
  unfold State.writeReg
  split
  · exact ⟨rfl, rfl⟩
  · cases r <;> simp [State.storeReg]

/-! ### Dispatch -/

/-- A data command ends in `commit` of its result, with its own source and destination; `NOP` does nothing. -/
theorem exec_eq_commit (i : Instr) (s : State) :
    (i = .nop ∧ exec i s = .next s) ∨
    ∃ src dst r, i.src? = some src ∧ i.dst? = some dst ∧ exec i s = .next (s.commit src dst r) := by
  cases i with
  | nop => exact Or.inl ⟨rfl, rfl⟩
  | fir src dst tb => exact Or.inr ⟨src, dst, _, rfl, rfl, rfl⟩
  | xlate src dst fcp => exact Or.inr ⟨src, dst, _, rfl, rfl, rfl⟩
  | decim src dst aab => exact Or.inr ⟨src, dst, _, rfl, rfl, rfl⟩
  | sqmag src dst => exact Or.inr ⟨src, dst, _, rfl, rfl, rfl⟩
  | fmdisc src dst => exact Or.inr ⟨src, dst, _, rfl, rfl, rfl⟩
  | amdem src dst tb aab hpb fcp rum => exact Or.inr ⟨src, dst, _, rfl, rfl, rfl⟩
  | fmdem src dst tb aab fcp => exact Or.inr ⟨src, dst, _, rfl, rfl, rfl⟩
  | ssbdem src dst aab fcp => exact Or.inr ⟨src, dst, _, rfl, rfl, rfl⟩

/-! ### The step (00_scope.md R12) -/

theorem step_empty {s : State} (h : s.schedule = []) : step s = engineTurn s := by
  unfold step; rw [h]

theorem step_engine {s : State} {rest : List Turn} (h : s.schedule = .engine :: rest) :
    step s = engineTurn { s with schedule := rest } := by
  unfold step; rw [h]

theorem step_host {s : State} {t : HostTxn} {rest : List Turn} (h : s.schedule = .host t :: rest) :
    step s = .next (State.hostStep t { s with schedule := rest }) := by
  unfold step; rw [h]

theorem complete_legal {s : State} {i : Instr} (h : decode s.cmd = .ok i) : complete s = finishOutcome (exec i s) := by
  unfold complete; rw [h]

theorem complete_illegal {s : State} {r : Illegal} (h : decode s.cmd = .error r) :
    complete s = .next { s with errinfo := 0x101, err := true, busy := false, done := true } := by
  unfold complete; rw [h]; rfl

end Sys2Proof.Machine
end

