-- ==== Sys2Proof/Tests/Slice0.lean ====
section
/-! SUPPORT. The author's tests: ill-formed fields refused, words decoded, one step per command against the examples of
the spec, and for every statement with hypotheses a witness that meets them. -/
namespace Sys2Proof.Tests
open Sys2Proof.Machine

-- The tests are elaborated one after another: each waits for the kernel, and many at once would hold a thread each.
set_option Elab.async false

/-! ### Ill-formed fields are refused (30_encoding.md R93, R94) -/

theorem test_illformed_opcode : (Fields.wellFormed ⟨0x6, 0, 0, 0, 0, 0, false, false, 0⟩) = false := by decide
theorem test_illformed_nop_src : (Fields.wellFormed ⟨0x0, 1, 0, 0, 0, 0, false, false, 0⟩) = false := by decide
theorem test_illformed_nop_dst : (Fields.wellFormed ⟨0x0, 0, 1, 0, 0, 0, false, false, 0⟩) = false := by decide
theorem test_illformed_decim_tb : (Fields.wellFormed ⟨0x3, 0, 1, 1, 0, 0, false, false, 0⟩) = false := by decide
theorem test_illformed_fir_aab : (Fields.wellFormed ⟨0x1, 0, 1, 0, 1, 0, false, false, 0⟩) = false := by decide
theorem test_illformed_fmdem_hpb : (Fields.wellFormed ⟨0x9, 0, 1, 0, 0, 1, false, false, 0⟩) = false := by decide
theorem test_illformed_sqmag_fcp : (Fields.wellFormed ⟨0x4, 0, 1, 0, 0, 0, true, false, 0⟩) = false := by decide
theorem test_illformed_ssbdem_rum : (Fields.wellFormed ⟨0xA, 0, 1, 0, 0, 0, false, true, 0⟩) = false := by decide
theorem test_illformed_reserved : (Fields.wellFormed ⟨0x8, 0, 1, 0, 0, 0, true, true, 1⟩) = false := by decide

/-! ### Words written out from 30_encoding.md R90, R93: reserved, RUM, FCP, HPB, AAB, TB, DST, SRC, OPC -/

theorem test_decode_nop : decode 0b0000000000000000_0_0_00_00_00_00_00_0000 = .ok .nop := by decide
theorem test_decode_fir : decode 0b0000000000000000_0_0_00_00_10_01_00_0001 = .ok (.fir 0 1 2) := by decide
theorem test_decode_xlate : decode 0b0000000000000000_0_1_00_00_00_01_00_0010 = .ok (.xlate 0 1 true) := by decide
theorem test_decode_decim : decode 0b0000000000000000_0_0_00_11_00_10_01_0011 = .ok (.decim 1 2 3) := by decide
theorem test_decode_sqmag : decode 0b0000000000000000_0_0_00_00_00_01_11_0100 = .ok (.sqmag 3 1) := by decide
theorem test_decode_fmdisc : decode 0b0000000000000000_0_0_00_00_00_11_01_0101 = .ok (.fmdisc 1 3) := by decide
theorem test_decode_amdem :
    decode 0b0000000000000000_1_0_11_10_01_01_00_1000 = .ok (.amdem 0 1 1 2 3 false true) := by decide
theorem test_decode_fmdem : decode 0b0000000000000000_0_1_00_01_10_11_00_1001 = .ok (.fmdem 0 3 2 1 true) := by decide
theorem test_decode_ssbdem : decode 0b0000000000000000_0_1_00_11_00_00_10_1010 = .ok (.ssbdem 2 0 3 true) := by decide

/-- Words of 30_encoding.md R94 with one bit that must be 0, and reserved opcodes. -/
theorem test_decode_illegal :
    decode 0x00010001 = .error .mustBeZero ∧ decode 0x00000441 = .error .mustBeZero ∧
    decode 0x00000142 = .error .mustBeZero ∧ decode 0x00004043 = .error .mustBeZero ∧
    decode 0x00004045 = .error .mustBeZero ∧ decode 0x00001049 = .error .mustBeZero ∧
    decode 0x0000800A = .error .mustBeZero ∧ decode 0x00000007 = .error .reservedOpcode ∧
    decode 0x0000000B = .error .reservedOpcode ∧ decode 0xFFFFFFFF = .error .reservedOpcode := by decide

/-! ### A small state -/

def cells32 (a : Nat) (v : Word) : List Host.Cell := (List.range 4).map fun k => (a + k, byteOf v k)
def cells64 (a : Nat) (v : BitVec 64) : List Host.Cell := (List.range 8).map fun k => (a + k, byteOf v k)
def words32 (a : Nat) (l : List Word) : List Host.Cell := l.zipIdx.flatMap fun p => cells32 (a + 4 * p.2) p.1
def words64 (a : Nat) (l : List (BitVec 64)) : List Host.Cell := l.zipIdx.flatMap fun p => cells64 (a + 8 * p.2) p.1

/-- Bank 0 holds `[1]`, bank 1 `[1, 1]`, bank 2 `[-1, 2, -1]`, bank 3 nothing. Buffer 0 is `CS` at 4 Hz,
`(1,0), (0,1), (-1,0), (0,-1), (1,0)`; buffer 1 `RS` at 8 Hz, `1, 2, 3, 4`; buffer 2 `RD` at 8 Hz, `3, 0.5`; buffer 3 is
empty. `FC = -1`, `FSOUT = 2`, `FCUTOFF = 0`, `FMDEV = 1`. -/
def demo : State :=
  { State.reset with
    fc := 0xFFFFFFFF
    fsout := 2
    fcutoff := 0
    fmdev := 1
    bd := #v[⟨true, 0, 5, 4⟩, ⟨true, 1, 4, 8⟩, ⟨true, 2, 2, 8⟩, Desc.reset]
    ntaps := #v[1, 2, 3, 0]
    mem := words64 0x10000 [0x3FF0000000000000]
      ++ words64 0x18000 [0x3FF0000000000000, 0x3FF0000000000000]
      ++ words64 0x20000 [0xBFF0000000000000, 0x4000000000000000, 0xBFF0000000000000]
      ++ words32 0x10000000 [0x3F800000, 0, 0, 0x3F800000, 0xBF800000, 0, 0, 0xBF800000, 0x3F800000, 0]
      ++ words32 0x18000000 [0x3F800000, 0x40000000, 0x40400000, 0x40800000]
      ++ words64 0x20000000 [0x4008000000000000, 0x3FE0000000000000] }

/-- The state after a command. -/
def after (i : Instr) (s : State) : State :=
  match exec i s with
  | .next t => t
  | .fault _ => s
  | .refused _ => s

/-- The first `n` words of a buffer. -/
def wordsOf (s : State) (j : BufIx) (n : Nat) : List (Option Nat) :=
  (List.range n).map fun k => leNat? (Memory.readBytes s.mem (bufAddr j + 4 * k) 4)

/-! ### One step of each command -/

/-- 46_system_and_host.md R220. -/
theorem test_nop : exec .nop demo = .next demo := rfl

/-- 41_fir.md R160, R161; the forward pass of the example of 43_decimate.md R180. -/
theorem test_fir : wordsOf (after (.fir 1 3 1) demo) 3 5 =
    [some 0x3F800000, some 0x40400000, some 0x40A00000, some 0x40E00000, none] := by decide +kernel
/-- 60_exceptions.md R243, R250. -/
theorem test_fir_bad_taps : (after (.fir 1 2 3) demo).errinfo = 0x00010901 ∧
    (after (.fir 1 2 3) demo).desc 2 = ⟨false, 2, 2, 8⟩ ∧ wordsOf (after (.fir 1 2 3) demo) 2 1 = [none] := by
  decide +kernel

/-- 45_demodulators.md R210, the products of the example. -/
theorem test_xlate : wordsOf (after (.xlate 0 3 true) demo) 3 8 =
    [some 0x3F800000, some 0, some 0x3F800000, some 0, some 0x3F800000, some 0x80000000, some 0x3F800000, some 0] := by
  decide +kernel
/-- 60_exceptions.md R244. -/
theorem test_xlate_bad_type : (after (.xlate 1 3 true) demo).errinfo = 0x00010401 := by decide +kernel

/-- The example of 43_decimate.md R180. -/
theorem test_decim : wordsOf (after (.decim 1 3 1) { demo with fsout := 4 }) 3 3 =
      [some 0x40800000, some 0x41400000, none] ∧
    (after (.decim 1 3 1) { demo with fsout := 4 }).desc 3 = ⟨true, 1, 2, 4⟩ := by decide +kernel
/-- 43_decimate.md R180: the identity does not look at the bank. -/
theorem test_decim_identity : (after (.decim 2 3 3) { demo with fsout := 8 }).desc 3 = ⟨true, 2, 2, 8⟩ := by
  decide +kernel

/-- 44_detectors.md R191, by hand: `3² = 9`, `0.5² = 0.25`. -/
theorem test_sqmag : wordsOf (after (.sqmag 2 3) demo) 3 4 =
    [some 0, some 0x40220000, some 0, some 0x3FD00000] := by decide +kernel
/-- The example of 44_detectors.md R190. -/
theorem test_sqmag_complex : sqMagCx ⟨.pat 0x40400000, .pat 0x40800000⟩ = .pat 0x41C80000 := by decide +kernel

/-- The example of 44_detectors.md R193. -/
theorem test_fmdisc : wordsOf (after (.fmdisc 0 3) demo) 3 5 =
    [some 0x3F3504F3, some 0x3F3504F3, some 0x3F3504F4, some 0x3F3504F3, none] := by decide +kernel
/-- 60_exceptions.md R247. -/
theorem test_fmdisc_bad_fmdev : (after (.fmdisc 0 3) { demo with fmdev := 0 }).errinfo = 0x00010C01 := by decide +kernel

/-- 45_demodulators.md R200 on `1, 2, 3, 4`, by hand: squares `1, 4, 9, 16`, filtered with `[-1, 2, -1]`. -/
theorem test_amdem_rumble :
    wordsOf (after (.amdem 1 3 0 3 2 false true) { demo with fsout := 8, fcutoff := 1, frumble := 1 }) 3 4 =
      [some 0xBF800000, some 0xC0000000, some 0xC0000000, some 0xC0000000] := by decide +kernel
/-- 45_demodulators.md R201: a cutoff at half the rate is a fault. -/
theorem test_amdem_nyquist : (after (.amdem 0 3 0 0 0 true false) { demo with fcutoff := 1 }).errinfo = 0x00030A01 := by
  decide +kernel

/-- The example of 45_demodulators.md R205, entered after its stage 1. -/
theorem test_fmdem : wordsOf (after (.fmdem 0 3 0 0 false) demo) 3 3 = [some 0x3F3504F3, some 0x3F3504F4, none] := by
  decide +kernel
/-- 60_exceptions.md R246: `3 · FMDEV ≥ fs`. -/
theorem test_fmdem_nyquist : (after (.fmdem 0 3 0 0 false) { demo with fmdev := 2 }).errinfo = 0x00020A01 := by
  decide +kernel

/-- The example of 45_demodulators.md R210, with one sample more. -/
theorem test_ssbdem : wordsOf (after (.ssbdem 0 3 0 true) demo) 3 7 =
    [some 0x3F800000, some 0, some 0x3F800000, some 0, some 0x3F800000, some 0, none] := by decide +kernel
/-- 60_exceptions.md R249. -/
theorem test_ssbdem_bad_type : (after (.ssbdem 1 3 0 true) demo).errinfo = 0x00020401 := by decide +kernel

/-! ### Witnesses: states and operands that meet the hypotheses of the statements -/

/-- `demo` with the word `w` latched and running. -/
def running (w : Word) : State := { demo with cmd := w, busy := true }

theorem witness_StepRunsDecoded :
    ((running 0x00000241).busy = true ∧ decode (running 0x00000241).cmd = .ok (.fir 0 1 2) ∧
      (running 0x00000241).schedule = []) ∧
    ({ running 0x00000241 with schedule := [.engine, .host .reset] }.schedule = .engine :: [.host .reset]) ∧
    (decodeTableWord 32 0x00000241 = some (.fir 0 1 2) ∧ decodeTableWord 16 0xFFFF0241 = some (.fir 0 1 2)) ∧
    { demo with schedule := [.host (.read 32 0x004)] }.schedule = .host (.read 32 0x004) :: [] ∧
    { demo with schedule := [.host (.write 32 0x014 7), .engine] }.schedule = .host (.write 32 0x014 7) :: [.engine] ∧
    { demo with schedule := [.host .reset] }.schedule = .host .reset :: [] := by
  decide +kernel

theorem witness_IllegalWordTouchesNoBuffer :
    (running 0x00000006).busy = true ∧ (running 0x00000006).schedule = [] ∧
      (fieldsOf (running 0x00000006).cmd).wellFormed = false ∧
      { running 0x00000006 with schedule := [.engine] }.schedule = .engine :: [] := by decide +kernel

theorem witness_EveryCommandEnds :
    (running 0x00000241).busy = true ∧ (running 0x00000241).schedule = [] ∧
      { running 0x00000241 with schedule := [.engine, .host .reset] }.schedule = .engine :: [.host .reset] := by
  decide +kernel

theorem witness_IdleEngine :
    State.reset.busy = false ∧ State.reset.schedule = [] ∧
      { State.reset with schedule := [.engine] }.schedule = .engine :: [] := by decide

theorem witness_StepKeepsInv : Inv (running 0x000000C1) ∧ ∃ t, step (running 0x000000C1) = .next t :=
  ⟨⟨by decide +kernel, by decide +kernel, by decide +kernel, by decide +kernel⟩, _, rfl⟩

theorem witness_FirstFaultReported :
    commandFault (.amdem 0 3 0 0 2 true true) demo = none ∧
      commandFault (.amdem 0 3 0 0 1 true true) demo = some 0x00050B01 ∧
      commandFault (.fmdem 0 3 0 0 true) { demo with fmdev := 2 } = some 0x00020A01 ∧
      commandFault (.ssbdem 0 3 3 true) demo = some 0x00030901 ∧ commandFault .nop demo = none := by decide +kernel

theorem witness_AllOrNothing :
    (Instr.src? (.fir 1 3 1) = some 1 ∧ Instr.dst? (.fir 1 3 1) = some 3 ∧ commandFault (.fir 1 3 1) demo = none) ∧
    commandFault (.fir 1 1 1) demo = some 0x00000201 ∧ commandFault (.fir 1 3 3) demo = some 0x00010901 := by
  decide +kernel

theorem witness_SourceNeverWritten :
    (∃ t, exec (.fir 1 3 1) demo = .next t) ∧ Instr.src? (.fir 1 3 1) = some 1 ∧
      Instr.src? (.fir 1 1 1) = some 1 ∧ Instr.dst? (.fir 1 1 1) = some 1 := ⟨⟨_, rfl⟩, rfl, rfl, rfl⟩

theorem witness_OutcomeIgnoresSamples :
    SameButMemory demo { demo with mem := [] } ∧ ∃ t, exec (.fir 1 3 1) demo = .next t := ⟨rfl, _, rfl⟩

theorem witness_ResultIgnoresRest :
    Instr.src? (.fir 1 3 1) = some 1 ∧ Instr.dst? (.fir 1 3 1) = some 3 ∧
      SameInputs demo { demo with done := true, ovr := true, errIE := true } 1 ∧
      commandFault (.fir 1 3 1) demo = none :=
  ⟨rfl, rfl, ⟨rfl, fun _ _ _ => rfl, fun _ _ _ _ => rfl, rfl, ⟨rfl, rfl, rfl, rfl, rfl⟩, ⟨rfl, rfl⟩⟩,
    by decide +kernel⟩

theorem witness_NopResult :
    (running 0x00000000).busy = true ∧ (running 0x00000000).schedule = [] ∧ (running 0x00000000).cmd = 0x00000000 := by
  decide +kernel

theorem usable_cs : UsableSource demo 0 3 .cs :=
  ⟨by decide, by decide, by decide, by decide, by decide, by decide⟩
theorem usable_rs : UsableSource demo 1 3 .rs :=
  ⟨by decide, by decide, by decide, by decide, by decide, by decide⟩
theorem usable_rd : UsableSource demo 2 3 .rd :=
  ⟨by decide, by decide, by decide, by decide, by decide, by decide⟩
theorem usable_bank : UsableBank demo 0 ∧ UsableBank demo 1 ∧ UsableBank demo 2 :=
  ⟨⟨by decide, by decide⟩, ⟨by decide, by decide⟩, ⟨by decide, by decide⟩⟩

theorem witness_FirResult :
    (UsableSource demo 2 3 .rd ∧ UsableBank demo 2) ∧
      (∀ k < 64 / 8, Memory.read demo.mem (0x20008 + k) = some ((0x4000000000000000 : BitVec 64).extractLsb' (8 * k) 8)) ∧
      (∀ k < 32 / 8, Memory.read demo.mem (0x18000004 + k) = some ((0x40000000 : Word).extractLsb' (8 * k) 8)) ∧
      ∃ k < 32 / 8, Memory.read demo.mem (0x28000000 + k) = none :=
  ⟨⟨usable_rd, usable_bank.2.2⟩, by decide +kernel, by decide +kernel, 0, by decide +kernel⟩
theorem witness_XlateAbsentCopies : UsableSource demo 1 3 .rs := usable_rs
theorem witness_XlatePresentResult : UsableSource demo 0 3 .cs := usable_cs
theorem witness_DecimIdentityCopies :
    UsableSource { demo with fsout := 8 } 1 3 .rs ∧ { demo with fsout := 8 }.fsout = (demo.desc 1).fs :=
  ⟨⟨by decide, by decide, by decide, by decide, by decide, by decide⟩, by decide⟩
theorem witness_DecimResult :
    UsableSource demo 0 3 .cs ∧ UsableSource demo 1 3 .rs ∧ UsableSource demo 2 3 .rd ∧ UsableBank demo 1 ∧
      1 ≤ demo.fsout.toNat ∧ demo.fsout.toNat < (demo.desc 0).fs.toNat ∧ demo.fsout.toNat < (demo.desc 1).fs.toNat ∧
      demo.fsout.toNat < (demo.desc 2).fs.toNat ∧ 1 ≤ 1 :=
  ⟨usable_cs, usable_rs, usable_rd, usable_bank.2.1, by decide, by decide, by decide, by decide, le_rfl⟩
theorem witness_SqmagResult : UsableSource demo 0 3 .cs ∧ UsableSource demo 1 3 .rs ∧ UsableSource demo 2 3 .rd :=
  ⟨usable_cs, usable_rs, usable_rd⟩
theorem witness_FmdiscResult : UsableSource demo 0 3 .cs ∧ demo.fmdev ≠ 0#32 ∧ (demo.desc 0).len.toNat ≠ 1 :=
  ⟨usable_cs, by decide, by decide⟩
theorem witness_AmdemResult :
    UsableSource demo 0 3 .cs ∧ (true = true → ElemType.cs = .cs) ∧ UsableDecimation demo 0 (demo.desc 0).fs ∧
      2 * demo.fcutoff.toNat < demo.fsout.toNat ∧ UsableBank demo 0 ∧
      (true = true → 2 * demo.frumble.toNat < demo.fsout.toNat ∧ UsableBank demo 2 ∧ (demo.tapCount 2).toNat % 2 = 1) :=
  ⟨usable_cs, fun _ => rfl, ⟨by decide, Or.inr ⟨by decide, usable_bank.1⟩⟩, by decide, usable_bank.1,
    fun _ => ⟨by decide, usable_bank.2.2, by decide⟩⟩
theorem witness_FmdemResult :
    UsableSource demo 0 3 .cs ∧ 3 * demo.fmdev.toNat < (demo.desc 0).fs.toNat ∧ UsableBank demo 0 ∧ demo.fmdev ≠ 0#32 ∧
      (demo.desc 0).len.toNat ≠ 1 ∧ UsableDecimation demo 0 (demo.desc 0).fs :=
  ⟨usable_cs, by decide, usable_bank.1, by decide, by decide, ⟨by decide, Or.inr ⟨by decide, usable_bank.1⟩⟩⟩
theorem witness_SsbdemResult :
    UsableSource demo 0 3 .cs ∧ (true = true → ElemType.cs = .cs) ∧ UsableDecimation demo 0 (demo.desc 0).fs :=
  ⟨usable_cs, fun _ => rfl, ⟨by decide, Or.inr ⟨by decide, usable_bank.1⟩⟩⟩

/-- The samples of buffer 0 of `demo`, translated. -/
theorem demo_translated : (translate (if true then some demo.fc.toInt else none) (demo.srcSeq 0 .cs)).data =
    .cs [⟨.pat 0x3F800000, .pat 0⟩, ⟨.pat 0x3F800000, .pat 0⟩, ⟨.pat 0x3F800000, .pat 0x80000000⟩,
      ⟨.pat 0x3F800000, .pat 0⟩, ⟨.pat 0x3F800000, .pat 0⟩] := by decide +kernel

theorem witness_SsbdemIsXlateThenDecim :
    UsableSource demo 0 3 .cs ∧ (true = true → ElemType.cs = .cs) ∧ UsableDecimation demo 0 (demo.desc 0).fs ∧
      (1 : BufIx) ≠ 0 ∧ (1 : BufIx) ≠ 3 ∧
      (translate (if true then some demo.fc.toInt else none) (demo.srcSeq 0 .cs)).data.specified := by
  refine ⟨usable_cs, fun _ => rfl, ⟨by decide, Or.inr ⟨by decide, usable_bank.1⟩⟩, by decide, by decide, ?_⟩
  rw [demo_translated]
  simp [Samples.specified]

theorem witness_RoundsToNearestEven : ((32 = 32 ∨ 32 = 64) ∧ 1 ≤ 1) ∧ (64 = 32 ∨ 64 = 64) := by decide
theorem witness_PatternsAndValues :
    (32 = 32 ∨ 32 = 64) ∧ (infMag 32 - 1 < infMag 32 ∧ infMag 32 ≤ infMag 32) ∧ 0 < infMag 32 ∧ 1 ≤ 1 := by decide
/-- A NaN pattern of either sign, or "some NaN", beside a specified operand. -/
theorem nan_operands :
    (Fp.pat (0x7F800001 : Word)).IsNaN ∧ (Fp.pat (0xFFFFFFFF : Word)).IsNaN ∧ (Fp.nan : F32).IsNaN ∧
      (Fp.pat (0xFFF0000000000001 : BitVec 64)).IsNaN ∧ (Fp.nan : F64).IsNaN ∧ (Fp.nan : F32).Specified ∧
      one32.Specified ∧ k64.Specified := by
  refine ⟨?_, ?_, trivial, ?_, trivial, trivial, trivial, trivial⟩ <;>
    (show isNaNBits _ = true; decide +kernel)
theorem witness_AddRule :
    (isFiniteBits (0x7F7FFFFF : Word) = true ∧ svalOf (0x7F7FFFFF : Word) + svalOf (0x7F7FFFFF : Word) ≠ 0) ∧
      (isFiniteBits (0x80000000 : Word) = true ∧ svalOf (0x80000000 : Word) + svalOf (0x80000000 : Word) = 0) ∧
      isZeroBits (0x00000001 : Word) = false ∧ (Fp.nan : F32).IsNaN ∧ (Fp.nan : F32).Specified ∧ one32.Specified :=
  ⟨by decide +kernel, by decide +kernel, by decide +kernel, nan_operands.2.2.1, trivial, trivial⟩
theorem witness_MulRule :
    isFiniteBits (0x7F7FFFFF : Word) = true ∧ isZeroBits (0x80000000 : Word) = true ∧
      isFiniteBits (0x80000000 : Word) = true ∧ isInfBits (0xFF800000 : Word) = true ∧
      (isNaNBits (0x7F800000 : Word) = false ∧ isZeroBits (0x7F800000 : Word) = false) ∧
      (Fp.pat (0x7F800001 : Word)).IsNaN ∧ (Fp.nan : F32).Specified :=
  ⟨by decide +kernel, by decide +kernel, by decide +kernel, by decide +kernel, by decide +kernel, nan_operands.1, trivial⟩
theorem witness_DivRule :
    (isFiniteBits (0x00000001 : Word) = true ∧ isZeroBits (0x00000001 : Word) = false) ∧
      isZeroBits (0x80000000 : Word) = true ∧ isInfBits (0x7F800000 : Word) = true ∧
      (Fp.nan : F64).IsNaN ∧ k64.Specified :=
  ⟨by decide +kernel, by decide +kernel, by decide +kernel, trivial, trivial⟩
theorem witness_NegFlipsSignOnly : (32 = 32 ∨ 32 = 64) ∧ 31 < 32 := by decide
theorem witness_CompareRule :
    ((Fp.pat (0x7F800001 : Word)).IsNaN ∧ (Fp.nan : F32).IsNaN) ∧ isFiniteBits (0x80000000 : Word) = true ∧
      Fp.rat? (.pat (0x80000000 : Word)) = some 0 ∧ isInfBits (0x7F800000 : Word) = true := by
  refine ⟨⟨nan_operands.1, trivial⟩, by decide +kernel, ?_, by decide +kernel⟩
  have h : Fp.units? (.pat (0x80000000 : Word)) = some 0 := by decide +kernel
  unfold Fp.rat?
  rw [h]
  simp
theorem witness_ConversionRule :
    (isFiniteBits (0x7FEFFFFFFFFFFFFF : BitVec 64) = true ∧ isFiniteBits (0x7F7FFFFF : Word) = true) ∧
      (isInfBits (0xFFF0000000000000 : BitVec 64) = true ∧ isInfBits (0x7F800000 : Word) = true) ∧
      ((Fp.pat (0xFFF0000000000001 : BitVec 64)).IsNaN ∧ (Fp.nan : F64).IsNaN ∧ (Fp.nan : F32).IsNaN) ∧
      isNaNBits (0x7F800000 : Word) = false ∧ 2 ^ 53 - 1 < 2 ^ 53 :=
  ⟨by decide +kernel, by decide +kernel, ⟨nan_operands.2.2.2.1, trivial, trivial⟩, by decide +kernel, by norm_num⟩
theorem witness_IntegerLaws : 1 ≤ 1 ∧ 1 ≤ 4294967295 ∧ 3 ∣ 6 := by decide
theorem witness_PhaseIndexLaw : 1 ≤ 1 ∧ 1 ≤ 4294967295 := by decide
theorem witness_TrigProperties :
    (0 < 1 ∧ 4 * 0 = 0) ∧ (1 < 4 ∧ 4 * 1 = 4) ∧ (1 < 2 ∧ 4 * 1 = 2 * 2) ∧ (3 < 4 ∧ 4 * 3 = 3 * 4) := by decide
theorem witness_AtanProperties :
    ((Fp.pat (0x7F800001 : Word)).IsNaN ∧ (Fp.nan : F32).IsNaN ∧ one32.Specified) ∧
      isNaNBits (0x7F800000 : Word) = false ∧
      (isZeroBits (0x80000000 : Word) = true ∧ isFiniteBits (0x00000000 : Word) = true ∧
        signOf (0x00000000 : Word) = false) ∧
      (isFiniteBits (0xFF7FFFFF : Word) = true ∧ signOf (0xFF7FFFFF : Word) = true) ∧
      (isFiniteBits (0x00000001 : Word) = true ∧ isZeroBits (0x00000001 : Word) = false) :=
  ⟨⟨nan_operands.1, trivial, trivial⟩, by decide +kernel, by decide +kernel, by decide +kernel, by decide +kernel⟩
theorem witness_CmulByOne :
    isFiniteBits (0x7F7FFFFF : Word) = true ∧ isZeroBits (0x7F7FFFFF : Word) = false ∧
      isFiniteBits (0x80000001 : Word) = true ∧ isZeroBits (0x80000001 : Word) = false := by decide +kernel
theorem witness_FmscalePositiveNormal : 1 ≤ 1 ∧ 1 < 2 ^ 32 ∧ 1 ≤ 4294967295 ∧ 4294967295 < 2 ^ 32 := by decide
theorem witness_FirSumInOrder :
    0 < [negOne32, one32].length ∧ 0 < [one32].length ∧
      (([negOne32, one32].length ≤ 2) ∧ ([pi32, one32][2 - [negOne32, one32].length]?) = some pi32) := by decide
theorem witness_FirNeverNegativeZero : (32 = 32 ∨ 32 = 64) ∧ zeroFp 32 false ∈ firSeq [one32] [zeroFp 32 true] := by
  decide +kernel
theorem witness_FirCausal :
    1 < [one32, pi32, negOne32].length ∧ 1 < [one32, pi32].length ∧
      [one32, pi32, negOne32].take (1 + 1) = [one32, pi32].take (1 + 1) ∧
      ∀ c ∈ [one32, one32, negOne32], ∃ b, c = .pat b ∧ isFiniteBits b = true := by
  refine ⟨by decide, by decide, by decide, ?_⟩
  intro c hc
  simp only [List.mem_cons, List.not_mem_nil, or_false, or_self_left] at hc
  rcases hc with rfl | rfl
  · exact ⟨0x3F800000, rfl, by decide⟩
  · exact ⟨0xBF800000, rfl, by decide⟩

/-- The exact value of the pattern of 1.0. -/
theorem rat_one : Fp.rat? one32 = some 1 := by
  have h : Fp.units? one32 = some (2 ^ 149) := by decide +kernel
  simp only [Fp.rat?, h, unitLog]
  norm_num
/-- The exact value of +0. -/
theorem rat_zero : Fp.rat? (zeroFp 32 false) = some 0 := by
  have h : Fp.units? (zeroFp 32 false) = some 0 := by decide +kernel
  simp [Fp.rat?, h]

theorem witness_FirMeetsIdeal :
    (32 = 32 ∨ 32 = 64) ∧ [one32].map Fp.rat? = [(1 : ℚ)].map some ∧
      ∀ n < [(1 : ℚ)].length, FirExactAt 32 [1] [1] n := by
  refine ⟨Or.inl rfl, by simp [rat_one], ?_⟩
  intro n hn
  obtain rfl : n = 0 := by simpa using hn
  refine ⟨?_, ?_⟩
  · intro k hk _
    obtain rfl : k = 0 := by simpa using hk
    exact ⟨one32, by simp [rat_one]⟩
  · intro j hj
    have : j = 0 ∨ j = 1 := by simp at hj; omega
    rcases this with rfl | rfl
    · exact ⟨zeroFp 32 false, by simp [rat_zero]⟩
    · exact ⟨one32, by simp [rat_one]⟩

theorem witness_MultiplierPeriodic : 1 ≤ 4 ∧ ((4 : Int) ∣ 5 * 1 - 1 * 1) ∧ ((4 : Int) ∣ -4 * 1) := by decide
theorem witness_MultiplierAccurate : TrigAccurate 2 ∧ 1 ≤ 1 := ⟨trigAccurate_two, le_rfl⟩
theorem witness_SqMagNeverNegative :
    sqMagCx ⟨.pat 0x40400000, .pat 0xC0800000⟩ = .pat 0x41C80000 ∧
      Fp.mul (.pat (0xBFF0000000000000 : BitVec 64)) (.pat 0xBFF0000000000000) = .pat 0x3FF0000000000000 := by
  decide +kernel
theorem witness_ConstantDiscriminatesToZero :
    isNaNBits (0x00000000 : Word) = false ∧ isNaNBits (0xFF800000 : Word) = false ∧ 1 ≤ 4294967295 ∧
      4294967295 < 2 ^ 32 := by decide
theorem witness_WrappedDifferenceInRange :
    magOf (0x40490FDB : Word) ≤ 0x40490FDB ∧ magOf (0xC0490FDB : Word) ≤ 0x40490FDB := by decide

theorem witness_BusErrorChangesNothing :
    16 ≠ 32 ∧ (0x00000006 : Word).toNat % 4 ≠ 0 ∧
      0xFFF < (0x00001000 : Word).toNat ∧
        (∀ b : BankIx, ¬(0x10000 + 0x8000 * b.val ≤ (0x00001000 : Word).toNat ∧
          (0x00001000 : Word).toNat < 0x10000 + 0x8000 * b.val + 8 * demo.params.maxTaps)) ∧
        ∀ j : BufIx, ¬(0x10000000 + 0x8000000 * j.val ≤ (0x00001000 : Word).toNat ∧
          (0x00001000 : Word).toNat < 0x10000000 + 0x8000000 * j.val + 8 * demo.params.maxLen) := by
  decide +kernel
theorem witness_MemoryWordWritten :
    demo.busy = false ∧ (0x000107FC : Word).toNat % 4 = 0 ∧ InTapBank demo.params (0x000107FC : Word).toNat ∧
      (0x10000000 : Word).toNat % 4 = 0 ∧ InSampleBuffer demo.params (0x10000000 : Word).toNat ∧
      ∀ k < 4, Memory.read demo.mem ((0x10000000 : Word).toNat + k) = some ((0x3F800000 : Word).extractLsb' (8 * k) 8) :=
  ⟨by decide, by decide +kernel, ⟨0, by decide +kernel⟩, by decide +kernel, ⟨0, by decide +kernel⟩, by decide +kernel⟩
theorem witness_RegisterWordWritten :
    demo.busy = false ∧ readOnlyOffset (0x000 : Word).toNat = true ∧ readOnlyOffset (0x010 : Word).toNat = true ∧
      readOnlyOffset (0x028 : Word).toNat = true ∧ readOnlyOffset (0x07C : Word).toNat = true ∧
      readOnlyOffset (0xFFC : Word).toNat = true := by decide +kernel
/-- Witnesses for `STATUS`, `IEN`, the ignored words `ERRINFO` and 0x03C, the dropped words `CMD`, `FC` and `BD[3].FS`, the
last word of the block, and the first word of a buffer. -/
theorem witness_BusyOwnership :
    (running 0x00000241).busy = true ∧
    ([(0x004 : Word), 0x008, 0x010, 0x03C, 0x00C, 0x014, 0x078, 0xFFC].all fun a =>
      decide (a.toNat % 4 = 0 ∧ a.toNat ≤ 0xFFF)) = true ∧
    ([(0x010 : Word), 0x03C, 0xFFC].all fun a => readOnlyOffset a.toNat) = true ∧
    ([(0x00C : Word), 0x014, 0x078].all fun a => !readOnlyOffset a.toNat) = true ∧
    (0x18000000 : Word).toNat % 4 = 0 ∧ InSampleBuffer (running 0x00000241).params (0x18000000 : Word).toNat ∧
    0xFFF < (0x18000000 : Word).toNat :=
  ⟨by decide +kernel, by decide +kernel, by decide +kernel, by decide +kernel, by decide +kernel, ⟨1, by decide +kernel⟩,
    by decide +kernel⟩
theorem witness_RegisterWordRead :
    reservedOffset (0x028 : Word).toNat = true ∧ reservedOffset (0x04C : Word).toNat = true ∧
      reservedOffset (0x090 : Word).toNat = true ∧ reservedOffset (0xFFC : Word).toNat = true ∧
      reservedOffset (0x024 : Word).toNat = false ∧ reservedOffset (0x08C : Word).toNat = false := by decide +kernel
theorem witness_CommandIssueAndCompletion :
    ((running 0x00000241).busy = true ∧ (running 0x00000241).schedule = [] ∧
      decode (running 0x00000241).cmd = .ok (.fir 0 1 2)) ∧
    decode (running 0x00000006).cmd = .error .reservedOpcode := by decide +kernel
theorem witness_ReturnFromError : { demo with err := true }.busy = false := by decide
theorem witness_ResetValues :
    { running 0x00000241 with schedule := [.host .reset] }.schedule = .host .reset :: [] := by decide +kernel

end Sys2Proof.Tests
end

section
/-! The register block on the host port, the identification word and what reset leaves (10_state.md R27, R40). -/
namespace Sys2Proof.Machine

/-! ### Transactions on a word of the register block (46_system_and_host.md R222, R223) -/

/-- An aligned 32-bit transaction up to 0xFFF is performed, on a register, in every state (20_memory.md R66, R70). -/
theorem performs_register (s : State) {a : Nat} (h4 : a % 4 = 0) (ha : a ≤ 0xFFF) :
    s.performs 32 a = true ∧ inReg a = true := by
  have hreg : inReg a = true := decide_eq_true ha
  exact ⟨by simp [State.performs, h4, hreg], hreg⟩

theorem hostRead_register (s : State) {addr : Word} (h4 : addr.toNat % 4 = 0) (ha : addr.toNat ≤ 0xFFF) :
    s.hostRead 32 addr = { s with port := .data (s.regValue (regAt addr.toNat)) } := by
  obtain ⟨hperf, hreg⟩ := performs_register s h4 ha
  simp [State.hostRead, hperf, hreg]

theorem hostWrite_register (s : State) {addr : Word} (v : Word) (h4 : addr.toNat % 4 = 0) (ha : addr.toNat ≤ 0xFFF) :
    s.hostWrite 32 addr v = { s.writeReg (regAt addr.toNat) v with port := .written } := by
  obtain ⟨hperf, hreg⟩ := performs_register s h4 ha
  simp [State.hostWrite, hperf, hreg]

/-! ### `ID` (10_state.md R27) -/

@[simp] theorem State.regValue_id (s : State) : s.regValue .id = 0x52444501 := rfl

/-- A write of `ID` is ignored, and sets no `OVR` either, whatever `BUSY` is. -/
@[simp] theorem State.writeReg_id (v : Word) (s : State) : s.writeReg .id v = s := rfl

/-- Settles O50: offset 0 names `ID`, whose value is a constant and whose write is ignored. -/
theorem idConstant : Obligations.IdConstant := by
  intro s
  have h4 : (0x00000000 : Word).toNat % 4 = 0 := rfl
  have ha : (0x00000000 : Word).toNat ≤ 0xFFF := Nat.zero_le _
  have hid : regAt (0x00000000 : Word).toNat = .id := rfl
  constructor
  · rw [hostRead_register s h4 ha, hid, State.regValue_id]
  · intro v
    rw [hostWrite_register s v h4 ha, hid, State.writeReg_id]

/-! ### Reset (10_state.md R40; 70_reset_and_hazards.md R280, R281) -/

@[simp] theorem State.desc_hostReset (j : BufIx) (s : State) : s.hostReset.desc j = Desc.reset :=
  State.desc_reset j

@[simp] theorem State.tapCount_hostReset (b : BankIx) (s : State) : s.hostReset.tapCount b = 0 :=
  State.tapCount_reset b

/-- Reset leaves neither `DONE` nor `ERR` set, so no interrupt is asserted (60_exceptions.md R260). -/
@[simp] theorem State.irq_hostReset (s : State) : s.hostReset.irq = false := by
  simp [State.irq]

/-- A scheduled reset is performed whatever `BUSY` is: a running command is abandoned. -/
theorem step_reset {s : State} {rest : List Turn} (h : s.schedule = .host .reset :: rest) :
    step s = .next (State.hostReset { s with schedule := rest }) :=
  step_host h

/-- The engine's turn with `BUSY = 0` changes nothing (10_state.md R25). -/
theorem engineTurn_idle {s : State} (h : s.busy = false) : engineTurn s = .next s := by
  simp [engineTurn, h]

/-- With `BUSY = 0` and no turn left, the machine stays as it is. -/
theorem step_idle {s : State} (hbusy : s.busy = false) (hsched : s.schedule = []) : step s = .next s := by
  rw [step_empty hsched, engineTurn_idle hbusy]

/-- Settles O59: the scheduled reset is performed on any state, each field then reads as `State.hostReset` sets it, and
the engine is idle because `BUSY = 0`. -/
theorem resetValues : Obligations.ResetValues := by
  intro s rest h
  have idle : rest = [] → step (State.hostReset { s with schedule := rest }) =
      .next (State.hostReset { s with schedule := rest }) :=
    fun hrest => step_idle (State.hostReset_busy _) hrest
  exact ⟨_, step_reset h, by simpa [Desc.reset, State.id] using idle⟩

end Sys2Proof.Machine
end

section
/-! What no command writes (20_memory.md R78). A data command touches its destination only, by `commit_onlyBuffer`, once its
result fits a buffer; and its source is another buffer, or the command ends as `SRC_DST_ALIAS`. -/
namespace Sys2Proof.Machine

/-! ### The memory regions are disjoint, whatever the parameters are (00_scope.md R7; 20_memory.md R70) -/

/-- The tap banks lie below the sample buffers. -/
theorem tapEnd_le_bufAddr (p : Params) (b : BankIx) (j : BufIx) : tapEnd p b ≤ bufAddr j := by
  have hb := b.isLt
  have hp := p.maxTapsLess1.isLt
  simp only [tapEnd, tapAddr, bufAddr, Params.maxTaps]
  omega

/-- A sample buffer ends before the next one begins. -/
theorem bufEnd_le_next (p : Params) (j : BufIx) : bufEnd p j ≤ bufAddr j + 0x08000000 := by
  have hp := p.maxLenLess1.isLt
  simp only [bufEnd, Params.maxLen]
  omega

/-- No address lies in two sample buffers. -/
theorem not_mem_other_buffer {p : Params} {j k : BufIx} (h : k ≠ j) {a : Nat} (h1 : bufAddr k ≤ a) (h2 : a < bufEnd p k) :
    ¬(bufAddr j ≤ a ∧ a < bufEnd p j) := by
  have hne : k.val ≠ j.val := fun e => h (Fin.ext e)
  have hj := bufEnd_le_next p j
  have hk := bufEnd_le_next p k
  simp only [bufAddr] at *
  omega

/-! ### Every stage answers a sequence that fits a buffer (10_state.md R31) -/

/-- The sequence is not empty and has at most `MAXLEN` elements. -/
def SampleSeq.Fits (p : Params) (q : SampleSeq) : Prop := 1 ≤ q.data.length ∧ q.data.length ≤ p.maxLen

/-- The answer, if it is a sequence at all, fits a buffer. -/
def AnswerFits (p : Params) (r : Except CmdError SampleSeq) : Prop := ∀ q, r = .ok q → q.Fits p

theorem answerFits_ok {p : Params} {q : SampleSeq} (h : q.Fits p) : AnswerFits p (.ok q) := by
  intro q' hq
  cases hq
  exact h

theorem answerFits_error (p : Params) (e : CmdError) : AnswerFits p (.error e) := by
  intro q hq
  cases hq

/-- Two stages in a row. -/
theorem answerFits_bind {p : Params} {r : Except CmdError SampleSeq} {f : SampleSeq → Except CmdError SampleSeq}
    (hr : AnswerFits p r) (hf : ∀ q, q.Fits p → AnswerFits p (f q)) : AnswerFits p (r >>= f) := by
  cases r with
  | ok q => exact hf q (hr q rfl)
  | error e => exact answerFits_error p e

/-- A test, or the load of a bank, before a stage. -/
theorem answerFits_after {α : Type} {p : Params} (c : Except CmdError α) {f : α → Except CmdError SampleSeq}
    (hf : ∀ a, AnswerFits p (f a)) : AnswerFits p (c >>= f) := by
  cases c with
  | ok a => exact hf a
  | error e => exact answerFits_error p e

theorem loadSource_fits (s : State) (src dst : BufIx) : AnswerFits s.params (s.loadSource src dst) := by
  intro q hq
  obtain ⟨T, hu, rfl⟩ := loadSource_eq_ok.mp hq
  have hlen : (s.desc src).len.toNat ≠ 0 := fun e => hu.nonempty (BitVec.eq_of_toNat_eq e)
  rw [SampleSeq.Fits, State.srcSeq_length]
  exact ⟨Nat.one_le_iff_ne_zero.mpr hlen, hu.fits⟩

section Stages
variable {p : Params} {q : SampleSeq} (hq : q.Fits p)
include hq

theorem filterSeq_fits (h : List F64) : (filterSeq h q).Fits p := by
  rwa [SampleSeq.Fits, filterSeq_length]

theorem sqMagSeq_fits : (sqMagSeq q).Fits p := by
  rwa [SampleSeq.Fits, sqMagSeq_length]

theorem filterStage_fits (s : State) (b : BankIx) (stage : Nat) : AnswerFits p (s.filterStage b stage q) :=
  answerFits_after _ fun h => answerFits_ok (filterSeq_fits hq h)

theorem rumbleStage_fits (s : State) (hpb : BankIx) : AnswerFits p (s.rumbleStage hpb q) :=
  answerFits_after _ fun _ => answerFits_after _ fun h => answerFits_after _ fun _ =>
    answerFits_ok (filterSeq_fits hq h)

theorem translateStage_fits (fc : Option Int) (stage : Nat) : AnswerFits p (translateStage fc stage q) := by
  refine answerFits_after _ fun _ => answerFits_ok ?_
  rwa [SampleSeq.Fits, translate_length]

/-- The discriminator's output is one element shorter, and its test refuses a single element (44_detectors.md R196). -/
theorem discriminateStage_fits (fmdev : Word) (stage : Nat) : AnswerFits p (discriminateStage fmdev stage q) := by
  obtain ⟨hpos, hmax⟩ := hq
  rcases discriminateStage_cases fmdev stage q with ⟨htype, -, hne, hok⟩ | ⟨c, -, herr⟩
  · rw [hok]
    refine answerFits_ok ?_
    rw [SampleSeq.Fits, (discriminate_shape fmdev htype).2]
    omega
  · rw [herr]
    exact answerFits_error p _

theorem decimate_fits (s : State) (b : BankIx) (stage : Nat) : AnswerFits p (s.decimate b s.fsout stage q) := by
  obtain ⟨hpos, hmax⟩ := hq
  rcases decimate_cases s b stage q with ⟨hu, hok⟩ | ⟨-, c, -, herr⟩
  · rw [hok]
    obtain ⟨-, -, hpos', hle⟩ := decimateSeq_shape hu hpos
    exact answerFits_ok ⟨hpos', hle.trans hmax⟩
  · rw [herr]
    exact answerFits_error p _

end Stages

/-! ### What a command commits -/

/-- A data command loads its source, with the operand tests first, and commits what its stages then answer, which fits a
buffer; `NOP` does nothing (30_encoding.md R93; 60_exceptions.md R241). -/
theorem exec_eq_commit_loadSource (i : Instr) (s : State) :
    (i = .nop ∧ exec i s = .next s) ∨
    ∃ src dst, i.src? = some src ∧ i.dst? = some dst ∧
      ∃ stages : SampleSeq → Except CmdError SampleSeq,
        exec i s = .next (s.commit src dst (s.loadSource src dst >>= stages)) ∧
        ∀ q, q.Fits s.params → AnswerFits s.params (stages q) := by
  cases i with
  | nop => exact .inl ⟨rfl, rfl⟩
  | fir src dst tb => exact .inr ⟨src, dst, rfl, rfl, _, rfl, fun _ hq => filterStage_fits hq s tb 1⟩
  | xlate src dst fcp => exact .inr ⟨src, dst, rfl, rfl, _, rfl, fun _ hq => translateStage_fits hq (s.carrier fcp) 1⟩
  | decim src dst aab => exact .inr ⟨src, dst, rfl, rfl, _, rfl, fun _ hq => decimate_fits hq s aab 1⟩
  | sqmag src dst => exact .inr ⟨src, dst, rfl, rfl, _, rfl, fun _ hq => answerFits_ok (sqMagSeq_fits hq)⟩
  | fmdisc src dst => exact .inr ⟨src, dst, rfl, rfl, _, rfl, fun _ hq => discriminateStage_fits hq s.fmdev 1⟩
  | amdem src dst tb aab hpb fcp rum =>
    refine .inr ⟨src, dst, rfl, rfl, _, rfl, fun q hq => ?_⟩
    refine answerFits_bind (translateStage_fits hq (s.carrier fcp) 1) fun q1 h1 => ?_
    refine answerFits_bind (decimate_fits h1 s aab 2) fun q2 h2 => ?_
    refine answerFits_after _ fun _ => answerFits_bind (filterStage_fits h2 s tb 3) fun q3 h3 => ?_
    cases rum with
    | false => exact answerFits_ok (sqMagSeq_fits h3)
    | true => exact rumbleStage_fits (sqMagSeq_fits h3) s hpb
  | fmdem src dst tb aab fcp =>
    refine .inr ⟨src, dst, rfl, rfl, _, rfl, fun q hq => ?_⟩
    refine answerFits_bind (translateStage_fits hq (s.carrier fcp) 1) fun q1 h1 => ?_
    refine answerFits_after _ fun _ => answerFits_bind (filterStage_fits h1 s tb 2) fun q2 h2 => ?_
    exact answerFits_bind (discriminateStage_fits h2 s.fmdev 3) fun q3 h3 => decimate_fits h3 s aab 4
  | ssbdem src dst aab fcp =>
    refine .inr ⟨src, dst, rfl, rfl, _, rfl, fun q hq => ?_⟩
    exact answerFits_bind (translateStage_fits hq (s.carrier fcp) 2) fun q1 h1 => decimate_fits h1 s aab 3

theorem loadSource_alias (s : State) (j : BufIx) : s.loadSource j j = .error ⟨.srcDstAlias, 0⟩ := by
  rw [State.loadSource, checkOperands_alias]

/-- A data command whose source is also its destination sets `ERR` and `ERRINFO`, and nothing else. -/
theorem commit_loadSource_alias (s : State) (j : BufIx) (stages : SampleSeq → Except CmdError SampleSeq) :
    s.commit j j (s.loadSource j j >>= stages) = { s with errinfo := 0x00000201, err := true } := by
  have hr : (s.loadSource j j >>= stages) = .error ⟨.srcDstAlias, 0⟩ := by
    rw [loadSource_alias]
    rfl
  rw [commit_error hr, raiseErr_untouched (by intro p hp; cases hp; rfl)]
  rfl

/-- The frame of `OnlyBuffer` leaves every tap bank as it is. -/
theorem OnlyBuffer.read_tapBank {j : BufIx} {s t : State} (h : OnlyBuffer j s t) (b : BankIx) {a : Nat}
    (ha : a < tapEnd s.params b) : Memory.read t.mem a = Memory.read s.mem a := by
  have := tapEnd_le_bufAddr s.params b j
  exact h.memory a (by omega)

/-- The frame of `OnlyBuffer` leaves every other buffer as it is. -/
theorem OnlyBuffer.read_otherBuffer {j k : BufIx} {s t : State} (h : OnlyBuffer j s t) (hk : k ≠ j) {a : Nat}
    (h1 : bufAddr k ≤ a) (h2 : a < bufEnd s.params k) : Memory.read t.mem a = Memory.read s.mem a :=
  h.memory a (not_mem_other_buffer hk h1 h2)

/-- Settles O12: `NOP` changes nothing. A data command stays within its destination, which meets no bank and no other
buffer; if the destination is the source itself, the load refuses it and only `ERR` and `ERRINFO` change. -/
theorem sourceNeverWritten : Obligations.SourceNeverWritten := by
  intro i s t ht
  rcases exec_eq_commit_loadSource i s with ⟨rfl, hx⟩ | ⟨src, dst, hsrc, hdst, stages, hx, hfits⟩
  · cases hx.symm.trans ht
    exact ⟨rfl, rfl, rfl, rfl, rfl, rfl, fun _ _ _ _ => rfl, nofun, nofun⟩
  · cases hx.symm.trans ht
    have hq := answerFits_bind (loadSource_fits s src dst) hfits
    have frame := commit_onlyBuffer (src := src) (dst := dst) fun q h => (hq q h).2
    obtain ⟨hfc, hfsout, hfcutoff, hfrumble, hfmdev⟩ := frame.parameters
    refine ⟨hfc, hfsout, hfcutoff, hfrumble, hfmdev, frame.tapCounts, fun b a _ ha => frame.read_tapBank b ha, ?_, ?_⟩
    · intro j hj
      obtain rfl : src = j := Option.some.inj (hsrc.symm.trans hj)
      by_cases h : src = dst
      · subst h
        rw [commit_loadSource_alias]
        exact ⟨rfl, fun _ _ _ => rfl⟩
      · exact ⟨frame.descriptors src h, fun a h1 h2 => frame.read_otherBuffer h h1 h2⟩
    · intro j hj hj'
      obtain rfl : src = j := Option.some.inj (hsrc.symm.trans hj)
      obtain rfl : dst = src := Option.some.inj (hdst.symm.trans hj')
      rw [commit_loadSource_alias]
      exact ⟨rfl, rfl⟩

end Sys2Proof.Machine
end

section
/-! A command from the write of `CMD` to the end of its complete step (30_encoding.md R91, R94). -/
namespace Sys2Proof.Machine

/-- No dropping rule but its own applies to `CMD`: acceptance decides, whatever `BUSY` is. -/
@[simp] theorem State.writeReg_cmd (w : Word) (s : State) : s.writeReg .cmd w = s.writeCmd w := rfl

/-- The write of `CMD` on the host port. -/
theorem hostWrite_cmd (w : Word) (s : State) :
    State.hostWrite 32 0x00C w s =
      if s.busy = true ∨ s.err = true then { s with ovr := true, port := .written }
      else { s with cmd := w, errinfo := 0, done := false, busy := true, port := .written } := by
  have h4 : (0x00C : Word).toNat % 4 = 0 := rfl
  have ha : (0x00C : Word).toNat ≤ 0xFFF := by decide
  have hcmd : regAt (0x00C : Word).toNat = .cmd := rfl
  rw [hostWrite_register s w h4 ha, hcmd, State.writeReg_cmd]
  rcases writeCmd_cases w s with ⟨hdrop, hw⟩ | ⟨hbusy, herr, hw⟩
  · rw [hw, if_pos hdrop]
  · rw [hw, if_neg (by simp [hbusy, herr])]

/-- Every command has a next state in every state. -/
theorem exec_next (i : Instr) (s : State) : ∃ t, exec i s = .next t := by
  rcases exec_eq_commit i s with ⟨-, hx⟩ | ⟨src, dst, r, -, -, hx⟩
  · exact ⟨s, hx⟩
  · exact ⟨s.commit src dst r, hx⟩

/-- The engine's turn with `BUSY = 1` is the complete step. -/
theorem engineTurn_busy {s : State} (h : s.busy = true) : engineTurn s = complete s := by
  rw [engineTurn, if_pos h]

/-- A legal word: the complete step is the command's own effect, then `BUSY <- 0`, `DONE <- 1`. -/
theorem complete_exec {s : State} {i : Instr} (h : decode s.cmd = .ok i) :
    ∃ t, exec i s = .next t ∧ complete s = .next { t with busy := false, done := true } := by
  obtain ⟨t, ht⟩ := exec_next i s
  have hfin : finishOutcome (exec i s) = .next t.finish := by rw [ht, finishOutcome]
  exact ⟨t, ht, (complete_legal h).trans hfin⟩

/-- Settles O55: the write of `CMD` is `hostWrite_cmd`; the unscheduled turn of the busy engine is the complete step, whose
outcome the decoding of the latched word decides. -/
theorem commandIssueAndCompletion : Obligations.CommandIssueAndCompletion := by
  refine ⟨fun s w => hostWrite_cmd w s, fun s hbusy hsched => ?_⟩
  have hstep : step s = complete s := (step_empty hsched).trans (engineTurn_busy hbusy)
  rw [hstep]
  cases hd : decode s.cmd with
  | ok i => exact complete_exec hd
  | error r => exact complete_illegal hd

end Sys2Proof.Machine
end

section
/-! Rounding once, to nearest, ties to even (40_numerics.md R121, R122, R124): the values of the patterns are strictly
increasing, and `roundMag` picks the nearer of the two neighbours that enclose its operand. -/
namespace Sys2Proof.Machine

/-! ### The value of a magnitude pattern (40_numerics.md R121, R122) -/

/-- The weight of the implicit leading bit, `2^(p-1)`, which is also the number of patterns of one exponent. -/
def implicitBit (w : Nat) : Nat := 2 ^ (prec w - 1)

theorem implicitBit_pos (w : Nat) : 0 < implicitBit w := Nat.two_pow_pos _

theorem two_dvd_implicitBit (w : Nat) : 2 ∣ implicitBit w := by
  apply dvd_pow_self
  unfold prec
  split <;> decide

theorem prec_pos (w : Nat) : 1 ≤ prec w := by
  unfold prec
  split <;> decide

theorem unitsOf_subnormal {w m : Nat} (hm : m < implicitBit w) : unitsOf w m = m := if_pos hm

theorem unitsOf_normal {w : Nat} (q : Nat) {f : Nat} (hf : f < implicitBit w) :
    unitsOf w (q * implicitBit w + (implicitBit w + f)) = (implicitBit w + f) * 2 ^ q := by
  have hpos := implicitBit_pos w
  have hdef : 2 ^ (prec w - 1) = implicitBit w := rfl
  simp only [unitsOf, hdef]
  generalize implicitBit w = h at *
  have hbig : ¬ f + h * (q + 1) < h := by
    have := Nat.le_mul_of_pos_right h (show 0 < q + 1 from Nat.succ_pos q)
    omega
  rw [show q * h + (h + f) = f + h * (q + 1) by ring]
  simp only [hbig, if_false, Nat.add_mul_mod_self_left, Nat.add_mul_div_left _ _ hpos, Nat.mod_eq_of_lt hf,
    Nat.div_eq_of_lt hf, Nat.zero_add, Nat.add_sub_cancel]

/-- `n` spacings of `2^q` units are the pattern `q · 2^(p-1) + n`, up to and including the start of the next binade. -/
theorem unitsOf_spacings {w q n : Nat} (hn : n ≤ 2 * implicitBit w) (hq : q = 0 ∨ implicitBit w ≤ n) :
    unitsOf w (q * implicitBit w + n) = n * 2 ^ q := by
  rcases Nat.lt_or_ge n (implicitBit w) with hsub | hnorm
  · obtain rfl : q = 0 := hq.resolve_right (by omega)
    rw [Nat.zero_mul, Nat.zero_add, unitsOf_subnormal hsub, Nat.pow_zero, Nat.mul_one]
  · obtain ⟨f, rfl⟩ := Nat.exists_eq_add_of_le hnorm
    rcases Nat.lt_or_ge f (implicitBit w) with hf | hf
    · exact unitsOf_normal q hf
    · obtain rfl : f = implicitBit w := by omega
      have hnext := unitsOf_normal (w := w) (q + 1) (f := 0) (implicitBit_pos w)
      rw [Nat.succ_mul, Nat.add_zero, Nat.add_assoc] at hnext
      rw [hnext, Nat.pow_succ]
      ring

/-- Every pattern is a number of spacings. -/
theorem exists_spacings (w m : Nat) :
    ∃ q n, m = q * implicitBit w + n ∧ n < 2 * implicitBit w ∧ (q = 0 ∨ implicitBit w ≤ n) := by
  have hpos := implicitBit_pos w
  generalize implicitBit w = h at *
  rcases Nat.lt_or_ge m h with hlt | hge
  · exact ⟨0, m, by omega, by omega, .inl rfl⟩
  · obtain ⟨k, rfl⟩ := Nat.exists_eq_add_of_le hge
    have hmod := Nat.mod_lt k hpos
    have hdiv := Nat.div_add_mod k h
    refine ⟨k / h, h + k % h, ?_, by omega, .inr (by omega)⟩
    rw [Nat.mul_comm]
    omega

/-- A larger magnitude pattern stands for a larger value, and infinity's for one above every finite value. -/
theorem unitsOf_strictMono (w : Nat) : StrictMono (unitsOf w) := by
  refine strictMono_nat_of_lt_succ fun m => ?_
  obtain ⟨q, n, rfl, hn, hq⟩ := exists_spacings w m
  rw [Nat.add_assoc, unitsOf_spacings (by omega) hq, unitsOf_spacings (by omega) (hq.imp_right (by omega))]
  exact Nat.mul_lt_mul_of_pos_right (Nat.lt_succ_self n) (Nat.two_pow_pos q)

@[simp] theorem unitsOf_zero (w : Nat) : unitsOf w 0 = 0 := unitsOf_subnormal (implicitBit_pos w)

@[simp] theorem unitsOf_eq_zero {w m : Nat} : unitsOf w m = 0 ↔ m = 0 := by
  simpa using (unitsOf_strictMono w).injective.eq_iff (a := m) (b := 0)

/-! ### Rounding (40_numerics.md R124) -/

/-- `M` is the pattern nearest to `num / den` units among the neighbours `lo` and `lo + 1` that enclose it, the even one
in the middle. -/
structure RoundsBetween (w num den lo M : Nat) : Prop where
  below : unitsOf w lo * den ≤ num
  above : num < unitsOf w (lo + 1) * den
  nearer : M = if (unitsOf w lo + unitsOf w (lo + 1)) * den < 2 * num ∨
    ((unitsOf w lo + unitsOf w (lo + 1)) * den = 2 * num ∧ lo % 2 = 1) then lo + 1 else lo

/-- The spacing of the format at `num / den` units is `2^q` units, where `q` is as in `roundMag` (40_numerics.md R124). -/
theorem spacing_bounds {w v q : Nat} (hq : q = Nat.log2 v + 1 - prec w) :
    v / 2 ^ q < 2 * implicitBit w ∧ (q = 0 ∨ implicitBit w ≤ v / 2 ^ q) := by
  have hp := prec_pos w
  unfold implicitBit
  constructor
  · rw [Nat.div_lt_iff_lt_mul (Nat.two_pow_pos q), ← Nat.pow_succ', ← Nat.pow_add]
    exact lt_of_lt_of_le Nat.lt_log2_self (Nat.pow_le_pow_right Nat.two_pos (by omega))
  · refine or_iff_not_imp_left.mpr fun hne => ?_
    have hv : v ≠ 0 := by
      rintro rfl
      simp at hq
      omega
    rw [Nat.le_div_iff_mul_le (Nat.two_pow_pos q), ← Nat.pow_add]
    exact le_trans (Nat.pow_le_pow_right Nat.two_pos (by omega)) (Nat.log2_self_le hv)

/-- `round_F` encloses the operand between two neighbours and takes the nearer one, or infinity if that is larger. -/
theorem roundMag_between (w num : Nat) {den : Nat} (hden : 1 ≤ den) :
    ∃ lo M, roundMag w num den = min (infMag w) M ∧ RoundsBetween w num den lo M := by
  obtain ⟨q, hq⟩ : ∃ q, q = Nat.log2 (num / den) + 1 - prec w := ⟨_, rfl⟩
  obtain ⟨hlt, hge⟩ := spacing_bounds hq
  have hd : 0 < den * 2 ^ q := Nat.mul_pos hden (Nat.two_pow_pos q)
  rw [Nat.div_div_eq_div_mul] at hlt hge
  have hsplit := Nat.div_add_mod num (den * 2 ^ q)
  have hr := Nat.mod_lt num hd
  have hdef : 2 ^ (prec w - 1) = implicitBit w := rfl
  simp only [roundMag, hdef, ← hq]
  generalize num / (den * 2 ^ q) = n at *
  generalize num % (den * 2 ^ q) = r at *
  have hlo : unitsOf w (q * implicitBit w + n) * den = den * 2 ^ q * n := by
    rw [unitsOf_spacings hlt.le hge]
    ring
  have hhi : unitsOf w (q * implicitBit w + n + 1) * den = den * 2 ^ q * n + den * 2 ^ q := by
    rw [Nat.add_assoc, unitsOf_spacings hlt (hge.imp_right Nat.le_succ_of_le), Nat.succ_mul]
    ring
  have hodd : (q * implicitBit w + n) % 2 = n % 2 := by
    obtain ⟨k, hk⟩ := two_dvd_implicitBit w
    rw [hk, show q * (2 * k) + n = n + 2 * (q * k) by ring, Nat.add_mul_mod_self_left]
  refine ⟨q * implicitBit w + n, _, rfl, ?_, ?_, ?_⟩
  · rw [hlo]
    omega
  · rw [hhi]
    omega
  · rw [Nat.add_mul, hlo, hhi, hodd]
    simp only [Bool.or_eq_true, Bool.and_eq_true, decide_eq_true_eq, beq_iff_eq]
    split <;> split <;> omega

/-- The distance of a pattern from the operand; one of the two truncated differences is 0. -/
theorem unitsApart_eq (w m num den : Nat) :
    unitsApart w m num den = (unitsOf w m * den - num) + (num - unitsOf w m * den) := by
  unfold unitsApart
  omega

theorem unitsOf_mul_le (w den : Nat) {m m' : Nat} (hm : m ≤ m') : unitsOf w m * den ≤ unitsOf w m' * den :=
  Nat.mul_le_mul_right den ((unitsOf_strictMono w).monotone hm)

section Between
variable {w num den lo M : Nat} (h : RoundsBetween w num den lo M)
include h

theorem RoundsBetween.mul_lt {m m' : Nat} (hm : m < m') : unitsOf w m * den < unitsOf w m' * den := by
  have hden : 0 < den := Nat.pos_of_ne_zero fun h0 => by simpa [h0] using h.above
  exact Nat.mul_lt_mul_of_pos_right (unitsOf_strictMono w hm) hden

/-- No pattern is nearer to the operand than `M`, and another one equally near makes `M` even: a pattern up to `lo` is at
least as far as `lo`, one from `lo + 1` on at least as far as `lo + 1`. -/
theorem RoundsBetween.nearest (m : Nat) :
    unitsApart w M num den ≤ unitsApart w m num den ∧
      (m ≠ M → unitsApart w m num den = unitsApart w M num den → M % 2 = 0) := by
  have hbelow := h.below
  have habove := h.above
  have hM := h.nearer
  rw [Nat.add_mul] at hM
  simp only [unitsApart_eq]
  rcases Nat.lt_trichotomy m lo with hm | rfl | (hm : lo + 1 ≤ m)
  · have := h.mul_lt hm
    split at hM <;> subst hM <;> omega
  · split at hM <;> subst hM <;> omega
  · rcases Nat.eq_or_lt_of_le hm with rfl | hm'
    · split at hM <;> subst hM <;> omega
    · have := h.mul_lt hm'
      split at hM <;> subst hM <;> omega

/-- `M` lies above the pattern `k` exactly when the operand lies past the middle between `k` and `k + 1`, or in that middle
for an odd `k`. -/
theorem RoundsBetween.lt_iff (k : Nat) :
    k < M ↔ (unitsOf w k + unitsOf w (k + 1)) * den < 2 * num ∨
      ((unitsOf w k + unitsOf w (k + 1)) * den = 2 * num ∧ k % 2 = 1) := by
  have hbelow := h.below
  have habove := h.above
  have hM := h.nearer
  have hle : lo ≤ M ∧ M ≤ lo + 1 := by
    rw [hM]
    split <;> omega
  have hk := h.mul_lt (Nat.lt_add_one k)
  rcases Nat.lt_trichotomy k lo with (hlt : k + 1 ≤ lo) | rfl | (hgt : lo + 1 ≤ k)
  · have := unitsOf_mul_le w den hlt
    rw [Nat.add_mul]
    omega
  · rw [hM]
    split <;> simp_all
  · have := unitsOf_mul_le w den hgt
    rw [Nat.add_mul]
    omega

end Between

/-- The overflow threshold is the middle between the largest finite value and the value infinity's pattern would have. -/
theorem two_mul_overflowUnits (w : Nat) : 2 * overflowUnits w = unitsOf w (infMag w - 1) + unitsOf w (infMag w) := by
  by_cases hw : w = 32 <;> simp only [overflowUnits, unitsOf, infMag, prec, hw, if_true, if_false] <;> decide +kernel

/-- The largest finite value has an odd pattern, so that the threshold itself rounds to infinity. -/
theorem infMag_pred (w : Nat) : infMag w - 1 + 1 = infMag w ∧ (infMag w - 1) % 2 = 1 := by
  unfold infMag
  split <;> decide

/-- An operand rounds to infinity from the threshold on, and otherwise to the nearest value, ties to even. -/
theorem roundFp_isRounding (w : Nat) (s : Bool) (num : Nat) {den : Nat} (hden : 1 ≤ den) :
    IsRounding w s num den (roundFp w s num den) := by
  obtain ⟨lo, M, hround, h⟩ := roundMag_between w num hden
  obtain ⟨hinf, hodd⟩ := infMag_pred w
  have hover := h.lt_iff (infMag w - 1)
  have hmid : (2 * overflowUnits w) * den = 2 * (overflowUnits w * den) := Nat.mul_assoc 2 _ _
  rw [hinf, ← two_mul_overflowUnits, hmid] at hover
  refine ⟨roundMag w num den, hround ▸ Nat.min_le_left _ _, rfl, ?_, fun hfin m _ => ?_⟩
  · rw [hround]
    omega
  · obtain rfl : roundMag w num den = M := by omega
    exact h.nearest m

/-- A value of the format is its own rounding (40_numerics.md R124). -/
theorem roundMag_unitsOf {w m k : Nat} (hm : m < infMag w) (hk : 1 ≤ k) : roundMag w (unitsOf w m * k) k = m := by
  obtain ⟨lo, M, hround, h⟩ := roundMag_between w (unitsOf w m * k) hk
  have hle : lo ≤ m := (unitsOf_strictMono w).le_iff_le.mp (Nat.le_of_mul_le_mul_right h.below hk)
  have hlt : m < lo + 1 := (unitsOf_strictMono w).lt_iff_lt.mp (Nat.lt_of_mul_lt_mul_right h.above)
  obtain rfl : lo = m := by omega
  have hM := h.nearer
  have := h.mul_lt (Nat.lt_add_one lo)
  rw [Nat.add_mul, if_neg (by omega)] at hM
  omega

end Sys2Proof.Machine
end

section
/-! Signs, magnitudes and kinds of patterns, and `neg_F` (40_numerics.md R121, R122, R129). -/
namespace Sys2Proof.Machine

/-! ### Sign and magnitude (40_numerics.md R121, R122) -/

theorem infMag_bounds {w : Nat} (hw : w = 32 ∨ w = 64) : 0 < w ∧ 0 < infMag w ∧ infMag w < 2 ^ (w - 1) := by
  rcases hw with rfl | rfl <;> decide

theorem signOf_eq_decide {w : Nat} (a : BitVec w) : signOf a = decide (2 ^ (w - 1) ≤ a.toNat) := by
  rw [signOf, ← BitVec.msb_eq_getLsbD_last, BitVec.msb_eq_decide]

/-- A pattern is its sign and its magnitude. -/
theorem packFp_signOf_magOf {w : Nat} (hw : 0 < w) (a : BitVec w) : packFp w (signOf a) (magOf a) = a := by
  have hlt := a.isLt
  have hdouble : 2 ^ w = 2 * 2 ^ (w - 1) := (mul_pow_sub_one (Nat.ne_of_gt hw) 2).symm
  apply BitVec.eq_of_toNat_eq
  rw [packFp, BitVec.toNat_ofNat, signOf_eq_decide, magOf]
  rcases Nat.lt_or_ge a.toNat (2 ^ (w - 1)) with h | h
  · rw [if_neg (by simpa using h), Nat.zero_add, Nat.mod_eq_of_lt h, Nat.mod_eq_of_lt hlt]
  · rw [if_pos (by simpa using h), Nat.mod_eq_sub_mod h, Nat.mod_eq_of_lt (b := 2 ^ (w - 1)) (by omega),
      Nat.add_sub_cancel' h, Nat.mod_eq_of_lt hlt]

theorem eq_packFp_zero {w : Nat} (hw : 0 < w) {a : BitVec w} (h : magOf a = 0) : a = packFp w (signOf a) 0 := by
  rw [← h, packFp_signOf_magOf hw]

theorem isNaNBits_iff {w : Nat} {a : BitVec w} : isNaNBits a = true ↔ infMag w < magOf a := decide_eq_true_iff

theorem isInfBits_iff {w : Nat} {a : BitVec w} : isInfBits a = true ↔ magOf a = infMag w := beq_iff_eq

theorem isFiniteBits_iff {w : Nat} {a : BitVec w} : isFiniteBits a = true ↔ magOf a < infMag w := decide_eq_true_iff

theorem isZeroBits_iff {w : Nat} {a : BitVec w} : isZeroBits a = true ↔ magOf a = 0 := beq_iff_eq

theorem isNaNBits_of_finite {w : Nat} {a : BitVec w} (h : isFiniteBits a = true) : isNaNBits a = false := by
  rw [isFiniteBits_iff] at h
  rw [← Bool.not_eq_true, isNaNBits_iff]
  omega

theorem isInfBits_of_finite {w : Nat} {a : BitVec w} (h : isFiniteBits a = true) : isInfBits a = false := by
  rw [isFiniteBits_iff] at h
  rw [← Bool.not_eq_true, isInfBits_iff]
  omega

theorem isNaNBits_of_inf {w : Nat} {a : BitVec w} (h : isInfBits a = true) : isNaNBits a = false := by
  rw [isInfBits_iff] at h
  rw [← Bool.not_eq_true, isNaNBits_iff]
  omega

theorem isNaNBits_of_zero {w : Nat} {a : BitVec w} (h : isZeroBits a = true) : isNaNBits a = false := by
  rw [isZeroBits_iff] at h
  rw [← Bool.not_eq_true, isNaNBits_iff]
  omega

/-- An infinity is no zero. -/
theorem isZeroBits_of_inf {w : Nat} (hw : w = 32 ∨ w = 64) {a : BitVec w} (h : isInfBits a = true) :
    isZeroBits a = false := by
  rw [isInfBits_iff] at h
  have := (infMag_bounds hw).2.1
  rw [← Bool.not_eq_true, isZeroBits_iff]
  omega

section Packed
variable {w : Nat} (hw : w = 32 ∨ w = 64) (s : Bool)
include hw

theorem signOf_packFp_zero : signOf (packFp w s 0) = s :=
  signOf_packFp (infMag_bounds hw).1 s (Nat.two_pow_pos _)

theorem magOf_packFp_zero : magOf (packFp w s 0) = 0 :=
  magOf_packFp (infMag_bounds hw).1 s (Nat.two_pow_pos _)

theorem signOf_packFp_inf : signOf (packFp w s (infMag w)) = s :=
  signOf_packFp (infMag_bounds hw).1 s (infMag_bounds hw).2.2

theorem isInfBits_packFp_inf : isInfBits (packFp w s (infMag w)) = true :=
  isInfBits_iff.mpr (magOf_packFp (infMag_bounds hw).1 s (infMag_bounds hw).2.2)

theorem isFiniteBits_packFp_zero : isFiniteBits (packFp w s 0) = true := by
  rw [isFiniteBits_iff, magOf_packFp_zero hw]
  exact (infMag_bounds hw).2.1

end Packed

/-! ### The signed value (40_numerics.md R121, R122) -/

@[simp] theorem natAbs_svalOf {w : Nat} (a : BitVec w) : (svalOf a).natAbs = unitsOf w (magOf a) := by
  unfold svalOf
  split <;> simp

theorem svalOf_eq_zero {w : Nat} {a : BitVec w} : svalOf a = 0 ↔ magOf a = 0 := by
  rw [← Int.natAbs_eq_zero, natAbs_svalOf, unitsOf_eq_zero]

/-- The sign bit is the sign of a value other than zero. -/
theorem svalOf_neg_iff {w : Nat} {a : BitVec w} (h : magOf a ≠ 0) : svalOf a < 0 ↔ signOf a = true := by
  have hpos : 0 < unitsOf w (magOf a) := Nat.pos_of_ne_zero (mt unitsOf_eq_zero.mp h)
  unfold svalOf
  split <;> simp_all

/-- A finite value other than zero is its own rounding (40_numerics.md R124). -/
theorem roundFp_svalOf {w : Nat} (hw : 0 < w) {a : BitVec w} (hfin : isFiniteBits a = true) (hne : magOf a ≠ 0) :
    roundFp w (decide (svalOf a < 0)) (svalOf a).natAbs 1 = .pat a := by
  have hround := roundMag_unitsOf (isFiniteBits_iff.mp hfin) le_rfl
  rw [Nat.mul_one] at hround
  have hsign : decide (svalOf a < 0) = signOf a := by simp [svalOf_neg_iff hne]
  rw [roundFp, natAbs_svalOf, hround, hsign, packFp_signOf_magOf hw]

/-- Two values of one sign whose sum is zero are zeros. -/
theorem magOf_eq_zero_of_sum {w : Nat} {a b : BitVec w} (hsum : svalOf a + svalOf b = 0) (hsign : signOf a = signOf b) :
    magOf a = 0 ∧ magOf b = 0 := by
  rw [← unitsOf_eq_zero (w := w) (m := magOf a), ← unitsOf_eq_zero (w := w) (m := magOf b)]
  unfold svalOf at hsum
  rw [hsign] at hsum
  split at hsum <;> omega

/-! ### `neg_F` (40_numerics.md R129) -/

/-- The pattern of `-0` is the sign bit alone. -/
theorem getLsbD_negZero {w k : Nat} (hk : k < w) : (packFp w true 0).getLsbD k = decide (k = w - 1) := by
  rw [packFp, if_pos rfl, Nat.add_zero, BitVec.getLsbD_ofNat, Nat.testBit_two_pow]
  simp [hk, eq_comm]

theorem getLsbD_flipSign {w k : Nat} (a : BitVec w) (hk : k < w) :
    (a ^^^ packFp w true 0).getLsbD k = if k = w - 1 then !a.getLsbD k else a.getLsbD k := by
  rw [BitVec.getLsbD_xor, getLsbD_negZero hk]
  split <;> simp [*]

theorem signOf_flipSign {w : Nat} (hw : 0 < w) (a : BitVec w) : signOf (a ^^^ packFp w true 0) = !signOf a := by
  rw [signOf, getLsbD_flipSign a (Nat.sub_lt hw Nat.one_pos), if_pos rfl, signOf]

theorem magOf_flipSign {w : Nat} (hw : 0 < w) (a : BitVec w) : magOf (a ^^^ packFp w true 0) = magOf a := by
  have hmask : magOf (packFp w true 0) = 0 := magOf_packFp hw true (Nat.two_pow_pos _)
  unfold magOf at *
  rw [BitVec.toNat_xor, Nat.xor_mod_two_pow, hmask, Nat.xor_zero]

theorem svalOf_flipSign {w : Nat} (hw : 0 < w) (a : BitVec w) : svalOf (a ^^^ packFp w true 0) = -svalOf a := by
  rw [svalOf, svalOf, signOf_flipSign hw, magOf_flipSign hw]
  cases signOf a <;> simp

theorem isFiniteBits_flipSign {w : Nat} (hw : 0 < w) (a : BitVec w) :
    isFiniteBits (a ^^^ packFp w true 0) = isFiniteBits a := by
  rw [isFiniteBits, isFiniteBits, magOf_flipSign hw]

theorem neg_specified {w : Nat} {a : Fp w} (h : a.Specified) : (Fp.neg a).Specified := by
  cases a with
  | pat b => trivial
  | nan => trivial
  | unspec bytes => exact h

theorem neg_isNaN {w : Nat} (hw : 0 < w) {a : Fp w} (h : a.IsNaN) : (Fp.neg a).IsNaN := by
  cases a with
  | pat b =>
    have hnan : isNaNBits (b ^^^ packFp w true 0) = isNaNBits b := by rw [isNaNBits, isNaNBits, magOf_flipSign hw]
    exact hnan.trans h
  | nan => trivial
  | unspec bytes => exact h

/-- Settles O31: the exclusive-or is with the pattern of `-0`, whose only bit is the sign. -/
theorem negFlipsSignOnly : Obligations.NegFlipsSignOnly :=
  fun _ _ a => ⟨_, rfl, fun _ hk => getLsbD_flipSign a hk⟩

end Sys2Proof.Machine
end

section
/-! The sum and the product, case by case (40_numerics.md R125, R126). -/
namespace Sys2Proof.Machine

/-! ### `add_F` (40_numerics.md R125) -/

theorem lift2_pat {w : Nat} (op : BitVec w → BitVec w → Fp w) {a b : BitVec w} (ha : isNaNBits a = false)
    (hb : isNaNBits b = false) : Fp.lift2 op (.pat a) (.pat b) = op a b := by
  simp [Fp.lift2, ha, hb]

section Finite
variable {w : Nat} {a b : BitVec w} (ha : isFiniteBits a = true) (hb : isFiniteBits b = true)
include ha hb

theorem add_of_sum_ne_zero (h : svalOf a + svalOf b ≠ 0) : Fp.add (.pat a) (.pat b) =
    roundFp w (decide (svalOf a + svalOf b < 0)) (svalOf a + svalOf b).natAbs 1 := by
  rw [Fp.add, lift2_pat _ (isNaNBits_of_finite ha) (isNaNBits_of_finite hb)]
  simp [addBits, isInfBits_of_finite ha, isInfBits_of_finite hb, h]

theorem add_of_sum_eq_zero (h : svalOf a + svalOf b = 0) :
    Fp.add (.pat a) (.pat b) = .pat (packFp w (signOf a && signOf b) 0) := by
  rw [Fp.add, lift2_pat _ (isNaNBits_of_finite ha) (isNaNBits_of_finite hb)]
  simp [addBits, zeroFp, isInfBits_of_finite ha, isInfBits_of_finite hb, h]

theorem mul_of_finite : Fp.mul (.pat a) (.pat b) =
    roundFp w (signOf a ^^ signOf b) (unitsOf w (magOf a) * unitsOf w (magOf b)) (2 ^ unitLog w) := by
  rw [Fp.mul, lift2_pat _ (isNaNBits_of_finite ha) (isNaNBits_of_finite hb)]
  simp [mulBits, isInfBits_of_finite ha, isInfBits_of_finite hb]

end Finite

/-- A zero sum of two operands, both negative, is that of two negative zeros. -/
theorem signOf_and_iff {w : Nat} (hw : w = 32 ∨ w = 64) {a b : BitVec w} (h : svalOf a + svalOf b = 0) :
    (signOf a && signOf b) = true ↔ a = packFp w true 0 ∧ b = packFp w true 0 := by
  have hpos := (infMag_bounds hw).1
  rw [Bool.and_eq_true]
  constructor
  · rintro ⟨hsa, hsb⟩
    obtain ⟨hma, hmb⟩ := magOf_eq_zero_of_sum h (hsa.trans hsb.symm)
    exact ⟨hsa ▸ eq_packFp_zero hpos hma, hsb ▸ eq_packFp_zero hpos hmb⟩
  · rintro ⟨rfl, rfl⟩
    exact ⟨signOf_packFp_zero hw true, signOf_packFp_zero hw true⟩

/-- An exact zero sum is `+0`, except that `(-0) + (-0) = -0` (40_numerics.md R125). -/
theorem add_eq_zero {w : Nat} (hw : w = 32 ∨ w = 64) {a b : BitVec w} (ha : isFiniteBits a = true)
    (hb : isFiniteBits b = true) (h : svalOf a + svalOf b = 0) : Fp.add (.pat a) (.pat b) =
      if a = packFp w true 0 ∧ b = packFp w true 0 then .pat (packFp w true 0) else .pat (packFp w false 0) := by
  rw [add_of_sum_eq_zero ha hb h]
  have hsigns := signOf_and_iff hw h
  cases hs : signOf a && signOf b with
  | true => rw [if_pos (hsigns.mp hs)]
  | false => rw [if_neg (fun hz => by simpa [hs] using hsigns.mpr hz)]

theorem add_neg_self {w : Nat} (hw : 0 < w) {a : BitVec w} (ha : isFiniteBits a = true) :
    Fp.add (.pat a) (Fp.neg (.pat a)) = .pat (packFp w false 0) := by
  have hsum : svalOf a + svalOf (a ^^^ packFp w true 0) = 0 := by rw [svalOf_flipSign hw, Int.add_right_neg]
  rw [Fp.neg, add_of_sum_eq_zero ha ((isFiniteBits_flipSign hw a).trans ha) hsum, signOf_flipSign hw, Bool.and_not_self]

theorem add_zero_right {w : Nat} (hw : w = 32 ∨ w = 64) {a : BitVec w} (z : Bool) (ha : isFiniteBits a = true)
    (hne : isZeroBits a = false) : Fp.add (.pat a) (.pat (packFp w z 0)) = .pat a := by
  have hmag : magOf a ≠ 0 := fun h => by simp [isZeroBits_iff.mpr h] at hne
  have hsum : svalOf a + svalOf (packFp w z 0) = svalOf a := by
    rw [svalOf_eq_zero.mpr (magOf_packFp_zero hw z), Int.add_zero]
  rw [add_of_sum_ne_zero ha (isFiniteBits_packFp_zero hw z) (by rw [hsum]; exact mt svalOf_eq_zero.mp hmag), hsum,
    roundFp_svalOf (infMag_bounds hw).1 ha hmag]

section Infinite
variable {w : Nat} {a b : BitVec w} (ha : isInfBits a = true)
include ha

theorem add_inf_left (hb : isNaNBits b = false) (h : isInfBits b = true → signOf a = signOf b) :
    Fp.add (.pat a) (.pat b) = .pat a := by
  rw [Fp.add, lift2_pat _ (isNaNBits_of_inf ha) hb]
  simpa [addBits, ha] using h

theorem add_inf_right (hb : isFiniteBits b = true) : Fp.add (.pat b) (.pat a) = .pat a := by
  rw [Fp.add, lift2_pat _ (isNaNBits_of_finite hb) (isNaNBits_of_inf ha)]
  simp [addBits, ha, isInfBits_of_finite hb]

theorem add_inf_opposite (hb : isInfBits b = true) (h : signOf a ≠ signOf b) : Fp.add (.pat a) (.pat b) = .nan := by
  rw [Fp.add, lift2_pat _ (isNaNBits_of_inf ha) (isNaNBits_of_inf hb)]
  simp [addBits, ha, hb, h]

end Infinite

/-- Settles O29: finite operands by their exact sum, infinities by their signs, NaN operands by `lift2_nan`. -/
theorem addRule : Obligations.AddRule := by
  intro w hw
  have hpos := (infMag_bounds hw).1
  have hinf (z : Bool) := isInfBits_packFp_inf hw z
  have hsign (z : Bool) := signOf_packFp_inf hw z
  refine ⟨fun a b ha hb => ⟨fun h => ?_, add_eq_zero hw ha hb⟩, fun a ha => add_neg_self hpos ha,
    fun a z ha hne => add_zero_right hw z ha hne, fun z b hb => ⟨?_, add_inf_right (hinf z) hb⟩, fun z => ?_, fun z => ?_,
    fun a b ha hb h => ⟨lift2_nan _ ha hb h, ?_⟩, fun _ _ => rfl⟩
  case refine_1 =>
    rw [add_of_sum_ne_zero ha hb h]
    exact roundFp_isRounding w _ _ le_rfl
  case refine_2 =>
    exact add_inf_left (hinf z) (isNaNBits_of_finite hb) fun h => by simp [isInfBits_of_finite hb] at h
  case refine_3 => exact add_inf_left (hinf z) (isNaNBits_of_inf (hinf z)) fun _ => rfl
  case refine_4 => exact add_inf_opposite (hinf z) (hinf !z) (by simp [hsign])
  case refine_5 => exact lift2_nan _ ha (neg_specified hb) (h.imp_right (neg_isNaN hpos))

/-! ### `mul_F` (40_numerics.md R126) -/

theorem mul_comm_pat {w : Nat} (a b : BitVec w) : Fp.mul (.pat a) (.pat b) = Fp.mul (.pat b) (.pat a) := by
  have hbits : mulBits a b = mulBits b a := by
    simp only [mulBits, Bool.or_comm (isInfBits a), Bool.or_comm (isZeroBits a), Nat.mul_comm (unitsOf w (magOf a)),
      bne_comm (a := signOf a)]
  simp only [Fp.mul, Fp.lift2, Bool.or_comm (isNaNBits a), hbits]

/-- A zero product keeps the sign (40_numerics.md R126). -/
theorem mul_eq_zero {w : Nat} (hw : w = 32 ∨ w = 64) {a b : BitVec w} (ha : isFiniteBits a = true)
    (hb : isFiniteBits b = true) (h : isZeroBits a = true ∨ isZeroBits b = true) :
    Fp.mul (.pat a) (.pat b) = .pat (packFp w (signOf a ^^ signOf b) 0) := by
  have hprod : unitsOf w (magOf a) * unitsOf w (magOf b) = 0 := by
    rcases h with hz | hz <;> simp [isZeroBits_iff.mp hz]
  have hround := roundMag_unitsOf (w := w) (k := 2 ^ unitLog w) (infMag_bounds hw).2.1 (Nat.two_pow_pos _)
  rw [unitsOf_zero, Nat.zero_mul] at hround
  rw [mul_of_finite ha hb, hprod, roundFp, hround]

theorem mul_inf_of_ne_zero {w : Nat} (hw : w = 32 ∨ w = 64) {a b : BitVec w} (ha : isInfBits a = true)
    (hb : isNaNBits b = false) (hz : isZeroBits b = false) :
    Fp.mul (.pat a) (.pat b) = .pat (packFp w (signOf a ^^ signOf b) (infMag w)) := by
  rw [Fp.mul, lift2_pat _ (isNaNBits_of_inf ha) hb]
  simp [mulBits, infFp, ha, isZeroBits_of_inf hw ha, hz]

theorem mul_inf_of_zero {w : Nat} {a b : BitVec w} (ha : isInfBits a = true) (hb : isNaNBits b = false)
    (hz : isZeroBits b = true) : Fp.mul (.pat a) (.pat b) = .nan := by
  rw [Fp.mul, lift2_pat _ (isNaNBits_of_inf ha) hb]
  simp [mulBits, ha, hz]

/-- Settles O30: finite operands by their exact product; with an infinity, the other operand decides, on either side. -/
theorem mulRule : Obligations.MulRule := by
  intro w hw
  refine ⟨fun a b ha hb => ?_, fun a b ha hb h => mul_eq_zero hw ha hb h, fun a b ha hb hz => ?_, fun a b ha hz => ?_,
    fun a b ha hb h => lift2_nan _ ha hb h⟩
  case refine_1 =>
    rw [mul_of_finite ha hb]
    exact roundFp_isRounding w _ _ (Nat.two_pow_pos _)
  case refine_2 =>
    rw [mul_comm_pat b a, and_self]
    exact mul_inf_of_ne_zero hw ha hb hz
  case refine_3 =>
    rw [mul_comm_pat b a, and_self]
    exact mul_inf_of_zero ha (isNaNBits_of_zero hz) hz

end Sys2Proof.Machine
end

section
/-! The integer laws (40_numerics.md R151 to R153). -/
namespace Sys2Proof.Machine

/-! ### Integer laws -/

/-- `D` is the one number whose multiple of `fsOut` is the last one up to `fs` (40_numerics.md R151). -/
theorem decimFactor_eq_iff {fs fsOut d : Nat} (h : 1 ≤ fsOut) :
    decimFactor fs fsOut = d ↔ d * fsOut ≤ fs ∧ fs < (d + 1) * fsOut :=
  (Nat.div_eq_iff h).trans (by rw [Nat.succ_mul]; omega)

/-- An output rate of 0 is refused before a decimation factor is computed (40_numerics.md R151; 43_decimate.md R181). -/
theorem decimate_zero_rate (s : State) (b : BankIx) (stage : Nat) (q : SampleSeq) :
    s.decimate b 0 stage q = .error ⟨.badFsout, stage⟩ := by
  rcases checkDecim_cases 0 q.fs stage with ⟨-, h⟩ | ⟨h0, -⟩ | ⟨h0, -⟩ | ⟨h0, -⟩
  · rw [State.decimate, h]
    rfl
  all_goals exact absurd rfl h0

/-- The retained elements are those whose multiple of `D` is an index of the filtered sequence (40_numerics.md R151). -/
theorem lt_retained_iff {m len d : Nat} (hd : 1 ≤ d) : m < retained len d ↔ m * d < len := by
  refine ⟨mul_lt_of_lt_retained hd, fun h => (Nat.le_div_iff_mul_le hd).mpr ?_⟩
  rw [Nat.succ_mul]
  omega

theorem retained_eq_div {len d : Nat} (hd : 1 ≤ d) (h : d ∣ len) : retained len d = len / d := by
  obtain ⟨k, rfl⟩ := h
  rw [Nat.mul_div_cancel_left k hd]
  exact eq_of_forall_lt_iff fun m => by rw [lt_retained_iff hd, Nat.mul_comm d k, Nat.mul_lt_mul_right hd]

theorem retained_one (len : Nat) : retained len 1 = len := by simp [retained]

/-- `M` counts the multiples of `D` among the indices `0` to `L - 1` (40_numerics.md R151). -/
theorem retained_eq_card {len d : Nat} (hd : 1 ≤ d) :
    retained len d = ((Finset.range len).filter fun k => d ∣ k).card := by
  have himage : (Finset.range len).filter (fun k => d ∣ k) = (Finset.range (retained len d)).image (· * d) := by
    ext k
    simp only [Finset.mem_filter, Finset.mem_range, Finset.mem_image, lt_retained_iff hd]
    constructor
    · rintro ⟨hk, m, rfl⟩
      exact ⟨m, by rwa [Nat.mul_comm], Nat.mul_comm m d⟩
    · rintro ⟨m, hm, rfl⟩
      exact ⟨hm, Nat.dvd_mul_left d m⟩
  rw [himage, Finset.card_image_of_injective _ (mul_left_injective₀ (Nat.ne_of_gt hd)), Finset.card_range]

theorem nyquistFault_iff (c r : Nat) : nyquistFault c r = true ↔ 2 * c ≥ r := decide_eq_true_iff

theorem fmNyquistFault_iff (fmdev fs : Nat) : fmNyquistFault fmdev fs = true ↔ 3 * fmdev ≥ fs := decide_eq_true_iff

/-- Settles O35: the quotients are characterised by their multiples, and the examples evaluate. -/
theorem integerLaws : Obligations.IntegerLaws := by
  refine ⟨fun fs fsOut _ hout => ⟨fun d => decimFactor_eq_iff hout, ?_, ?_⟩, decimate_zero_rate,
    fun len d hl hd => ⟨(retained_bounds hl hd).1, (retained_bounds hl hd).2, retained_eq_div hd,
      fun m => lt_retained_iff hd, retained_eq_card hd⟩,
    by decide, by decide, by decide, by decide, by decide, retained_one, by decide, nyquistFault_iff, fmNyquistFault_iff,
    by decide, by decide, fun fs => ?_⟩
  · rw [decimFactor_eq_iff hout]
    omega
  · rw [decimFactor_eq_iff hout]
    omega
  · rw [← Bool.not_eq_true, fmNyquistFault_iff]
    omega

/-! ### The phase index -/

/-- The phase index is the remainder of a division that rounds down (40_numerics.md R153). -/
theorem phaseIndex_cast (fc : Int) (n : Nat) {fs : Nat} (h : 1 ≤ fs) : (phaseIndex fc n fs : Int) = fc * n % fs :=
  Int.toNat_of_nonneg (Int.emod_nonneg _ (by omega))

theorem phaseIndex_lt (fc : Int) (n : Nat) {fs : Nat} (h : 1 ≤ fs) : phaseIndex fc n fs < fs := by
  have hlt := Int.emod_lt_of_pos (fc * n) (show (0 : Int) < fs by omega)
  rw [← phaseIndex_cast fc n h] at hlt
  exact Int.ofNat_lt.mp hlt

/-- `fc · n` and the phase index differ by whole turns (40_numerics.md R153). -/
theorem phaseIndex_turns (fc : Int) (n : Nat) {fs : Nat} (h : 1 ≤ fs) :
    fc * n = (fc * n / fs) * fs + phaseIndex fc n fs := by
  rw [phaseIndex_cast fc n h, Int.ediv_mul_add_emod]

/-- Whole turns do not change the complex exponential (40_numerics.md R153). -/
theorem exp_phaseIndex (fc : Int) (n : Nat) {fs : Nat} (h : 1 ≤ fs) :
    Complex.exp (Complex.I * (2 * Real.pi * fc * n / fs)) =
      Complex.exp (Complex.I * (2 * Real.pi * (phaseIndex fc n fs : ℂ) / fs)) := by
  have hfs : (fs : ℂ) ≠ 0 := by exact_mod_cast Nat.ne_of_gt h
  have hturns : (fc : ℂ) * n = ((fc * n / fs : Int) : ℂ) * fs + phaseIndex fc n fs := by
    exact_mod_cast phaseIndex_turns fc n h
  rw [Complex.exp_eq_exp_iff_exists_int]
  refine ⟨fc * n / fs, ?_⟩
  rw [mul_assoc (2 * (Real.pi : ℂ)), hturns]
  field_simp
  ring

/-- Settles O36: division with remainder, cast to the complex numbers, makes the two arguments differ by whole turns. -/
theorem phaseIndexLaw : Obligations.PhaseIndexLaw := by
  refine ⟨fun fc n fs h => ⟨phaseIndex_lt fc n h, ⟨_, phaseIndex_turns fc n h⟩, exp_phaseIndex fc n h⟩,
    by decide, by decide, fun n => ?_⟩
  simp only [phaseIndex]
  omega

end Sys2Proof.Machine
end

section
/-! Which transactions the host port performs: the address map in the spec's numbers (20_memory.md R66, R70), and the bus
error that answers every other one (46_system_and_host.md R225). -/
namespace Sys2Proof.Machine

/-! ### The mapped addresses (20_memory.md R70) -/

theorem inTapB_iff {p : Params} {b : BankIx} {a : Nat} :
    inTapB p b a = true ↔ 0x10000 + 0x8000 * b.val ≤ a ∧ a < 0x10000 + 0x8000 * b.val + 8 * p.maxTaps := by
  rw [inTapB, Bool.and_eq_true, decide_eq_true_iff, decide_eq_true_iff, tapEnd, tapAddr, Nat.mul_comm b.val]

theorem inBufJ_iff {p : Params} {j : BufIx} {a : Nat} :
    inBufJ p j a = true ↔
      0x10000000 + 0x8000000 * j.val ≤ a ∧ a < 0x10000000 + 0x8000000 * j.val + 8 * p.maxLen := by
  rw [inBufJ, Bool.and_eq_true, decide_eq_true_iff, decide_eq_true_iff, bufEnd, bufAddr, Nat.mul_comm j.val]

theorem inTap_iff {p : Params} {a : Nat} : inTap p a = true ↔ InTapBank p a :=
  calc inTap p a = true
    _ ↔ ∃ b : BankIx, inTapB p b a = true := by simp [inTap, Fin.exists_iff_succ, or_assoc]
    _ ↔ InTapBank p a := exists_congr fun _ => inTapB_iff

theorem inBuf_iff {p : Params} {a : Nat} : inBuf p a = true ↔ InSampleBuffer p a :=
  calc inBuf p a = true
    _ ↔ ∃ j : BufIx, inBufJ p j a = true := by simp [inBuf, Fin.exists_iff_succ, or_assoc]
    _ ↔ InSampleBuffer p a := exists_congr fun _ => inBufJ_iff

/-! ### The bus error (20_memory.md R66; 46_system_and_host.md R225) -/

theorem performs_iff {s : State} {bits a : Nat} :
    s.performs bits a = true ↔
      bits = 32 ∧ a % 4 = 0 ∧ (a ≤ 0xFFF ∨ InTapBank s.params a ∨ InSampleBuffer s.params a) := by
  simp [State.performs, inReg, inTap_iff, inBuf_iff, and_assoc, or_assoc]

theorem hostRead_busError {s : State} {bits : Nat} {a : Word} (h : s.performs bits a.toNat = false) :
    s.hostRead bits a = { s with port := .busError } := if_pos h

theorem hostWrite_busError {s : State} {bits : Nat} {a : Word} (v : Word) (h : s.performs bits a.toNat = false) :
    s.hostWrite bits a v = { s with port := .busError } := if_pos h

/-- Settles O51: each ground denies one of the three conditions of `performs_iff`, so the port does not perform the
transaction and answers with the bus error alone. -/
theorem busErrorChangesNothing : Obligations.BusErrorChangesNothing := by
  intro s bits a v hground
  have hrefused : s.performs bits a.toNat = false := by
    rw [Bool.eq_false_iff, Ne, performs_iff]
    rintro ⟨hwidth, haligned, hmapped⟩
    obtain hbits | hmisaligned | ⟨hpast, hnoBank, hnoBuffer⟩ := hground
    · exact hbits hwidth
    · exact hmisaligned haligned
    · obtain hreg | ⟨b, hb⟩ | ⟨j, hj⟩ := hmapped
      · exact absurd hreg (Nat.not_le.mpr hpast)
      · exact hnoBank b hb
      · exact hnoBuffer j hj
  exact ⟨hostRead_busError hrefused, hostWrite_busError v hrefused⟩

end Sys2Proof.Machine
end

section
/-! The return from an error (60_exceptions.md R252), through the write of `STATUS` (10_state.md R22). -/
namespace Sys2Proof.Machine

/-- The engine never owns `STATUS`: the flags are cleared whatever `BUSY` is. -/
@[simp] theorem State.writeReg_status (v : Word) (s : State) : s.writeReg .status v = s.writeStatus v := rfl

/-- The write of `STATUS` on the host port. -/
theorem hostWrite_status (v : Word) (s : State) :
    State.hostWrite 32 0x004 v s = { s.writeStatus v with port := .written } := by
  have h4 : (0x004 : Word).toNat % 4 = 0 := rfl
  have ha : (0x004 : Word).toNat ≤ 0xFFF := by decide
  have hstatus : regAt (0x004 : Word).toNat = .status := rfl
  rw [hostWrite_register s v h4 ha, hstatus, State.writeReg_status]

/-- Of the three flags `STATUS` can clear, bit 2 selects `ERR` alone. -/
theorem State.clearErr_eq (s : State) : s.clearErr = { s with err := false } := by
  simp [State.clearErr, State.writeStatus]

/-- The statement `CLRERR` on the host port (30_encoding.md R101). -/
theorem hostWrite_clearErr (s : State) :
    State.hostWrite 32 0x004 0x00000004 s = { s with err := false, port := .written } :=
  calc State.hostWrite 32 0x004 0x00000004 s
    _ = { s.clearErr with port := .written } := hostWrite_status 0x4 s
    _ = { s with err := false, port := .written } := by rw [State.clearErr_eq]

/-- Settles O57: with `ERR` cleared and `BUSY = 0`, neither ground for dropping the write of `CMD` is left. -/
theorem returnFromError : Obligations.ReturnFromError := by
  intro s
  refine ⟨hostWrite_clearErr s, fun w hbusy => ?_⟩
  rw [hostWrite_clearErr, hostWrite_cmd, if_neg (by simp [hbusy])]

end Sys2Proof.Machine
end

section
/-! Decoder and encoder (30_encoding.md R90, R93 to R95, R100): a row of the decoder's table fits exactly the words
whose fields make a legal command of its opcode, so that decoding is reading the fields. -/
namespace Sys2Proof

/-! ### A word is its fields (30_encoding.md R90, R100) -/

theorem fieldIx_val (w : Word) (lo : Nat) : (fieldIx w lo).val = w.toNat / 2 ^ lo % 4 := by
  simp [fieldIx, Nat.shiftRight_eq_div_pow]

theorem getLsbD_eq_decide (w : Word) (k : Nat) : w.getLsbD k = decide (w.toNat / 2 ^ k % 2 = 1) := by
  rw [BitVec.getLsbD, Nat.testBit_eq_decide_div_mod_eq]

theorem toNat_getLsbD (w : Word) (k : Nat) : (w.getLsbD k).toNat = w.toNat / 2 ^ k % 2 := by
  rw [getLsbD_eq_decide]
  rcases Nat.mod_two_eq_zero_or_one (w.toNat / 2 ^ k) with h | h <;> simp [h]

/-- The field sum of the fields of a word is the word. -/
@[simp] theorem toWord_fieldsOf (w : Word) : (fieldsOf w).toWord = w := by
  have hw := w.isLt
  apply BitVec.eq_of_toNat_eq
  simp only [Fields.toWord, fieldsOf, fieldIx_val, toNat_getLsbD, BitVec.toNat_ofNat, BitVec.extractLsb'_toNat,
    Nat.shiftRight_eq_div_pow]
  omega

/-- The fields of the field sum are the fields. -/
@[simp] theorem fieldsOf_toWord (f : Fields) : fieldsOf f.toWord = f := by
  obtain ⟨opc, src, dst, tb, aab, hpb, fcp, rum, reserved⟩ := f
  have hopc := opc.isLt
  have hres := reserved.isLt
  have hfcp := fcp.toNat_lt
  have hrum := rum.toNat_lt
  have hsum : (Fields.toWord ⟨opc, src, dst, tb, aab, hpb, fcp, rum, reserved⟩).toNat = opc.toNat + 16 * src.val +
      64 * dst.val + 256 * tb.val + 1024 * aab.val + 4096 * hpb.val + 16384 * fcp.toNat + 32768 * rum.toNat +
      65536 * reserved.toNat := by
    simp only [Fields.toWord, BitVec.toNat_ofNat]
    omega
  have hbit (b : Bool) : b = decide (b.toNat = 1) := by cases b <;> rfl
  simp only [fieldsOf, Fields.mk.injEq]
  refine ⟨BitVec.eq_of_toNat_eq ?_, Fin.ext ?_, Fin.ext ?_, Fin.ext ?_, Fin.ext ?_, Fin.ext ?_, ?_, ?_,
    BitVec.eq_of_toNat_eq ?_⟩
  case refine_7 =>
    rw [getLsbD_eq_decide, hsum, hbit fcp, decide_eq_decide, ← hbit fcp]
    omega
  case refine_8 =>
    rw [getLsbD_eq_decide, hsum, hbit rum, decide_eq_decide, ← hbit rum]
    omega
  all_goals
    simp only [fieldIx_val, BitVec.extractLsb'_toNat, Nat.shiftRight_eq_div_pow, hsum]
    omega

theorem fieldsOf_injective : Function.Injective fieldsOf :=
  Function.LeftInverse.injective toWord_fieldsOf

/-! ### The rows of the decoder's table (30_encoding.md R95) -/

/-- The nine opcodes, in the order of the decoder's table. -/
def opcodes : List Opcode := [.nop, .fir, .xlate, .decim, .sqmag, .fmdisc, .amdem, .fmdem, .ssbdem]

/-- The row of an opcode, as it stands in the decoder's table (`decodeRows_eq`). -/
def Opcode.row : Opcode → DecodeRow
  | .nop => decodeRows[0]
  | .fir => decodeRows[1]
  | .xlate => decodeRows[2]
  | .decim => decodeRows[3]
  | .sqmag => decodeRows[4]
  | .fmdisc => decodeRows[5]
  | .amdem => decodeRows[6]
  | .fmdem => decodeRows[7]
  | .ssbdem => decodeRows[8]

theorem decodeRows_eq : decodeRows = opcodes.map Opcode.row := rfl

theorem mem_opcodes (o : Opcode) : o ∈ opcodes := by cases o <;> decide

theorem opcodes_pairwise : opcodes.Pairwise fun o o' => o.code ≠ o'.code := by decide

theorem ofCode_eq_some_iff {c : BitVec 4} {o : Opcode} : Opcode.ofCode c = some o ↔ o.code = c := by
  constructor
  · intro h
    exact beq_iff_eq.mp (List.find?_some (p := fun o : Opcode => o.code == c) h)
  · rintro rfl
    cases o <;> decide

theorem code_injective : Function.Injective Opcode.code := fun _ _ h =>
  Option.some.inj ((ofCode_eq_some_iff.mpr h).symm.trans (ofCode_eq_some_iff.mpr rfl))

/-- The fields a row's mask leaves of a word: those the opcode uses are cleared. -/
def Fields.clear (f : Fields) (u : Uses) : Fields :=
  ⟨f.opc, bif u.buffers then 0 else f.src, bif u.buffers then 0 else f.dst, bif u.tb then 0 else f.tb,
    bif u.aab then 0 else f.aab, bif u.hpb then 0 else f.hpb, !u.fcp && f.fcp, !u.rum && f.rum, f.reserved⟩

/-- Under the mask of a row, a field is all ones or all zeros. -/
theorem fieldsOf_and_mask (o : Opcode) (w : Word) : fieldsOf (w &&& o.row.mask) = (fieldsOf w).clear o.uses := by
  have keep {n : Nat} (v : BitVec n) {c : BitVec n} (h : c = BitVec.allOnes n) : v &&& c = v := by
    rw [h, BitVec.and_allOnes]
  have keepIndex (v : BitVec 2) : v &&& 3#2 = v := keep v rfl
  have keepOpcode (v : BitVec 4) : v &&& 15#4 = v := keep v rfl
  have keepReserved (v : BitVec 16) : v &&& 65535#16 = v := keep v rfl
  cases o <;>
    simp [fieldsOf, Fields.clear, Opcode.row, decodeRows, Opcode.uses, BitVec.extractLsb'_and, fieldIx, keepIndex,
      keepOpcode, keepReserved]

theorem fieldsOf_pattern (o : Opcode) : fieldsOf o.row.pattern = ⟨o.code, 0, 0, 0, 0, 0, false, false, 0⟩ := by
  cases o <;> decide

theorem clear_eq_iff (f : Fields) (u : Uses) (c : BitVec 4) :
    f.clear u = ⟨c, 0, 0, 0, 0, 0, false, false, 0⟩ ↔ f.opc = c ∧ f.unusedZero u = true := by
  have hindex (b : Bool) (x : Fin 4) : (bif b then 0 else x) = 0 ↔ b = true ∨ x = 0 := by cases b <;> simp
  have hbit (b x : Bool) : (!b && x) = false ↔ b = true ∨ x = false := by cases b <;> simp
  simp only [Fields.clear, Fields.unusedZero, Fields.mk.injEq, Bool.and_eq_true, Bool.or_eq_true, beq_iff_eq, hindex,
    hbit, and_assoc, or_and_left]

/-- A row fits exactly the words with its opcode in which every field the opcode does not use is 0 (30_encoding.md R93,
R94). -/
theorem row_fits_iff (o : Opcode) (w : Word) :
    o.row.fits w = true ↔ (fieldsOf w).opc = o.code ∧ (fieldsOf w).unusedZero o.uses = true := by
  rw [DecodeRow.fits, beq_iff_eq, ← fieldsOf_injective.eq_iff, fieldsOf_and_mask, fieldsOf_pattern, clear_eq_iff]

/-! ### Decoding is reading the fields -/

/-- What a fitting row builds has the fields of the word: the fields it leaves out are 0. -/
theorem fields_build {o : Opcode} {w : Word} (h : o.row.fits w = true) : (o.row.build w).fields = fieldsOf w := by
  obtain ⟨hopc, hzero⟩ := (row_fits_iff o w).mp h
  cases o <;>
    simp_all [Opcode.row, decodeRows, Instr.fields, fieldsOf, Fields.unusedZero, Opcode.uses]

/-- The row of a command's opcode builds that command from a word with its fields. -/
theorem build_of_fields {i : Instr} {w : Word} (h : i.fields = fieldsOf w) : i.opcode.row.build w = i := by
  cases i <;> simp_all [Instr.fields, fieldsOf, Instr.opcode, Opcode.row, decodeRows]

theorem fields_wellFormed (i : Instr) : i.fields.wellFormed = true := by
  cases i with
  | nop => exact Laws.WellFormedFields.nop
  | fir src dst tb => exact Laws.WellFormedFields.fir src dst tb
  | xlate src dst fcp => exact Laws.WellFormedFields.xlate src dst fcp
  | decim src dst aab => exact Laws.WellFormedFields.decim src dst aab
  | sqmag src dst => exact Laws.WellFormedFields.sqmag src dst
  | fmdisc src dst => exact Laws.WellFormedFields.fmdisc src dst
  | amdem src dst tb aab hpb fcp rum => exact Laws.WellFormedFields.amdem src dst tb aab hpb fcp rum
  | fmdem src dst tb aab fcp => exact Laws.WellFormedFields.fmdem src dst tb aab fcp
  | ssbdem src dst aab fcp => exact Laws.WellFormedFields.ssbdem src dst aab fcp

theorem wellFormed_iff (f : Fields) :
    f.wellFormed = true ↔ ∃ o : Opcode, f.opc = o.code ∧ f.unusedZero o.uses = true := by
  unfold Fields.wellFormed
  cases hc : Opcode.ofCode f.opc with
  | none =>
    refine iff_of_false (by simp) fun ⟨o, ho, _⟩ => ?_
    simp [ofCode_eq_some_iff.mpr ho.symm] at hc
  | some o =>
    have ho := ofCode_eq_some_iff.mp hc
    refine ⟨fun h => ⟨o, ho.symm, h⟩, fun ⟨o', ho', h⟩ => ?_⟩
    rwa [code_injective (ho.trans ho')]

theorem opcode_code (i : Instr) : i.opcode.code = i.fields.opc := by cases i <;> rfl

/-- The row of the opcode fits a word with the fields of a command. -/
theorem row_fits_of_fields {i : Instr} {w : Word} (h : i.fields = fieldsOf w) : i.opcode.row.fits w = true := by
  obtain ⟨o, ho, hzero⟩ := (wellFormed_iff _).mp (fields_wellFormed i)
  obtain rfl : i.opcode = o := code_injective ((opcode_code i).trans ho)
  rw [row_fits_iff, ← h]
  exact ⟨ho, hzero⟩

/-- No word fits the rows of two opcodes (30_encoding.md R95). -/
theorem row_fits_unique {o o' : Opcode} {w : Word} (h : o.row.fits w = true) (h' : o'.row.fits w = true) : o = o' :=
  code_injective (((row_fits_iff o w).mp h).1.symm.trans ((row_fits_iff o' w).mp h').1)

/-- The decoder answers what the one fitting row builds. -/
theorem decode_of_fits {o : Opcode} {w : Word} (h : o.row.fits w = true) : decode w = .ok (o.row.build w) := by
  have hfind : decodeRows.find? (fun r => r.fits w) = some o.row := by
    rw [decodeRows_eq, List.find?_map]
    cases hf : opcodes.find? ((fun r => r.fits w) ∘ Opcode.row) with
    | none => exact absurd h (List.find?_eq_none.mp hf o (mem_opcodes o))
    | some o' =>
      have h' : o'.row.fits w = true := by simpa using List.find?_some hf
      rw [Option.map_some, row_fits_unique h' h]
  rw [decode, hfind]

theorem exists_fits_of_decode {w : Word} {i : Instr} (h : decode w = .ok i) : ∃ o : Opcode, o.row.fits w = true := by
  unfold decode at h
  split at h
  · next r hr =>
    have hmem := List.mem_of_find?_eq_some hr
    rw [decodeRows_eq] at hmem
    obtain ⟨o, -, rfl⟩ := List.mem_map.mp hmem
    exact ⟨o, by simpa using List.find?_some hr⟩
  · split at h <;> cases h

/-- The decoder reads a command from a word exactly when the word's fields are the command's. -/
theorem decode_eq_ok_iff (w : Word) (i : Instr) : decode w = .ok i ↔ i.fields = fieldsOf w := by
  constructor
  · intro h
    obtain ⟨o, ho⟩ := exists_fits_of_decode h
    rw [decode_of_fits ho] at h
    cases h
    exact fields_build ho
  · intro h
    rw [decode_of_fits (row_fits_of_fields h), build_of_fields h]

/-- Settles O1: decoding is reading the fields, and fields and words determine each other. -/
theorem decodeEncodeAgree : Obligations.DecodeEncodeAgree := by
  intro w i
  refine ⟨?_, fieldsOf_toWord i.fields⟩
  rw [decode_eq_ok_iff, ← fieldsOf_injective.eq_iff, encode, fieldsOf_toWord, eq_comm]

/-- The decoder accepts exactly the words whose fields make a legal command (30_encoding.md R94). -/
theorem exists_decode_iff (w : Word) : (∃ i, decode w = .ok i) ↔ (fieldsOf w).wellFormed = true := by
  constructor
  · rintro ⟨i, h⟩
    rw [← (decode_eq_ok_iff w i).mp h]
    exact fields_wellFormed i
  · intro h
    obtain ⟨o, ho⟩ := (wellFormed_iff _).mp h
    exact ⟨_, decode_of_fits ((row_fits_iff o w).mpr ho)⟩

/-- Settles O2: two rows of the table have different opcodes, and a word that fits both would have both. -/
theorem legalWords : Obligations.LegalWords := by
  refine ⟨exists_decode_iff, ?_⟩
  rw [decodeRows_eq, List.pairwise_map]
  refine opcodes_pairwise.imp fun {o o'} hne w h => ?_
  exact hne (congrArg Opcode.code (row_fits_unique h.1 h.2))

/-- Settles O3: each word of the spec is evaluated. -/
theorem exampleWords : Obligations.ExampleWords := by
  refine ⟨?_, ?_, ?_, ?_, ?_, ?_, ?_, ?_, ?_, ?_, ?_, ?_⟩ <;> decide

end Sys2Proof
end

section
/-! The turns of a step (00_scope.md R12; 30_encoding.md R91): the engine's complete step, of a legal and of an illegal
word, the idle engine, and the host's transactions. -/
namespace Sys2Proof.Machine

/-! ### Whose turn it is -/

/-- The state an engine turn runs from: a scheduled turn is taken off the schedule (log 1). -/
theorem step_engine_turn {s : State} (h : s.schedule = [] ∨ ∃ rest, s.schedule = .engine :: rest) :
    step s = engineTurn { s with schedule := s.schedule.tail } := by
  rcases h with h | ⟨rest, h⟩
  · have hsame : { s with schedule := s.schedule.tail } = s := by rw [h, List.tail_nil, ← h]
    rw [hsame, step_empty h]
  · rw [step_engine h, h, List.tail_cons]

/-- A word placed by `withFetchWord` is the one its table row decodes to (log 14). -/
theorem decode_withFetchWord {nbits w : Nat} {i : Instr} (h : decodeTableWord nbits w = some i) (s : State) :
    decode (s.withFetchWord nbits w).cmd = .ok i := by
  rw [State.withFetchWord_cmd]
  unfold decodeTableWord tableWord at h
  by_cases hfit : w % 2 ^ nbits < 2 ^ 32
  · rw [if_pos hfit] at h
    dsimp only at h
    split at h
    · next j hj => rw [hj, Option.some.inj h]
    · cases h
  · rw [if_neg hfit] at h
    cases h

theorem decode_illegal {w : Word} (h : (fieldsOf w).wellFormed = false) : ∃ r, decode w = .error r := by
  cases hd : decode w with
  | error r => exact ⟨r, rfl⟩
  | ok i => simp [(exists_decode_iff w).mp ⟨i, hd⟩] at h

/-- Settles O4: an engine turn with `BUSY = 1` is the complete step, which runs the decoded command; a host turn is its
transaction. -/
theorem stepRunsDecoded : Obligations.StepRunsDecoded := by
  refine ⟨fun s i hbusy hd => ⟨fun hs => ?_, fun rest hs => ?_⟩, fun s nbits w i hd => ?_, fun s rest =>
    ⟨fun _ _ hs => step_host hs, fun _ _ _ hs => step_host hs, step_host⟩⟩
  · rw [step_empty hs, engineTurn_busy hbusy]
    exact complete_exec hd
  · have hbusy' : { s with schedule := rest }.busy = true := hbusy
    rw [step_engine hs, engineTurn_busy hbusy']
    exact complete_exec hd
  · rw [step_empty (State.withFetchWord_schedule ..), engineTurn_busy (State.withFetchWord_busy ..)]
    exact complete_exec (decode_withFetchWord hd s)

/-- Settles O5: a word whose fields make no command is rejected by the decoder, and its complete step is error entry
without buffers. -/
theorem illegalWordTouchesNoBuffer : Obligations.IllegalWordTouchesNoBuffer := by
  intro s hbusy hfields
  obtain ⟨r, hr⟩ := decode_illegal hfields
  constructor
  · intro hs
    rw [step_empty hs, engineTurn_busy hbusy, complete_illegal hr]
  · intro rest hs
    have hbusy' : { s with schedule := rest }.busy = true := hbusy
    have hr' : decode { s with schedule := rest }.cmd = .error r := hr
    rw [step_engine hs, engineTurn_busy hbusy', complete_illegal hr']

/-! ### The end of the complete step (30_encoding.md R91) -/

/-- What no command changes, and what a complete step changes only by its end. -/
structure KeepsControl (s t : State) : Prop where
  cmd : t.cmd = s.cmd
  interruptEnables : t.doneIE = s.doneIE ∧ t.errIE = s.errIE
  ovr : t.ovr = s.ovr
  schedule : t.schedule = s.schedule

theorem exec_keepsControl {i : Instr} {s t : State} (h : exec i s = .next t) : KeepsControl s t := by
  rcases exec_eq_commit i s with ⟨-, hx⟩ | ⟨src, dst, r, -, -, hx⟩
  · cases hx.symm.trans h
    exact ⟨rfl, ⟨rfl, rfl⟩, rfl, rfl⟩
  · cases hx.symm.trans h
    exact ⟨by simp, by simp, by simp, by simp⟩

/-- The complete step has a next state, legal word or not, and in it the command has ended. -/
theorem complete_ends (s : State) : ∃ t, complete s = .next t ∧ Ended t ∧ KeepsControl s t := by
  cases hd : decode s.cmd with
  | ok i =>
    obtain ⟨t, ht, hc⟩ := complete_exec hd
    obtain ⟨hcmd, hie, hovr, hsched⟩ := exec_keepsControl ht
    exact ⟨_, hc, ⟨rfl, rfl⟩, ⟨hcmd, hie, hovr, hsched⟩⟩
  | error r => exact ⟨_, complete_illegal hd, ⟨rfl, rfl⟩, ⟨rfl, ⟨rfl, rfl⟩, rfl, rfl⟩⟩

/-- Settles O6: the engine's turn with `BUSY = 1` is the complete step, which ends and keeps the rest. -/
theorem everyCommandEnds : Obligations.EveryCommandEnds := by
  intro s hbusy hturn
  have hbusy' : { s with schedule := s.schedule.tail }.busy = true := hbusy
  obtain ⟨t, ht, hended, hcmd, ⟨hdoneIE, herrIE⟩, hovr, hsched⟩ := complete_ends { s with schedule := s.schedule.tail }
  rw [step_engine_turn hturn, engineTurn_busy hbusy']
  exact ⟨t, ht, hended, hcmd, hdoneIE, herrIE, hovr, hsched⟩

/-- Settles O7: with `BUSY = 0` the engine's turn leaves the state it runs from. -/
theorem idleEngine : Obligations.IdleEngine := by
  intro s hbusy
  refine ⟨step_idle hbusy, fun rest hs => ?_⟩
  have hbusy' : { s with schedule := rest }.busy = false := hbusy
  rw [step_engine hs, engineTurn_idle hbusy']

/-- Settles O15: the word 0 decodes to `NOP`, whose rule leaves the state as it is. -/
theorem nopResult : Obligations.NopResult := by
  refine ⟨fun _ => rfl, fun s hbusy hs hcmd => ?_⟩
  have hd : decode s.cmd = .ok .nop := by rw [hcmd]; decide
  rw [step_empty hs, engineTurn_busy hbusy, complete_legal hd]
  rfl

end Sys2Proof.Machine
end

section
/-! What a command answers (60_exceptions.md R241 to R251): the fault of each test beside the stage it guards,
composed in the order of the command's rule. `Meets` says once, stage by stage, that the first fault decides and that
without one the stage's sequence comes out. -/
namespace Sys2Proof.Machine

/-! ### A stage beside its fault -/

/-- The answer is what the fault says: with none, the sequence `v`, which fits a buffer; else an error with that
`ERRINFO`. -/
def Meets (p : Params) (r : Except CmdError SampleSeq) (fault : Option Word) (v : SampleSeq) : Prop :=
  (fault = none ∧ r = .ok v ∧ v.Fits p) ∨ ∃ e : CmdError, fault = some e.info ∧ r = .error e

/-- A test is what its fault says. -/
def TestMeets {α : Type} (r : Except CmdError α) (fault : Option Word) : Prop :=
  (fault = none ∧ ∃ a, r = .ok a) ∨ ∃ e : CmdError, fault = some e.info ∧ r = .error e

section Meets
variable {p : Params} {r : Except CmdError SampleSeq} {fault fault' : Option Word} {v v' : SampleSeq}

theorem meets_ok (h : AnswerFits p r) (hfault : fault = none) (hr : r = .ok v) : Meets p r fault v :=
  .inl ⟨hfault, hr, h v hr⟩

theorem meets_error {e : CmdError} (hfault : fault = some e.info) (hr : r = .error e) : Meets p r fault v :=
  .inr ⟨e, hfault, hr⟩

/-- Two stages in a row: the first fault of the two decides. -/
theorem Meets.bind {f : SampleSeq → Except CmdError SampleSeq} (hr : Meets p r fault v)
    (hf : v.Fits p → Meets p (f v) fault' v') : Meets p (r >>= f) (fault.or fault') v' := by
  rcases hr with ⟨rfl, rfl, hv⟩ | ⟨e, rfl, rfl⟩
  · exact hf hv
  · exact meets_error rfl rfl

/-- A test before a stage. -/
theorem TestMeets.bind {α : Type} {c : Except CmdError α} {f : α → Except CmdError SampleSeq} (hc : TestMeets c fault)
    (hf : ∀ a, c = .ok a → Meets p (f a) fault' v') : Meets p (c >>= f) (fault.or fault') v' := by
  rcases hc with ⟨rfl, a, rfl⟩ | ⟨e, rfl, rfl⟩
  · exact hf a rfl
  · exact meets_error rfl rfl

end Meets

/-! ### The operand tests (60_exceptions.md R241) -/

theorem word_eq_zero_iff {v : Word} : v = 0#32 ↔ v.toNat = 0 :=
  ⟨fun h => by rw [h]; rfl, fun h => BitVec.eq_of_toNat_eq h⟩

theorem UsableSource.type_unique {s : State} {src dst : BufIx} {T T' : ElemType} (h : UsableSource s src dst T)
    (h' : (s.desc src).type = T'.code) : T = T' := by
  have hcode : ElemType.ofCode T.code = ElemType.ofCode T'.code := by rw [← h.type, h']
  simpa using hcode

/-- The operand tests of the machine and the list of operand faults agree. -/
theorem checkOperands_meets (s : State) (src dst : BufIx) :
    TestMeets (s.checkOperands src dst) (operandFault s src dst) := by
  by_cases h1 : src = dst
  · exact .inr ⟨⟨.srcDstAlias, 0⟩, if_pos h1, if_pos h1⟩
  by_cases h2 : (s.desc src).valid = false
  · exact .inr ⟨⟨.srcInvalid, 0⟩, by simp [operandFault, h1, h2, CmdError.info, SubCause.code, SubCause.number],
      by simp [State.checkOperands, h1, h2]⟩
  by_cases h3 : (s.desc src).type = 3
  · have hcode := ofCode_eq_none.mpr h3
    exact .inr ⟨⟨.badType, 0⟩, by simp [operandFault, h1, h2, h3, CmdError.info, SubCause.code, SubCause.number],
      by simp [State.checkOperands, h1, h2, hcode]⟩
  obtain ⟨T, hcode⟩ := Option.ne_none_iff_exists'.mp (mt ofCode_eq_none.mp h3)
  have hcheck : s.checkOperands src dst =
      if s.params.maxLen < (s.desc src).len.toNat then .error ⟨.badLen, 0⟩
      else if (s.desc src).len.toNat = 0 then .error ⟨.emptyInput, 0⟩
      else if (s.desc src).fs.toNat = 0 then .error ⟨.badFs, 0⟩ else .ok T := by
    simp [State.checkOperands, h1, h2, hcode, word_eq_zero_iff]
  have hfault : operandFault s src dst =
      if s.params.maxLen < (s.desc src).len.toNat then some (CmdError.info ⟨.badLen, 0⟩)
      else if (s.desc src).len.toNat = 0 then some (CmdError.info ⟨.emptyInput, 0⟩)
      else if (s.desc src).fs.toNat = 0 then some (CmdError.info ⟨.badFs, 0⟩) else none := by
    rw [operandFault, if_neg h1, if_neg h2, if_neg h3]
    rfl
  rw [hcheck, hfault]
  split
  · exact .inr ⟨_, rfl, rfl⟩
  split
  · exact .inr ⟨_, rfl, rfl⟩
  split
  · exact .inr ⟨_, rfl, rfl⟩
  · exact .inl ⟨rfl, _, rfl⟩

/-- No operand fault exactly when the source is usable, as the one type its descriptor names. -/
theorem operandFault_eq_none_iff {s : State} {src dst : BufIx} :
    operandFault s src dst = none ↔ ∃ T, UsableSource s src dst T := by
  rcases checkOperands_meets s src dst with ⟨hnone, T, hok⟩ | ⟨e, hsome, herr⟩
  · exact iff_of_true hnone ⟨T, checkOperands_eq_ok.mp hok⟩
  · refine iff_of_false (by simp [hsome]) fun ⟨T, hT⟩ => ?_
    rw [checkOperands_eq_ok.mpr hT] at herr
    cases herr

theorem loadSource_meets {s : State} {src dst : BufIx} {T : ElemType} (hT : (s.desc src).type = T.code) :
    Meets s.params (s.loadSource src dst) (operandFault s src dst) (s.srcSeq src T) := by
  rcases checkOperands_meets s src dst with ⟨hnone, T', hok⟩ | ⟨e, hsome, herr⟩
  · have hu := checkOperands_eq_ok.mp hok
    obtain rfl := hu.type_unique hT
    exact meets_ok (loadSource_fits s src dst) hnone (loadSource_usable hu)
  · exact meets_error hsome (by rw [State.loadSource, herr])

/-! ### The stages (60_exceptions.md R243 to R248) -/

theorem bankFault_eq {s : State} {b : BankIx} (info : Word) :
    bankFault s b info = none ∧ UsableBank s b ∨ bankFault s b info = some info ∧ ¬ UsableBank s b := by
  unfold bankFault UsableBank
  split <;> [right; left] <;> exact ⟨rfl, by omega⟩

/-- A filter stage beside the fault of its bank. -/
theorem filterStage_meets {s : State} {q : SampleSeq} (hq : q.Fits s.params) (b : BankIx) (stage : Nat) :
    Meets s.params (s.filterStage b stage q) (bankFault s b (CmdError.info ⟨.badTaps, stage⟩))
      (filterSeq (s.taps b) q) := by
  rcases filterStage_cases s b stage q with ⟨hb, hr⟩ | ⟨hb, hr⟩
  · have hfault := (bankFault_eq (CmdError.info ⟨.badTaps, stage⟩)).resolve_right fun h => h.2 hb
    exact meets_ok (filterStage_fits hq s b stage) hfault.1 hr
  · have hfault := (bankFault_eq (CmdError.info ⟨.badTaps, stage⟩)).resolve_left fun h => hb h.2
    exact meets_error hfault.1 hr

/-- A translation stage beside the carrier fault, for a sequence of the source's type. -/
theorem translateStage_meets {s : State} {src : BufIx} {q : SampleSeq} (hq : q.Fits s.params)
    (hT : (s.desc src).type = q.data.type.code) (fcp : Bool) (stage : Nat) :
    Meets s.params (translateStage (s.carrier fcp) stage q)
      (carrierFault s src fcp (CmdError.info ⟨.badType, stage⟩)) (translate (s.carrier fcp) q) := by
  have hcarrier : (s.carrier fcp).isSome = true ↔ fcp = true := by cases fcp <;> simp [State.carrier]
  have hcs : (s.desc src).type = 0 ↔ q.data.type = .cs := by rw [hT]; cases q.data.type <;> decide
  have hfits := translateStage_fits hq (s.carrier fcp) stage
  unfold carrierFault
  rcases translateStage_cases (s.carrier fcp) stage q with ⟨hok, hr⟩ | ⟨hsome, htype, hr⟩
  · rw [hcarrier] at hok
    exact meets_ok hfits (if_neg fun ⟨h1, h2⟩ => h2 (hcs.mpr (hok h1))) hr
  · exact meets_error (if_pos ⟨hcarrier.mp hsome, fun h => htype (hcs.mp h)⟩) hr

/-- The decimator beside its faults, for a sequence at the source's rate. -/
theorem decimate_meets {s : State} {src : BufIx} {q : SampleSeq} (hq : q.Fits s.params) (hfs : q.fs = (s.desc src).fs)
    (b : BankIx) (stage : Nat) :
    Meets s.params (s.decimate b s.fsout stage q)
      (decimFault s src b (CmdError.info ⟨.badFsout, stage⟩) (CmdError.info ⟨.decimFactor, stage⟩)
        (CmdError.info ⟨.badTaps, stage⟩)) (decimateSeq (s.taps b) s.fsout q) := by
  have hfits := decimate_fits hq s b stage
  simp only [decimFault, ← hfs, ← word_eq_zero_iff]
  unfold State.decimate at hfits ⊢
  rcases checkDecim_cases s.fsout q.fs stage with ⟨h0, h⟩ | ⟨h0, h1, h⟩ | ⟨h0, h1, h⟩ | ⟨h0, h1, -, h⟩
  · rw [h]
    exact meets_error (if_pos h0) rfl
  · rw [h] at hfits ⊢
    refine meets_ok hfits (by rw [if_neg h0, if_pos h1]) ?_
    rw [decimateSeq, if_pos h1]
    rfl
  · have hne : s.fsout ≠ q.fs := fun e => by rw [e] at h1; omega
    rw [h]
    exact meets_error (by rw [if_neg h0, if_neg hne, if_pos h1]) rfl
  · have hne : s.fsout ≠ q.fs := fun e => by rw [e] at h1; omega
    rw [h] at hfits ⊢
    rw [if_neg h0, if_neg hne, if_neg (by omega)]
    rcases loadBank_cases s b stage with ⟨hb, hl⟩ | ⟨hb, hl⟩
    · have hfault := (bankFault_eq (CmdError.info ⟨.badTaps, stage⟩)).resolve_right fun h => h.2 hb
      refine meets_ok hfits hfault.1 ?_
      simp [decimateSeq, hne, hl, bind, Except.bind, pure, Except.pure]
    · have hfault := (bankFault_eq (CmdError.info ⟨.badTaps, stage⟩)).resolve_left fun h => hb h.2
      refine meets_error hfault.1 ?_
      simp [hl, bind, Except.bind]

theorem checkDisc_meets (t : ElemType) (len : Nat) (fmdev : Word) (stage : Nat) :
    TestMeets (checkDisc t len fmdev stage)
      (if t ≠ .cs then some (CmdError.info ⟨.badType, stage⟩)
        else if fmdev = 0#32 then some (CmdError.info ⟨.badFmdev, stage⟩)
        else if len = 1 then some (CmdError.info ⟨.emptyOutput, stage⟩) else none) := by
  unfold checkDisc
  by_cases h1 : t ≠ .cs
  · simp only [if_pos h1]
    exact .inr ⟨_, rfl, rfl⟩
  by_cases h2 : fmdev = 0#32
  · simp only [if_neg h1, if_pos h2]
    exact .inr ⟨_, rfl, rfl⟩
  by_cases h3 : len = 1
  · simp only [if_neg h1, if_neg h2, if_pos h3]
    exact .inr ⟨_, rfl, rfl⟩
  · simp only [if_neg h1, if_neg h2, if_neg h3]
    exact .inl ⟨rfl, _, rfl⟩

/-- A discriminator stage beside its faults, for a sequence of the source's type and length. -/
theorem discriminateStage_meets {s : State} {src : BufIx} {q : SampleSeq} (hq : q.Fits s.params)
    (hT : (s.desc src).type = q.data.type.code) (hlen : q.data.length = (s.desc src).len.toNat) (stage : Nat) :
    Meets s.params (discriminateStage s.fmdev stage q)
      (discFault s src (CmdError.info ⟨.badType, stage⟩) (CmdError.info ⟨.badFmdev, stage⟩)
        (CmdError.info ⟨.emptyOutput, stage⟩)) (discriminate s.fmdev q) := by
  have hcs : (s.desc src).type = 0 ↔ q.data.type = .cs := by rw [hT]; cases q.data.type <;> decide
  have hfits := discriminateStage_fits hq s.fmdev stage
  have hstage := (checkDisc_meets q.data.type q.data.length s.fmdev stage).bind (p := s.params) (fault' := none)
    (f := fun _ => .ok (discriminate s.fmdev q)) fun a ha => by
      rw [discriminateStage, ha] at hfits
      exact meets_ok hfits rfl rfl
  rw [Option.or_none] at hstage
  simp only [discFault, ne_eq, hcs, ← word_eq_zero_iff, ← hlen]
  exact hstage

theorem checkNyquist_meets (c r : Word) (stage : Nat) :
    TestMeets (checkNyquist c r stage)
      (if r.toNat ≤ 2 * c.toNat then some (CmdError.info ⟨.nyquist, stage⟩) else none) := by
  rcases checkNyquist_cases c r stage with ⟨h, hr⟩ | ⟨h, hr⟩
  · exact .inl ⟨if_neg (by omega), _, hr⟩
  · exact .inr ⟨_, if_pos h, hr⟩

theorem checkFmNyquist_meets (fmdev fs : Word) (stage : Nat) :
    TestMeets (checkFmNyquist fmdev fs stage)
      (if fs.toNat ≤ 3 * fmdev.toNat then some (CmdError.info ⟨.nyquist, stage⟩) else none) := by
  rcases checkFmNyquist_cases fmdev fs stage with ⟨h, hr⟩ | ⟨h, hr⟩
  · exact .inl ⟨if_neg (by omega), _, hr⟩
  · exact .inr ⟨_, if_pos h, hr⟩

theorem loadBank_meets (s : State) (b : BankIx) (stage : Nat) :
    TestMeets (s.loadBank b stage) (bankFault s b (CmdError.info ⟨.badTaps, stage⟩)) := by
  rcases loadBank_cases s b stage with ⟨hb, hr⟩ | ⟨hb, hr⟩
  · exact .inl ⟨((bankFault_eq _).resolve_right fun h => h.2 hb).1, _, hr⟩
  · exact .inr ⟨_, ((bankFault_eq _).resolve_left fun h => hb h.2).1, hr⟩

theorem checkOddTaps_meets (s : State) (b : BankIx) (stage : Nat) :
    TestMeets (s.checkOddTaps b stage)
      (if (s.tapCount b).toNat % 2 = 0 then some (CmdError.info ⟨.hpEvenTaps, stage⟩) else none) := by
  unfold State.checkOddTaps
  split
  · exact .inr ⟨_, rfl, rfl⟩
  · exact .inl ⟨rfl, _, rfl⟩

/-- The rumble stage beside its faults: Nyquist test, bank test, odd-count test, filter pass. -/
theorem rumbleStage_meets {s : State} {q : SampleSeq} (hq : q.Fits s.params) (hpb : BankIx) :
    Meets s.params (s.rumbleStage hpb q) (rumbleFault s hpb) (filterSeq (s.taps hpb) q) := by
  have hfault : rumbleFault s hpb =
      (if s.fsout.toNat ≤ 2 * s.frumble.toNat then some (CmdError.info ⟨.nyquist, 5⟩) else none).or
        ((bankFault s hpb (CmdError.info ⟨.badTaps, 5⟩)).or
          ((if (s.tapCount hpb).toNat % 2 = 0 then some (CmdError.info ⟨.hpEvenTaps, 5⟩) else none).or none)) := by
    unfold rumbleFault
    rw [Option.or_none]
    split <;> rfl
  rw [hfault]
  refine (checkNyquist_meets _ _ 5).bind fun _ _ => (loadBank_meets s hpb 5).bind fun h hload => ?_
  refine (checkOddTaps_meets s hpb 5).bind fun _ _ => ?_
  obtain rfl : h = s.taps hpb := by
    rcases loadBank_cases s hpb 5 with ⟨-, hl⟩ | ⟨-, hl⟩ <;> rw [hl] at hload <;> cases hload
    rfl
  exact meets_ok (answerFits_ok (filterSeq_fits hq _)) rfl rfl

/-! ### The commands -/

/-- What the stages of a data command answer; `NOP` has none (30_encoding.md R93). -/
def commandAnswer (i : Instr) (s : State) : Option (Except CmdError SampleSeq) :=
  match i with
  | .nop => none
  | .fir src dst tb => some (s.firResult src dst tb)
  | .xlate src dst fcp => some (s.xlateResult src dst fcp)
  | .decim src dst aab => some (s.decimResult src dst aab)
  | .sqmag src dst => some (s.sqmagResult src dst)
  | .fmdisc src dst => some (s.fmdiscResult src dst)
  | .amdem src dst tb aab hpb fcp rum => some (s.amdemResult src dst tb aab hpb fcp rum)
  | .fmdem src dst tb aab fcp => some (s.fmdemResult src dst tb aab fcp)
  | .ssbdem src dst aab fcp => some (s.ssbdemResult src dst aab fcp)

/-- A data command commits what its stages answer. -/
theorem exec_eq_commit_answer {i : Instr} {src dst : BufIx} (hsrc : i.src? = some src) (hdst : i.dst? = some dst)
    (s : State) : ∃ r, commandAnswer i s = some r ∧ exec i s = .next (s.commit src dst r) := by
  cases i <;> cases hsrc <;> cases hdst <;> exact ⟨_, rfl, rfl⟩

/-- The stages of a command answer its first fault, or its result for the source's type. -/
theorem commandAnswer_meets {i : Instr} {s : State} {src dst : BufIx} {T : ElemType} (hsrc : i.src? = some src)
    (hdst : i.dst? = some dst) (hT : (s.desc src).type = T.code) :
    ∃ r q, commandAnswer i s = some r ∧ commandResult i s T = some q ∧ Meets s.params r (commandFault i s) q := by
  have hload := fun dst => loadSource_meets (dst := dst) hT
  have hT' : (s.desc src).type = (s.srcSeq src T).data.type.code := by rw [hT, State.srcSeq_type]
  cases i <;> cases hsrc <;> cases hdst
  case fir tb =>
    exact ⟨_, _, rfl, rfl, (hload dst).bind fun hq => filterStage_meets hq tb 1⟩
  case xlate fcp =>
    exact ⟨_, _, rfl, rfl, (hload dst).bind fun hq => translateStage_meets hq hT' fcp 1⟩
  case decim aab =>
    exact ⟨_, _, rfl, rfl, (hload dst).bind fun hq => decimate_meets hq rfl aab 1⟩
  case sqmag =>
    exact ⟨_, _, rfl, rfl, (hload dst).bind fun hq => meets_ok (answerFits_ok (sqMagSeq_fits hq)) rfl rfl⟩
  case fmdisc =>
    exact ⟨_, _, rfl, rfl, (hload dst).bind fun hq =>
      discriminateStage_meets hq hT' (State.srcSeq_length s src T) 1⟩
  case amdem tb aab hpb fcp rum =>
    refine ⟨_, _, rfl, rfl, (hload dst).bind fun hq => ?_⟩
    refine (translateStage_meets hq hT' fcp 1).bind fun h1 => ?_
    refine (decimate_meets h1 (by simp) aab 2).bind fun h2 => ?_
    refine (checkNyquist_meets s.fcutoff s.fsout 3).bind fun _ _ => ?_
    refine (filterStage_meets h2 tb 3).bind fun h3 => ?_
    cases rum with
    | false => exact meets_ok (answerFits_ok (sqMagSeq_fits h3)) rfl rfl
    | true => exact rumbleStage_meets (sqMagSeq_fits h3) hpb
  case fmdem tb aab fcp =>
    refine ⟨_, _, rfl, rfl, (hload dst).bind fun hq => ?_⟩
    refine (translateStage_meets hq hT' fcp 1).bind fun h1 => ?_
    refine (checkFmNyquist_meets s.fmdev (s.desc src).fs 2).bind fun _ _ => ?_
    refine (filterStage_meets h1 tb 2).bind fun h2 => ?_
    refine (discriminateStage_meets h2 (by simpa using hT) (by simp) 3).bind fun h3 => ?_
    exact decimate_meets h3 (by simp) aab 4
  case ssbdem aab fcp =>
    refine ⟨_, _, rfl, rfl, (hload dst).bind fun hq => ?_⟩
    exact (translateStage_meets hq hT' fcp 2).bind fun h1 => decimate_meets h1 (by simp) aab 3

end Sys2Proof.Machine
end

section
/-! The outcome of a command (60_exceptions.md R249 to R251, R257): its first fault or its whole result, and what
that depends on. -/
namespace Sys2Proof.Machine

/-! ### The first fault or the whole result -/

/-- An operand fault ends every data command, before any stage. -/
theorem commandAnswer_of_operandError {i : Instr} {s : State} {src dst : BufIx} {e : CmdError} (hsrc : i.src? = some src)
    (hdst : i.dst? = some dst) (h : s.checkOperands src dst = .error e) : commandAnswer i s = some (.error e) := by
  have hload : s.loadSource src dst = .error e := by rw [State.loadSource, h]
  cases i <;> cases hsrc <;> cases hdst <;>
    simp [commandAnswer, State.firResult, State.xlateResult, State.decimResult, State.sqmagResult, State.fmdiscResult,
      State.amdemResult, State.fmdemResult, State.ssbdemResult, hload, bind, Except.bind]

theorem commandFault_eq {i : Instr} {src dst : BufIx} (hsrc : i.src? = some src) (hdst : i.dst? = some dst)
    (s : State) :
    commandFault i s = (operandFault s src dst).or (stageFault i s) := by
  simp only [commandFault, hsrc, hdst]

/-- A data command ends in error entry for its first fault, or else writes its result for the type of its source. -/
theorem command_cases {i : Instr} {src dst : BufIx} (hsrc : i.src? = some src) (hdst : i.dst? = some dst) (s : State) :
    (∃ T q, commandFault i s = none ∧ UsableSource s src dst T ∧ commandResult i s T = some q ∧ q.Fits s.params ∧
      commandAnswer i s = some (.ok q) ∧ exec i s = .next (s.writeSeq dst q)) ∨
    ∃ e : CmdError, commandFault i s = some e.info ∧ exec i s = .next (s.raiseErr (some (src, dst)) e) := by
  obtain ⟨r, hr, hexec⟩ := exec_eq_commit_answer hsrc hdst s
  rcases checkOperands_meets s src dst with ⟨-, T, hok⟩ | ⟨e, hfault, herr⟩
  · have hu := checkOperands_eq_ok.mp hok
    obtain ⟨r', q, hr', hq, hmeets⟩ := commandAnswer_meets hsrc hdst hu.type
    obtain rfl : r' = r := Option.some.inj (hr'.symm.trans hr)
    rcases hmeets with ⟨hnone, rfl, hfits⟩ | ⟨e, hsome, rfl⟩
    · exact .inl ⟨T, q, hnone, hu, hq, hfits, hr, hexec⟩
    · exact .inr ⟨e, hsome, hexec⟩
  · obtain rfl : .error e = r := Option.some.inj ((commandAnswer_of_operandError hsrc hdst herr).symm.trans hr)
    exact .inr ⟨e, by rw [commandFault_eq hsrc hdst, hfault, Option.some_or], hexec⟩

/-! ### Which faults a command can report (60_exceptions.md R249) -/

theorem operandFault_mem {s : State} {src dst : BufIx} {e : Word} (h : operandFault s src dst = some e) :
    e ∈ headFaults := by
  rcases checkOperands_meets s src dst with ⟨hnone, -⟩ | ⟨e', hsome, herr⟩
  · rw [hnone] at h
    cases h
  · obtain rfl := Option.some.inj (hsome.symm.trans h)
    exact checkOperands_error herr

theorem bankFault_some {s : State} {b : BankIx} {info e : Word} (h : bankFault s b info = some e) : e = info := by
  rcases bankFault_eq (s := s) (b := b) info with ⟨h', -⟩ | ⟨h', -⟩ <;> rw [h'] at h <;> cases h
  rfl

theorem carrierFault_some {s : State} {src : BufIx} {fcp : Bool} {info e : Word}
    (h : carrierFault s src fcp info = some e) : e = info := by
  unfold carrierFault at h
  split at h <;> cases h
  rfl

theorem decimFault_some {s : State} {src : BufIx} {b : BankIx} {i1 i2 i3 e : Word}
    (h : decimFault s src b i1 i2 i3 = some e) : e = i1 ∨ e = i2 ∨ e = i3 := by
  unfold decimFault at h
  split at h
  · cases h; exact .inl rfl
  split at h
  · cases h
  split at h
  · cases h; exact .inr (.inl rfl)
  · exact .inr (.inr (bankFault_some h))

theorem discFault_some {s : State} {src : BufIx} {i1 i2 i3 e : Word} (h : discFault s src i1 i2 i3 = some e) :
    e = i1 ∨ e = i2 ∨ e = i3 := by
  unfold discFault at h
  split at h
  · cases h; exact .inl rfl
  split at h
  · cases h; exact .inr (.inl rfl)
  split at h
  · cases h; exact .inr (.inr rfl)
  · cases h

theorem rumbleFault_some {s : State} {hpb : BankIx} {e : Word} (h : rumbleFault s hpb = some e) :
    e = 0x00050A01 ∨ e = 0x00050901 ∨ e = 0x00050B01 := by
  unfold rumbleFault at h
  split at h
  · cases h; exact .inl rfl
  · rcases Option.or_eq_some_iff.mp h with h | ⟨-, h⟩
    · exact .inr (.inl (bankFault_some h))
    · split at h <;> cases h
      exact .inr (.inr rfl)

/-- The faults of the stages of a command, after those of its operands. -/
theorem stageFault_mem {i : Instr} {s : State} {e : Word} (h : stageFault i s = some e) : e ∈ (faultsOf i).drop 6 := by
  have hnyquist {p : Prop} [Decidable p] {info : Word} (h : (if p then some info else none) = some e) : e = info := by
    split at h <;> cases h
    rfl
  cases i with
  | nop => cases h
  | fir src dst tb => simp [faultsOf, headFaults, bankFault_some h]
  | xlate src dst fcp => simp [faultsOf, headFaults, carrierFault_some h]
  | decim src dst aab => simpa [faultsOf, headFaults] using decimFault_some h
  | sqmag src dst => cases h
  | fmdisc src dst => simpa [faultsOf, headFaults] using discFault_some h
  | amdem src dst tb aab hpb fcp rum =>
    simp only [stageFault, Option.or_eq_some_iff] at h
    rcases h with h | ⟨-, h | ⟨-, h | ⟨-, h | ⟨-, h⟩⟩⟩⟩
    · simp [faultsOf, headFaults, carrierFault_some h]
    · rcases decimFault_some h with rfl | rfl | rfl <;> simp [faultsOf, headFaults]
    · simp [faultsOf, headFaults, hnyquist h]
    · simp [faultsOf, headFaults, bankFault_some h]
    · cases rum with
      | false => cases h
      | true => rcases rumbleFault_some h with rfl | rfl | rfl <;> simp [faultsOf, headFaults]
  | fmdem src dst tb aab fcp =>
    simp only [stageFault, Option.or_eq_some_iff] at h
    rcases h with h | ⟨-, h | ⟨-, h | ⟨-, h | ⟨-, h⟩⟩⟩⟩
    · simp [faultsOf, headFaults, carrierFault_some h]
    · simp [faultsOf, headFaults, hnyquist h]
    · simp [faultsOf, headFaults, bankFault_some h]
    · rcases discFault_some h with rfl | rfl | rfl <;> simp [faultsOf, headFaults]
    · rcases decimFault_some h with rfl | rfl | rfl <;> simp [faultsOf, headFaults]
  | ssbdem src dst aab fcp =>
    simp only [stageFault, Option.or_eq_some_iff] at h
    rcases h with h | ⟨-, h⟩
    · simp [faultsOf, headFaults, carrierFault_some h]
    · rcases decimFault_some h with rfl | rfl | rfl <;> simp [faultsOf, headFaults]

theorem headFaults_subset {i : Instr} {src : BufIx} (h : i.src? = some src) : headFaults ⊆ faultsOf i := by
  cases i <;> cases h <;> simp [faultsOf]

/-- The fault of a command is one of those listed for it. -/
theorem commandFault_mem {i : Instr} {s : State} {e : Word} (h : commandFault i s = some e) : e ∈ faultsOf i := by
  cases hsrc : i.src? with
  | none => simp [commandFault, hsrc] at h
  | some src =>
    cases hdst : i.dst? with
    | none => simp [commandFault, hsrc, hdst] at h
    | some dst =>
      rw [commandFault_eq hsrc hdst, Option.or_eq_some_iff] at h
      rcases h with h | ⟨-, h⟩
      · exact headFaults_subset hsrc (operandFault_mem h)
      · exact List.drop_subset _ _ (stageFault_mem h)

/-- A command is `NOP`, or a data command with a source and a destination. -/
theorem nop_or_data (i : Instr) : i = .nop ∨ ∃ src dst, i.src? = some src ∧ i.dst? = some dst :=
  (exec_eq_commit i State.reset).imp (fun h => h.1) fun ⟨src, dst, _, hsrc, hdst, _⟩ => ⟨src, dst, hsrc, hdst⟩

/-- Settles O10: `NOP` has no fault and changes nothing; a data command writes its result, no flag touched, or takes
error entry for its first fault. -/
theorem firstFaultReported : Obligations.FirstFaultReported := by
  intro i s
  rcases nop_or_data i with rfl | ⟨src, dst, hsrc, hdst⟩
  · exact ⟨s, rfl, rfl, rfl, rfl, rfl, rfl⟩
  rcases command_cases hsrc hdst s with ⟨T, q, hnone, -, -, -, -, hexec⟩ | ⟨e, hsome, hexec⟩
  · refine ⟨_, hexec, ?_⟩
    rw [hnone]
    exact writeSeq_sameFlags s dst q
  · refine ⟨_, hexec, ?_⟩
    rw [hsome]
    exact ⟨commandFault_mem hsome, by simp, by simp, by simp, by simp, by simp⟩

/-- Settles O11: the result is written whole, by `writeSeq_holds`; error entry withdraws the destination unless it is
the source. -/
theorem allOrNothing : Obligations.AllOrNothing := by
  intro i s src dst hsrc hdst
  rcases command_cases hsrc hdst s with ⟨T, q, hnone, hu, hq, ⟨hpos, hmax⟩, -, hexec⟩ | ⟨e, hsome, hexec⟩
  · exact ⟨_, hexec, writeSeq_onlyBuffer dst hmax,
      .inl ⟨hnone, writeSeq_sameFlags s dst q, T, q, hu.type, hq, hpos, hmax, writeSeq_holds dst hmax⟩⟩
  · refine ⟨_, hexec, raiseErr_onlyBuffer src dst e s,
      .inr ⟨e.info, hsome, by simp, by simp, by simp, by simp, by simp, fun heq => ?_, fun hne => ?_⟩⟩
    · rw [raiseErr_untouched (by intro p hp; cases hp; exact heq)]
      exact ⟨rfl, rfl⟩
    · rw [raiseErr_distinct hne]
      refine ⟨State.desc_withdraw_same dst _, fun a h1 h2 => ?_⟩
      rw [State.withdraw_mem, read_forget (bufAddr_le_bufEnd _ _), if_pos ⟨h1, h2⟩]

/-! ### The shape of a result depends on no sample and no tap (60_exceptions.md R257) -/

/-- The two sequences have one rate, one type and one length. -/
structure SameShape (q q' : SampleSeq) : Prop where
  fs : q'.fs = q.fs
  type : q'.data.type = q.data.type
  length : q'.data.length = q.data.length

section SameShape
variable {q q' : SampleSeq} (h : SameShape q q')
include h

theorem SameShape.filterSeq (a a' : List F64) : SameShape (filterSeq a q) (filterSeq a' q') :=
  ⟨h.fs, by simp [h.type], by simp [h.length]⟩

theorem SameShape.sqMagSeq : SameShape (sqMagSeq q) (sqMagSeq q') :=
  ⟨h.fs, by simp [h.type], by simp [h.length]⟩

theorem SameShape.translate (fc : Option Int) : SameShape (translate fc q) (translate fc q') :=
  ⟨by simp [h.fs], by simp [h.type], by simp [h.length]⟩

theorem SameShape.discriminate (v : Word) : SameShape (discriminate v q) (discriminate v q') := by
  by_cases hcs : q.data.type = .cs
  · have hcs' := h.type.trans hcs
    obtain ⟨ht, hl⟩ := discriminate_shape v hcs
    obtain ⟨ht', hl'⟩ := discriminate_shape v hcs'
    exact ⟨by simp [h.fs], by rw [ht, ht'], by rw [hl, hl', h.length]⟩
  · have keep {r : SampleSeq} (hr : r.data.type ≠ .cs) : Machine.discriminate v r = r := by
      obtain ⟨fs, x⟩ := r
      cases x with
      | cs x => exact absurd rfl hr
      | rs x => rfl
      | rd x => rfl
    rw [keep hcs, keep (h.type ▸ hcs)]
    exact h

/-- The decimator keeps the type and answers as many elements as the length and the rates say, whatever the taps. -/
theorem SameShape.decimateSeq (a a' : List F64) (fsOut : Word) :
    SameShape (decimateSeq a fsOut q) (decimateSeq a' fsOut q') := by
  have hstride {d : Nat} (x : Samples) : (x.stride d).length = retained x.length d := by
    rcases Nat.eq_zero_or_pos d with rfl | hd
    · cases x <;> simp [Samples.stride, strideList, Samples.length, retained]
    · exact Samples.stride_length hd x
  unfold Machine.decimateSeq
  rw [h.fs]
  split
  · exact h
  · exact ⟨rfl, by simp [h.type], by simp [hstride, h.length]⟩

end SameShape

theorem sameShape_srcSeq {s s' : State} {src : BufIx} (h : s'.desc src = s.desc src) (T : ElemType) :
    SameShape (s.srcSeq src T) (s'.srcSeq src T) := ⟨by simp [h], by simp, by simp [h]⟩

/-- The result of a command has the same shape in two states that agree on all but memory. -/
theorem commandResult_sameShape {i : Instr} {s : State} {T : ElemType} {q q' : SampleSeq} (m : List Host.Cell) (d : Nat)
    (h : commandResult i s T = some q) (h' : commandResult i { s with mem := m, draws := d } T = some q') :
    SameShape q q' := by
  have hsrc (j : BufIx) : SameShape (s.srcSeq j T) ({ s with mem := m, draws := d }.srcSeq j T) :=
    sameShape_srcSeq (s := s) (s' := { s with mem := m, draws := d }) rfl T
  cases i with
  | nop => cases h
  | fir src dst tb => cases h; cases h'; exact (hsrc src).filterSeq _ _
  | xlate src dst fcp => cases h; cases h'; exact (hsrc src).translate _
  | decim src dst aab => cases h; cases h'; exact (hsrc src).decimateSeq _ _ _
  | sqmag src dst => cases h; cases h'; exact (hsrc src).sqMagSeq
  | fmdisc src dst => cases h; cases h'; exact (hsrc src).discriminate _
  | amdem src dst tb aab hpb fcp rum =>
    have hsq := ((((hsrc src).translate (if fcp then some s.fc.toInt else none)).decimateSeq (s.taps aab)
      ({ s with mem := m, draws := d }.taps aab) s.fsout).filterSeq (s.taps tb)
      ({ s with mem := m, draws := d }.taps tb)).sqMagSeq
    cases rum with
    | false => cases h; cases h'; exact hsq
    | true => cases h; cases h'; exact hsq.filterSeq _ _
  | fmdem src dst tb aab fcp =>
    cases h; cases h'
    exact ((((hsrc src).translate _).filterSeq _ _).discriminate _).decimateSeq _ _ _
  | ssbdem src dst aab fcp =>
    cases h; cases h'
    exact ((hsrc src).translate _).decimateSeq _ _ _

/-- No test looks at memory (60_exceptions.md R257). -/
theorem commandFault_mem_irrelevant (i : Instr) (s : State) (m : List Host.Cell) (d : Nat) :
    commandFault i { s with mem := m, draws := d } = commandFault i s := by
  cases i <;> rfl

theorem writeSeq_sameButMemory {s : State} {q q' : SampleSeq} (h : SameShape q q') (j : BufIx) (m : List Host.Cell)
    (d : Nat) : SameButMemory (s.writeSeq j q) (State.writeSeq j q' { s with mem := m, draws := d }) := by
  simp only [SameButMemory, State.writeSeq, h.fs, h.type, h.length]

theorem raiseErr_sameButMemory {s : State} {e e' : CmdError} (h : e'.info = e.info) (src dst : BufIx)
    (m : List Host.Cell) (d : Nat) :
    SameButMemory (s.raiseErr (some (src, dst)) e) (State.raiseErr (some (src, dst)) e' { s with mem := m, draws := d }) := by
  by_cases heq : src = dst
  · simp only [SameButMemory, State.raiseErr, if_pos heq, h]
  · simp only [SameButMemory, State.raiseErr, if_neg heq, h, State.withdraw, State.desc]

/-- Settles O13: neither the fault nor the shape of the result depends on memory. -/
theorem outcomeIgnoresSamples : Obligations.OutcomeIgnoresSamples := by
  intro i s s' t hsame ht
  obtain ⟨m, d, rfl⟩ : ∃ m d, s' = { s with mem := m, draws := d } := ⟨_, _, hsame⟩
  have hfault := commandFault_mem_irrelevant i s m d
  rcases nop_or_data i with rfl | ⟨src, dst, hsrc, hdst⟩
  · cases ht
    exact ⟨_, rfl, rfl⟩
  rcases command_cases hsrc hdst s with ⟨T, q, hnone, hu, hq, -, -, hexec⟩ | ⟨e, hsome, hexec⟩ <;>
    cases hexec.symm.trans ht <;>
    rcases command_cases hsrc hdst { s with mem := m, draws := d } with
      ⟨T', q', hnone', hu', hq', -, -, hexec'⟩ | ⟨e', hsome', hexec'⟩
  · obtain rfl : T' = T := hu'.type_unique hu.type
    exact ⟨_, hexec', writeSeq_sameButMemory (commandResult_sameShape m d hq hq') dst m d⟩
  · simp [hfault, hnone] at hsome'
  · simp [hfault, hsome] at hnone'
  · rw [hfault, hsome] at hsome'
    exact ⟨_, hexec', raiseErr_sameButMemory (Option.some.inj hsome').symm src dst m d⟩

/-! ### What a result is computed from (10_state.md R39) -/

theorem readBytes_congr {m m' : Memory} {a n : Nat} (h : ∀ k < n, Memory.read m' (a + k) = Memory.read m (a + k)) :
    m'.readBytes a n = m.readBytes a n :=
  List.map_congr_left fun k hk => h k (List.mem_range.mp hk)

theorem readFp_congr {w : Nat} {m m' : Memory} {a : Nat}
    (h : ∀ k < w / 8, Memory.read m' (a + k) = Memory.read m (a + k)) : m'.readFp w a = m.readFp w a := by
  rw [Memory.readFp, Memory.readFp, readBytes_congr h]

section SameInputs
variable {s s' : State} {src : BufIx} (h : SameInputs s s' src)
include h

theorem SameInputs.tapCount (b : BankIx) : s'.tapCount b = s.tapCount b := by
  rw [State.tapCount, State.tapCount, h.tapCounts]

theorem SameInputs.carrier (fcp : Bool) : s'.carrier fcp = s.carrier fcp := by
  rw [State.carrier, State.carrier, h.registers.1]

theorem SameInputs.srcSeq {dst : BufIx} {T : ElemType} (hu : UsableSource s src dst T) :
    s'.srcSeq src T = s.srcSeq src T := by
  have hread {off n : Nat} (hoff : off + n ≤ 8 * s.params.maxLen) : ∀ k < n,
      Memory.read s'.mem (bufAddr src + off + k) = Memory.read s.mem (bufAddr src + off + k) := by
    intro k hk
    refine h.source _ (by omega) ?_
    rw [bufEnd]
    omega
  have hfits := hu.fits
  simp only [State.srcSeq, h.descriptor, SampleSeq.mk.injEq, true_and]
  cases T with
  | cs =>
    refine congrArg Samples.cs (List.map_congr_left fun n hn => ?_)
    have hn := List.mem_range.mp hn
    simp only [Memory.readCx, Cx.mk.injEq]
    exact ⟨readFp_congr (hread (n := 4) (by omega)), readFp_congr (by
      simpa only [Nat.add_assoc] using hread (off := 8 * n + 4) (n := 4) (by omega))⟩
  | rs =>
    refine congrArg Samples.rs (List.map_congr_left fun n hn => ?_)
    have hn := List.mem_range.mp hn
    exact readFp_congr (hread (n := 4) (by omega))
  | rd =>
    refine congrArg Samples.rd (List.map_congr_left fun n hn => ?_)
    have hn := List.mem_range.mp hn
    exact readFp_congr (hread (n := 8) (by omega))

theorem SameInputs.loadSource (dst : BufIx) : s'.loadSource src dst = s.loadSource src dst := by
  have hcheck : s'.checkOperands src dst = s.checkOperands src dst := by
    simp only [State.checkOperands, h.descriptor, h.model.1]
  rw [State.loadSource, State.loadSource, hcheck]
  cases hr : s.checkOperands src dst with
  | error e => rfl
  | ok T => exact congrArg Except.ok (h.srcSeq (checkOperands_eq_ok.mp hr))

theorem SameInputs.taps {b : BankIx} (hb : UsableBank s b) : s'.taps b = s.taps b := by
  rw [State.taps, State.taps, h.tapCount]
  refine List.map_congr_left fun k hk => readFp_congr fun i hi => h.banks b _ (by omega) ?_
  have hk := List.mem_range.mp hk
  have := hb.2
  rw [tapEnd]
  omega

theorem SameInputs.loadBank (b : BankIx) (stage : Nat) : s'.loadBank b stage = s.loadBank b stage := by
  by_cases hb : UsableBank s b
  · have hb' : UsableBank s' b := by rwa [UsableBank, h.tapCount, h.model.1]
    rw [loadBank_usable hb, loadBank_usable hb', h.taps hb]
  · have hb' : ¬ UsableBank s' b := by rwa [UsableBank, h.tapCount, h.model.1]
    rw [((loadBank_cases s b stage).resolve_left fun hc => hb hc.1).2,
      ((loadBank_cases s' b stage).resolve_left fun hc => hb' hc.1).2]

theorem SameInputs.decimate (b : BankIx) (fsOut : Word) (stage : Nat) :
    s'.decimate b fsOut stage = s.decimate b fsOut stage := by
  funext q
  simp only [State.decimate, h.loadBank]

theorem SameInputs.filterStage (b : BankIx) (stage : Nat) : s'.filterStage b stage = s.filterStage b stage := by
  funext q
  simp only [State.filterStage, h.loadBank]

theorem SameInputs.rumbleStage (hpb : BankIx) : s'.rumbleStage hpb = s.rumbleStage hpb := by
  obtain ⟨-, hfsout, -, hfrumble, -⟩ := h.registers
  funext q
  simp only [State.rumbleStage, State.checkOddTaps, h.loadBank, h.tapCount, hfsout, hfrumble]

/-- The stages of a command answer the same in two states with the same inputs. -/
theorem SameInputs.commandAnswer {i : Instr} (hsrc : i.src? = some src) : commandAnswer i s' = commandAnswer i s := by
  obtain ⟨-, hfsout, hfcutoff, -, hfmdev⟩ := h.registers
  cases i <;> cases hsrc <;>
    simp only [Machine.commandAnswer, State.firResult, State.xlateResult, State.decimResult, State.sqmagResult,
      State.fmdiscResult, State.amdemResult, State.fmdemResult, State.ssbdemResult, h.loadSource, h.loadBank, h.carrier,
      h.decimate, h.filterStage, h.rumbleStage, hfsout, hfcutoff, hfmdev]

/-- One result written in both states leaves the same in the destination. -/
theorem SameInputs.writeSeq (j : BufIx) {q : SampleSeq} (hq : q.data.length ≤ s.params.maxLen) {a : Nat}
    (h1 : bufAddr j ≤ a) (h2 : a < bufEnd s.params j) :
    Memory.read (s'.writeSeq j q).mem a = Memory.read (s.writeSeq j q).mem a := by
  obtain ⟨hparams, hdraws⟩ := h.model
  have hq' : q.data.length ≤ s'.params.maxLen := hparams ▸ hq
  rw [State.writeSeq_mem, State.writeSeq_mem, read_fill (writeSeq_fits hq), read_fill (writeSeq_fits hq'), hparams, hdraws,
    if_pos ⟨h1, h2⟩, if_pos ⟨h1, h2⟩]

end SameInputs

/-- Settles O14: both states' stages answer one sequence, and both destinations receive it. -/
theorem resultIgnoresRest : Obligations.ResultIgnoresRest := by
  intro i s s' src dst hsrc hdst h hnone
  rcases command_cases hsrc hdst s with ⟨T, q, -, -, -, hfits, hr, hexec⟩ | ⟨e, hsome, -⟩
  · obtain ⟨r', hr', hexec'⟩ := exec_eq_commit_answer hsrc hdst s'
    obtain rfl : .ok q = r' := Option.some.inj (by rw [← hr, ← hr', h.commandAnswer hsrc])
    exact ⟨_, _, hexec, hexec', writeSeq_sameFlags s dst q, writeSeq_sameFlags s' dst q,
      by rw [State.commit, State.desc_writeSeq_same, State.desc_writeSeq_same], fun a h1 h2 => h.writeSeq dst hfits.2 h1 h2⟩
  · simp [hnone] at hsome

end Sys2Proof.Machine
end

section
/-! The invariant (10_state.md R26; 30_encoding.md R91; 60_exceptions.md R249, R253): it holds after reset, and the
turn of either agent keeps it. -/
namespace Sys2Proof.Machine

/-- Settles O8: after reset no byte is listed, and `BUSY`, `ERR` and `ERRINFO` are clear. -/
theorem invAtReset : Obligations.InvAtReset := by
  refine ⟨wf_nil _, ?_, ?_, .inl rfl⟩
  · intro hbusy
    cases hbusy
  · intro herr
    cases herr

/-! ### The engine's turn -/

theorem faultsOf_ne_zero {i : Instr} {e : Word} (h : e ∈ faultsOf i) : e ≠ 0#32 := by
  have hnone : (0#32) ∉ faultsOf i := by cases i <;> simp [faultsOf, headFaults]
  exact fun he => hnone (he ▸ h)

theorem faultsOfWord_legal {w : Word} {i : Instr} (h : decode w = .ok i) : faultsOfWord w = faultsOf i := by
  rw [faultsOfWord, h]

theorem faultsOfWord_illegal {w : Word} {r : Illegal} (h : decode w = .error r) : faultsOfWord w = [0x00000101] := by
  rw [faultsOfWord, h]

/-- A command leaves memory in its canonical form. -/
theorem exec_wf {i : Instr} {s t : State} (hw : Memory.wf s.params s.mem = true) (h : exec i s = .next t) :
    Memory.wf t.params t.mem = true := by
  rcases nop_or_data i with rfl | ⟨src, dst, hsrc, hdst⟩
  · cases h
    exact hw
  rcases command_cases hsrc hdst s with ⟨T, q, -, -, -, hfits, -, hexec⟩ | ⟨e, -, hexec⟩
  · cases hexec.symm.trans h
    exact writeSeq_wf hw dst hfits.2
  · cases hexec.symm.trans h
    rw [State.raiseErr_params]
    exact raiseErr_wf hw _ e

/-- After a command `ERR` and `ERRINFO` are as before, or a fault of its list is reported. -/
theorem exec_errinfo {i : Instr} {s t : State} (h : exec i s = .next t) :
    (t.err = s.err ∧ t.errinfo = s.errinfo) ∨ t.errinfo ∈ faultsOf i := by
  obtain ⟨t', ht', hreport⟩ := firstFaultReported i s
  cases ht'.symm.trans h
  cases hfault : commandFault i s with
  | none =>
    rw [hfault] at hreport
    obtain ⟨-, -, herr, -, herrinfo⟩ := hreport
    exact .inl ⟨herr, herrinfo⟩
  | some e =>
    rw [hfault] at hreport
    obtain ⟨he, -, herrinfo, -⟩ := hreport
    exact .inr (herrinfo ▸ he)

theorem complete_inv {s t : State} (h : Inv s) (ht : complete s = .next t) : Inv t := by
  cases hd : decode s.cmd with
  | ok i =>
    obtain ⟨u, hexec, hc⟩ := complete_exec hd
    cases hc.symm.trans ht
    have hwf := exec_wf h.memory hexec
    have hcmd : u.cmd = s.cmd := (exec_keepsControl hexec).cmd
    have hfaults : faultsOfWord u.cmd = faultsOf i := by rw [hcmd, faultsOfWord_legal hd]
    rcases exec_errinfo hexec with ⟨herr, herrinfo⟩ | hfault
    · exact ⟨hwf, nofun, fun he => herrinfo ▸ h.cause (herr ▸ he),
        by simpa only [herrinfo, hcmd] using h.errinfo⟩
    · exact ⟨hwf, nofun, fun _ => faultsOf_ne_zero hfault, .inr (hfaults ▸ hfault)⟩
  | error r =>
    cases (complete_illegal hd).symm.trans ht
    refine ⟨h.memory, nofun, fun _ => by simp, .inr ?_⟩
    rw [faultsOfWord_illegal hd]
    exact List.mem_singleton.mpr rfl

/-! ### The host's turn -/

/-- The flags the invariant speaks of stay, except that `DONE` and `ERR` may be cleared. -/
structure FlagsCleared (s t : State) : Prop where
  busy : t.busy = s.busy
  cmd : t.cmd = s.cmd
  errinfo : t.errinfo = s.errinfo
  done : t.done = true → s.done = true
  err : t.err = true → s.err = true

theorem Inv.of_flagsCleared {s t : State} (h : Inv s) (hw : Memory.wf t.params t.mem = true) (hf : FlagsCleared s t) :
    Inv t := by
  refine ⟨hw, fun hbusy => ?_, fun herr => ?_, ?_⟩
  · obtain ⟨hdone, herr, hinfo⟩ := h.running (hf.busy ▸ hbusy)
    refine ⟨?_, ?_, hf.errinfo.trans hinfo⟩
    · exact Bool.eq_false_iff.mpr fun hd => by simp [hf.done hd] at hdone
    · exact Bool.eq_false_iff.mpr fun he => by simp [hf.err he] at herr
  · rw [hf.errinfo]
    exact h.cause (hf.err herr)
  · rw [hf.errinfo, hf.cmd]
    exact h.errinfo

/-- A register write clears flags at most, unless it is an accepted `CMD` write. -/
theorem writeReg_flags (r : Reg) (v : Word) (s : State) :
    FlagsCleared s (s.writeReg r v) ∨
      s.writeReg r v = { s with cmd := v, errinfo := 0, done := false, busy := true } ∧ s.err = false := by
  unfold State.writeReg
  split
  · exact .inl ⟨rfl, rfl, rfl, id, id⟩
  cases r with
  | status =>
    exact .inl ⟨rfl, rfl, rfl, fun h => (Bool.and_eq_true_iff.mp h).1, fun h => (Bool.and_eq_true_iff.mp h).1⟩
  | cmd =>
    rcases writeCmd_cases v s with ⟨-, hw⟩ | ⟨-, herr, hw⟩
    · left
      rw [State.storeReg, hw]
      exact ⟨rfl, rfl, rfl, id, id⟩
    · exact .inr ⟨hw, herr⟩
  | _ => exact .inl ⟨rfl, rfl, rfl, id, id⟩

theorem writeReg_inv {s : State} (h : Inv s) (r : Reg) (v : Word) : Inv (s.writeReg r v) := by
  rcases writeReg_flags r v s with hf | ⟨hw, herr⟩
  · obtain ⟨hmem, hparams⟩ := writeReg_mem r v s
    exact h.of_flagsCleared (by rw [hmem, hparams]; exact h.memory) hf
  · rw [hw]
    exact ⟨h.memory, fun _ => ⟨rfl, herr, rfl⟩, fun he => by simp [herr] at he, .inl rfl⟩

/-- No field the invariant speaks of but memory. -/
theorem Inv.with_model {s : State} (h : Inv s) (port : PortResponse) (draws : Nat) (schedule : List Turn) :
    Inv { s with port := port, draws := draws, schedule := schedule } :=
  ⟨h.memory, h.running, h.cause, h.errinfo⟩

theorem hostRead_inv {s : State} (h : Inv s) (bits : Nat) (a : Word) : Inv (s.hostRead bits a) := by
  rcases hostRead_cases bits a s with ⟨-, hr⟩ | ⟨-, -, hr⟩ | ⟨-, -, -, hr⟩ | ⟨-, -, -, hr⟩ <;> rw [hr]
  · exact h.with_model _ _ _
  · exact h.with_model _ _ _
  · exact h.with_model _ _ _
  · exact h.with_model _ _ _

theorem hostWrite_inv {s : State} (h : Inv s) (bits : Nat) (a v : Word) : Inv (s.hostWrite bits a v) := by
  rcases hostWrite_cases bits a v s with ⟨-, hw⟩ | ⟨-, -, hw⟩ | ⟨hp, hreg, hw⟩ <;> rw [hw]
  · exact h.with_model _ _ _
  · exact (writeReg_inv h _ v).with_model _ _ _
  · have hwf := writeMem_wf h.memory hp hreg v
    refine Inv.with_model ?_ _ _ _
    unfold State.writeMem at hwf ⊢
    split at hwf
    · next hbusy => rw [if_pos hbusy]; exact h.of_flagsCleared hwf ⟨rfl, rfl, rfl, id, id⟩
    · next hbusy => rw [if_neg hbusy]; exact h.of_flagsCleared hwf ⟨rfl, rfl, rfl, id, id⟩

theorem hostStep_inv {s : State} (h : Inv s) (t : HostTxn) : Inv (State.hostStep t s) := by
  cases t with
  | read bits a => exact hostRead_inv h bits a
  | write bits a v => exact hostWrite_inv h bits a v
  | reset => exact ⟨wf_nil _, nofun, nofun, .inl rfl⟩

/-! ### The step -/

theorem engineTurn_inv {s t : State} (h : Inv s) (ht : engineTurn s = .next t) : Inv t := by
  cases hbusy : s.busy with
  | true => exact complete_inv h ((engineTurn_busy hbusy).symm.trans ht)
  | false =>
    cases (engineTurn_idle hbusy).symm.trans ht
    exact h

/-- Settles O9: the first turn of the schedule is the engine's or the host's, and each keeps the invariant. -/
theorem stepKeepsInv : Obligations.StepKeepsInv := by
  intro s t h ht
  have hrest (rest : List Turn) : Inv { s with schedule := rest } := h.with_model s.port s.draws rest
  cases hs : s.schedule with
  | nil => exact engineTurn_inv h ((step_empty hs).symm.trans ht)
  | cons turn rest =>
    cases turn with
    | engine => exact engineTurn_inv (hrest rest) ((step_engine hs).symm.trans ht)
    | host txn =>
      cases (step_host hs).symm.trans ht
      exact hostStep_inv (hrest rest) txn

end Sys2Proof.Machine
end

section
/-! Values in memory and the lists of elements the commands work on: a value read from bytes and written as bytes
(20_memory.md R60, R62, R63), a complex list by its parts, neighbours, and every `D`-th element (43_decimate.md
R181). -/
namespace Sys2Proof.Machine

/-! ### Bytes and patterns (20_memory.md R60) -/

/-- Byte `k` of a pattern is digit `k` of its number in base 256. -/
theorem extractByte_eq {w : Nat} (b : BitVec w) (k : Nat) :
    b.extractLsb' (8 * k) 8 = BitVec.ofNat 8 (b.toNat / 256 ^ k) := by
  rw [BitVec.extractLsb', Nat.shiftRight_eq_div_pow, Nat.pow_mul]

/-- The bytes have a little-endian number exactly when they are all specified and are its digits. -/
theorem leNat?_eq_some_iff {l : List MaybeByte} {n : Nat} :
    leNat? l = some n ↔
      n < 256 ^ l.length ∧ l = (List.range l.length).map fun i => some (BitVec.ofNat 8 (n / 256 ^ i)) := by
  induction l generalizing n with
  | nil => simp [leNat?, eq_comm]
  | cons x t ih =>
    simp only [List.length_cons, List.range_succ_eq_map, List.map_cons, List.map_map, List.cons.injEq]
    cases x with
    | none => simp [leNat?]
    | some b =>
      have hdigits : ((fun i => some (BitVec.ofNat 8 (n / 256 ^ i))) ∘ Nat.succ) =
          fun i => some (BitVec.ofNat 8 (n / 256 / 256 ^ i)) := by
        funext i
        simp [Nat.pow_succ', Nat.div_div_eq_div_mul]
      have hhead : b = BitVec.ofNat 8 n ↔ b.toNat = n % 256 := by
        rw [← BitVec.toNat_inj, BitVec.toNat_ofNat]
      have hb := b.isLt
      simp only [leNat?, Option.map_eq_some_iff, ih, hdigits, Nat.pow_zero, Nat.div_one, Option.some.injEq, hhead,
        Nat.pow_succ']
      constructor
      · rintro ⟨m, ⟨hm, ht⟩, rfl⟩
        have hdiv : (b.toNat + 256 * m) / 256 = m := by omega
        rw [hdiv]
        exact ⟨by omega, by omega, ht⟩
      · rintro ⟨hn, hmod, ht⟩
        exact ⟨n / 256, ⟨by omega, ht⟩, by omega⟩

/-- A value whose bytes are those of a pattern is that pattern. -/
theorem readFp_eq_pat {w : Nat} (hw : w = 32 ∨ w = 64) {m : Memory} {a : Nat} {b : BitVec w}
    (h : m.readBytes a (w / 8) = (List.range (w / 8)).map fun i => some (byteOf b i)) : m.readFp w a = .pat b := by
  have hpow : 256 ^ (w / 8) = 2 ^ w := by rcases hw with rfl | rfl <;> norm_num
  have hnum : leNat? (m.readBytes a (w / 8)) = some b.toNat := by
    rw [leNat?_eq_some_iff, Memory.readBytes_length, hpow, h]
    exact ⟨b.isLt, by simp only [byteOf, extractByte_eq]⟩
  rw [Memory.readFp, Fp.ofBytes, hnum]
  exact congrArg Fp.pat (BitVec.ofNat_toNat w b |>.trans (BitVec.setWidth_eq b))

/-- A value of which a byte is unspecified keeps its bytes (log 7). -/
theorem readFp_eq_unspec {w : Nat} {m : Memory} {a k : Nat} (hk : k < w / 8) (h : Memory.read m (a + k) = none) :
    m.readFp w a = .unspec (m.readBytes a (w / 8)) := by
  have hnum : leNat? (m.readBytes a (w / 8)) = none := by
    cases hn : leNat? (m.readBytes a (w / 8)) with
    | none => rfl
    | some n =>
      rw [leNat?_eq_some_iff, Memory.readBytes_length] at hn
      have hbyte := congrArg (fun l => l[k]?) hn.2
      simp [Memory.readBytes, hk, h] at hbyte
  rw [Memory.readFp, Fp.ofBytes, hnum]

/-- A value read and written is its bytes, unspecified ones included (93_implementation_defined.md U8, U9). -/
theorem toBytes_readFp {w : Nat} (hw : w = 32 ∨ w = 64) (d k : Nat) (m : Memory) (a : Nat) :
    Fp.toBytes d k (m.readFp w a) = m.readBytes a (w / 8) := by
  have hlen := Memory.readBytes_length m a (w / 8)
  rw [Memory.readFp, Fp.ofBytes]
  cases hn : leNat? (m.readBytes a (w / 8)) with
  | none => exact map_join_getElem? hlen
  | some n =>
    rw [leNat?_eq_some_iff, hlen] at hn
    rw [hn.2]
    have hpow : 256 ^ (w / 8) = 2 ^ w := by rcases hw with rfl | rfl <;> norm_num
    have hnum : (BitVec.ofNat w n).toNat = n := by rw [BitVec.toNat_ofNat, Nat.mod_eq_of_lt (hpow ▸ hn.1)]
    simp only [Fp.toBytes, byteOf, extractByte_eq, hnum]

/-! ### A sequence in memory -/

theorem readBytes_add (m : Memory) (a n k : Nat) :
    m.readBytes a (n + k) = m.readBytes a n ++ m.readBytes (a + n) k := by
  simp only [Memory.readBytes, List.range_add, List.map_append, List.map_map, Nat.add_assoc]
  rfl

/-- Pieces of `c` bytes in a row. -/
theorem flatMap_readBytes (m : Memory) (a c len : Nat) :
    ((List.range len).flatMap fun n => m.readBytes (a + c * n) c) = m.readBytes a (len * c) := by
  induction len with
  | zero => simp [Memory.readBytes]
  | succ n ih =>
    rw [List.range_succ, List.flatMap_append, ih, Nat.succ_mul, readBytes_add, Nat.mul_comm n c]
    simp

theorem zipIdx_map_range {α : Type} (f : Nat → α) (len : Nat) :
    ((List.range len).map f).zipIdx = (List.range len).map fun n => (f n, n) := by
  apply List.ext_getElem?
  intro n
  by_cases hn : n < len <;> simp [hn]

/-- The elements of a buffer, written again, are its bytes. -/
theorem bytes_samples (s : State) (j : BufIx) (T : ElemType) (len d : Nat) :
    (s.samples j T len).bytes d = Memory.readBytes s.mem (bufAddr j) (len * T.size) := by
  cases T with
  | cs =>
    have hpart (k a : Nat) : Fp.toBytes d k (Memory.readFp 32 s.mem a) = Memory.readBytes s.mem a 4 :=
      toBytes_readFp (.inl rfl) d k _ _
    simp only [State.samples, Samples.bytes, zipIdx_map_range, List.flatMap_map, Memory.readCx, hpart, ← readBytes_add]
    exact flatMap_readBytes _ _ 8 _
  | rs =>
    have hpart (k a : Nat) : Fp.toBytes d k (Memory.readFp 32 s.mem a) = Memory.readBytes s.mem a 4 :=
      toBytes_readFp (.inl rfl) d k _ _
    simp only [State.samples, Samples.bytes, zipIdx_map_range, List.flatMap_map, hpart]
    exact flatMap_readBytes _ _ 4 _
  | rd =>
    have hpart (k a : Nat) : Fp.toBytes d k (Memory.readFp 64 s.mem a) = Memory.readBytes s.mem a 8 :=
      toBytes_readFp (.inr rfl) d k _ _
    simp only [State.samples, Samples.bytes, zipIdx_map_range, List.flatMap_map, hpart]
    exact flatMap_readBytes _ _ 8 _

/-- A buffer that holds a result of specified patterns reads as that result (00_scope.md R11; 20_memory.md R62, R64). -/
theorem HoldsResult.srcSeq {s : State} {j : BufIx} {q : SampleSeq} (h : HoldsResult s j q)
    (hlen : q.data.length < 2 ^ 32) (hspec : q.data.specified) : s.srcSeq j q.data.type = q := by
  obtain ⟨fs, x⟩ := q
  have hl : (s.desc j).len.toNat = x.length := by rw [h.descriptor]; exact Nat.mod_eq_of_lt hlen
  have hfs : (s.desc j).fs = fs := by rw [h.descriptor]
  rw [State.srcSeq, hl, hfs]
  congr 1
  have helem := h.elements
  cases x with
  | cs x =>
    refine congrArg Samples.cs (List.ext_getElem (by simp [Samples.length]) fun n h1 h2 => ?_)
    obtain ⟨⟨a, ha⟩, ⟨b, hb⟩⟩ := hspec x[n] (List.getElem_mem h2)
    obtain ⟨hre, him⟩ := helem n h2 x[n] (List.getElem?_eq_getElem h2)
    rw [ha] at hre
    rw [hb] at him
    rw [List.getElem_map, List.getElem_range, Memory.readCx, readFp_eq_pat (.inl rfl) hre, readFp_eq_pat (.inl rfl) him,
      ← ha, ← hb]
  | rs x =>
    refine congrArg Samples.rs (List.ext_getElem (by simp [Samples.length]) fun n h1 h2 => ?_)
    obtain ⟨a, ha⟩ := hspec x[n] (List.getElem_mem h2)
    have hv := helem n h2 x[n] (List.getElem?_eq_getElem h2)
    rw [ha] at hv
    rw [List.getElem_map, List.getElem_range, readFp_eq_pat (.inl rfl) hv, ← ha]
  | rd x =>
    refine congrArg Samples.rd (List.ext_getElem (by simp [Samples.length]) fun n h1 h2 => ?_)
    obtain ⟨a, ha⟩ := hspec x[n] (List.getElem_mem h2)
    have hv := helem n h2 x[n] (List.getElem?_eq_getElem h2)
    rw [ha] at hv
    rw [List.getElem_map, List.getElem_range, readFp_eq_pat (.inr rfl) hv, ← ha]

/-! ### Complex lists by their parts (41_fir.md R163) -/

theorem zipWith_parts (z : List Cx) : List.zipWith Cx.mk (z.map Cx.re) (z.map Cx.im) = z := by
  induction z with
  | nil => rfl
  | cons a t ih => rw [List.map_cons, List.map_cons, List.zipWith_cons_cons, ih]

theorem firCx_re (h : List F32) (x : List Cx) : (firCx h x).map Cx.re = firSeq h (x.map Cx.re) :=
  List.ext_getElem (by simp) fun n _ _ => by simp [firCx]

theorem firCx_im (h : List F32) (x : List Cx) : (firCx h x).map Cx.im = firSeq h (x.map Cx.im) :=
  List.ext_getElem (by simp) fun n _ _ => by simp [firCx]

/-! ### Every `D`-th element (43_decimate.md R181, R183) -/

theorem strideList_map {α β : Type} (f : α → β) (d : Nat) (z : List α) :
    (strideList d z).map f = strideList d (z.map f) := by
  simp only [strideList, List.map_filterMap, List.length_map, List.getElem?_map]

theorem strideList_eq_map {α : Type} {d : Nat} (hd : 1 ≤ d) (z : List α) (v : α) :
    strideList d z = (List.range (retained z.length d)).map fun m => z.getD (m * d) v := by
  apply List.ext_getElem?
  intro m
  by_cases hm : m < retained z.length d
  · have hlt := mul_lt_of_lt_retained hd hm
    rw [strideList_getElem? hd z hm, List.getElem?_map, List.getElem?_range hm, List.getElem?_eq_getElem hlt]
    exact congrArg some (List.getD_eq_getElem z v hlt).symm
  · rw [List.getElem?_eq_none (by rw [strideList_length hd]; omega), List.getElem?_eq_none (by simpa using hm)]

/-- The decimator's elements, spelled by filter passes and reversals. -/
theorem decimated_eq {w : Nat} {d : Nat} (hd : 1 ≤ d) (h x : List (Fp w)) :
    strideList d (firSeq h (firSeq h x).reverse).reverse = decimated h x d := by
  rw [strideList_eq_map hd _ (.pat (packFp w false 0))]
  simp only [decimated, retained, List.length_reverse, firSeq_length]

theorem zeroPhase_stride_rs {d : Nat} (hd : 1 ≤ d) (h : List F64) (fs : Word) (x : List F32) :
    (zeroPhase h ⟨fs, .rs x⟩).data.stride d = .rs (decimated (h.map narrow32) x d) :=
  congrArg Samples.rs (decimated_eq hd _ x)

theorem zeroPhase_stride_rd {d : Nat} (hd : 1 ≤ d) (h : List F64) (fs : Word) (x : List F64) :
    (zeroPhase h ⟨fs, .rd x⟩).data.stride d = .rd (decimated h x d) :=
  congrArg Samples.rd (decimated_eq hd h x)

/-- Complex samples are decimated part by part. -/
theorem zeroPhase_stride_cs {d : Nat} (hd : 1 ≤ d) (h : List F64) (fs : Word) (x : List Cx) :
    (zeroPhase h ⟨fs, .cs x⟩).data.stride d = .cs (List.zipWith Cx.mk
      (decimated (h.map narrow32) (x.map Cx.re) d) (decimated (h.map narrow32) (x.map Cx.im) d)) := by
  refine congrArg Samples.cs ?_
  rw [← zipWith_parts (strideList d _), strideList_map, strideList_map, List.map_reverse, List.map_reverse, firCx_re,
    firCx_im, List.map_reverse, List.map_reverse, firCx_re, firCx_im, decimated_eq hd, decimated_eq hd]
  rfl

/-! ### Products and neighbours -/

theorem translate_present (fc : Int) (fs : Word) (x : List Cx) :
    translate (some fc) ⟨fs, .cs x⟩ = ⟨fs, .cs (translateCx fc fs.toNat x)⟩ := rfl

theorem zipWith_tail_range {α β : Type} (f : Nat → α) (g : α → α → β) (len : Nat) :
    List.zipWith g ((List.range len).map f) ((List.range len).map f).tail =
      (List.range (len - 1)).map fun n => g (f n) (f (n + 1)) := by
  apply List.ext_getElem (by simp)
  intro n h1 h2
  simp

/-- The discriminator works on neighbouring elements (44_detectors.md R195). -/
theorem discriminateCx_eq (c : F32) (x : List Cx) :
    discriminateCx c x = List.zipWith (fun z z' => Fp.mul c (wrappedDiff (phaseOf z') (phaseOf z))) x x.tail := by
  rw [discriminateCx, ← List.map_tail, List.zipWith_map]

end Sys2Proof.Machine
end

section
/-! The results of the commands (41_fir.md R160 to 45_demodulators.md R212): with none of its faults, a command writes
the sequence of its rule, whose shape follows from its stages. -/
namespace Sys2Proof.Machine

/-! ### No fault from usable operands (60_exceptions.md R241 to R248) -/

theorem bankFault_none {s : State} {b : BankIx} (h : UsableBank s b) (info : Word) : bankFault s b info = none :=
  ((bankFault_eq info).resolve_right fun hc => hc.2 h).1

theorem carrierFault_none {s : State} {src dst : BufIx} {T : ElemType} {fcp : Bool} (hu : UsableSource s src dst T)
    (h : fcp = true → T = .cs) (info : Word) : carrierFault s src fcp info = none := by
  refine if_neg fun ⟨hfcp, htype⟩ => htype ?_
  rw [hu.type, h hfcp]
  rfl

theorem decimFault_none {s : State} {src : BufIx} {b : BankIx} (h : UsableDecimation s b (s.desc src).fs)
    (i1 i2 i3 : Word) : decimFault s src b i1 i2 i3 = none := by
  obtain ⟨h0, h⟩ := h
  rw [decimFault, if_neg (mt word_eq_zero_iff.mpr h0)]
  split
  · rfl
  · next hne =>
    obtain ⟨hlt, hb⟩ := h.resolve_left hne
    rw [if_neg (by omega), bankFault_none hb]

theorem discFault_none {s : State} {src dst : BufIx} (hu : UsableSource s src dst .cs) (hdev : s.fmdev ≠ 0#32)
    (hlen : (s.desc src).len.toNat ≠ 1) (i1 i2 i3 : Word) : discFault s src i1 i2 i3 = none := by
  have htype : (s.desc src).type = 0 := hu.type
  rw [discFault, if_neg (not_not_intro htype), if_neg (mt word_eq_zero_iff.mpr hdev), if_neg hlen]

theorem rumbleFault_none {s : State} {hpb : BankIx} (hf : 2 * s.frumble.toNat < s.fsout.toNat) (hb : UsableBank s hpb)
    (hodd : (s.tapCount hpb).toNat % 2 = 1) : rumbleFault s hpb = none := by
  rw [rumbleFault, if_neg (by omega), bankFault_none hb, if_neg (by omega)]
  rfl

/-! ### A command without a fault -/

/-- The command ends well: `q` is written to the destination, and nothing else changes but the draw counter. -/
structure Delivers (i : Instr) (s : State) (dst : BufIx) (q : SampleSeq) : Prop where
  exec : exec i s = .next (s.writeSeq dst q)
  fits : q.Fits s.params

section Delivers
variable {i : Instr} {s : State} {src dst : BufIx} {T : ElemType} {q : SampleSeq}

theorem delivers (hsrc : i.src? = some src) (hdst : i.dst? = some dst) (hu : UsableSource s src dst T)
    (hstage : stageFault i s = none) (hq : commandResult i s T = some q) : Delivers i s dst q := by
  have hoperand := operandFault_eq_none_iff.mpr ⟨T, hu⟩
  have hfault : commandFault i s = none := by rw [commandFault_eq hsrc hdst, hoperand, hstage, Option.or_none]
  rcases command_cases hsrc hdst s with ⟨T', q', -, hu', hq', hfits, -, hexec⟩ | ⟨e, hsome, -⟩
  · obtain rfl := hu'.type_unique hu.type
    obtain rfl := Option.some.inj (hq'.symm.trans hq)
    exact ⟨hexec, hfits⟩
  · simp [hfault] at hsome

theorem Delivers.result (h : Delivers i s dst q) : ∃ t, Machine.exec i s = .next t ∧ SameFlags s t ∧ OnlyBuffer dst s t ∧
    HoldsResult t dst q :=
  ⟨_, h.exec, writeSeq_sameFlags s dst q, writeSeq_onlyBuffer dst h.fits.2, writeSeq_holds dst h.fits.2⟩

/-- With the descriptor spelled. -/
theorem Delivers.result_desc (h : Delivers i s dst q) {d : Desc}
    (hd : (⟨true, q.data.type.code, BitVec.ofNat 32 q.data.length, q.fs⟩ : Desc) = d) :
    ∃ t, Machine.exec i s = .next t ∧ SameFlags s t ∧ OnlyBuffer dst s t ∧ HoldsResult t dst q ∧ t.desc dst = d := by
  obtain ⟨t, hexec, hflags, honly, hholds⟩ := h.result
  exact ⟨t, hexec, hflags, honly, hholds, hholds.descriptor.trans hd⟩

/-- A command that delivers its source copies it byte for byte, unspecified bytes included. -/
theorem Delivers.copy (h : Delivers i s dst (s.srcSeq src T)) (hu : UsableSource s src dst T) :
    ∃ t, Machine.exec i s = .next t ∧ SameFlags s t ∧ OnlyBuffer dst s t ∧ t.desc dst = s.desc src ∧
      HoldsResult t dst (s.srcSeq src T) ∧
      ∀ k < (s.desc src).len.toNat * T.size, Memory.read t.mem (bufAddr dst + k) = Memory.read s.mem (bufAddr src + k) := by
  have hdesc : (⟨true, (s.srcSeq src T).data.type.code, BitVec.ofNat 32 (s.srcSeq src T).data.length,
      (s.srcSeq src T).fs⟩ : Desc) = s.desc src := by
    simp [← hu.type, ← hu.valid]
  refine ⟨_, h.exec, writeSeq_sameFlags s dst _, writeSeq_onlyBuffer dst h.fits.2,
    (State.desc_writeSeq_same dst _ s).trans hdesc, writeSeq_holds dst h.fits.2, fun k hk => ?_⟩
  have hbytes : (s.srcSeq src T).data.bytes s.draws =
      Memory.readBytes s.mem (bufAddr src) ((s.desc src).len.toNat * T.size) := bytes_samples s src T _ _
  have hlen : k < (Memory.readBytes s.mem (bufAddr src) ((s.desc src).len.toNat * T.size)).length := by
    rwa [Memory.readBytes_length]
  have hfits := writeSeq_fits (j := dst) h.fits.2
  rw [hbytes] at hfits
  rw [State.writeSeq_mem, hbytes, read_fill hfits, if_pos (by omega), Nat.add_sub_cancel_left,
    List.getElem?_eq_getElem hlen]
  simp [Memory.readBytes]

end Delivers

/-! ### `FIR` (41_fir.md R160) -/

theorem delivers_fir {s : State} {src dst : BufIx} {tb : BankIx} {T : ElemType} (hu : UsableSource s src dst T)
    (hb : UsableBank s tb) : Delivers (.fir src dst tb) s dst (filterSeq (s.taps tb) (s.srcSeq src T)) :=
  delivers rfl rfl hu (bankFault_none hb _) rfl

theorem taps_spelled (s : State) (b : BankIx) : s.taps b = (List.range (s.tapCount b).toNat).map fun k =>
    Memory.readFp 64 s.mem (0x10000 + 0x8000 * b.val + 8 * k) := by
  simp only [State.taps, Nat.mul_comm 0x8000]
  rfl

theorem bufAddr_spelled (j : BufIx) : bufAddr j = 0x10000000 + 0x8000000 * j.val := by
  rw [bufAddr, Nat.mul_comm]

/-- Settles O16: the source loads and the bank loads, so the filtered sequence is delivered; the addresses are those
of the definitions, and a value is its bytes' number exactly when they are all specified. -/
theorem firResult : Obligations.FirResult := by
  refine ⟨fun s src dst tb T hu hb => (delivers_fir hu hb).result_desc (by simp), taps_spelled,
    fun s j => ?_, ⟨rfl, rfl, rfl, rfl, rfl, rfl⟩, fun m a => ⟨rfl, fun n => rfl⟩, fun w hw m a => ⟨fun b h => ?_, ?_⟩⟩
  · simp only [← bufAddr_spelled]
    exact ⟨rfl, rfl, rfl⟩
  · exact readFp_eq_pat hw (List.map_congr_left fun k hk => h k (List.mem_range.mp hk))
  · rintro ⟨k, hk, hnone⟩
    exact readFp_eq_unspec hk hnone

/-! ### `XLATE` (42_translate.md R170 to R172) -/

theorem delivers_xlate {s : State} {src dst : BufIx} {fcp : Bool} {T : ElemType} (hu : UsableSource s src dst T)
    (hcs : fcp = true → T = .cs) :
    Delivers (.xlate src dst fcp) s dst (translate (if fcp then some s.fc.toInt else none) (s.srcSeq src T)) :=
  delivers rfl rfl hu (carrierFault_none hu hcs _) rfl

/-- Settles O17: with the carrier absent the delivered sequence is the source. -/
theorem xlateAbsentCopies : Obligations.XlateAbsentCopies :=
  fun _ _ _ _ hu => (delivers_xlate (fcp := false) hu nofun).copy hu

/-- Settles O18: the delivered sequence is the translated one, whose elements `translateCx` gives one by one. -/
theorem xlatePresentResult : Obligations.XlatePresentResult := by
  refine ⟨fun s src dst hu => ?_, fun _ _ _ => rfl, translate_none⟩
  obtain ⟨t, hexec, hflags, honly, hholds⟩ := (delivers_xlate (fcp := true) hu fun _ => rfl).result
  have hdesc : t.desc dst = s.desc src := by
    rw [hholds.descriptor]
    simp [← hu.valid, ← hu.type]
  refine ⟨t, hexec, hflags, honly, hdesc, ?_⟩
  have hseq : translate (some s.fc.toInt) (s.srcSeq src .cs) =
      ⟨(s.desc src).fs, .cs ((List.range (s.desc src).len.toNat).map fun n =>
        cmul32 (Memory.readCx s.mem (bufAddr src + 8 * n)) (carrierAt s.fc.toInt (s.desc src).fs.toNat n))⟩ := by
    rw [State.srcSeq, State.samples, translate_present, translateCx, zipIdx_map_range, List.map_map]
    rfl
  rw [if_pos rfl, hseq] at hholds
  exact hholds

/-! ### `DECIM` (43_decimate.md R180 to R184) -/

theorem delivers_decim {s : State} {src dst : BufIx} {aab : BankIx} {T : ElemType} (hu : UsableSource s src dst T)
    (hd : UsableDecimation s aab (s.desc src).fs) :
    Delivers (.decim src dst aab) s dst (decimateSeq (s.taps aab) s.fsout (s.srcSeq src T)) :=
  delivers rfl rfl hu (decimFault_none hd _ _ _) rfl

theorem decimateSeq_same {h : List F64} {fsOut : Word} {q : SampleSeq} (he : fsOut = q.fs) : decimateSeq h fsOut q = q :=
  if_pos he

theorem decimateSeq_ne {h : List F64} {fsOut : Word} {q : SampleSeq} (he : fsOut ≠ q.fs) : decimateSeq h fsOut q =
    ⟨fsOut, (zeroPhase h q).data.stride (decimFactor q.fs.toNat fsOut.toNat)⟩ :=
  if_neg he

/-- The rate and the number of elements after the decimator: at equal rates `D = 1` (43_decimate.md R184). -/
theorem decimateSeq_length {s : State} {b : BankIx} {q : SampleSeq} (h : UsableDecimation s b q.fs) :
    (decimateSeq (s.taps b) s.fsout q).fs = s.fsout ∧ (decimateSeq (s.taps b) s.fsout q).data.type = q.data.type ∧
      (decimateSeq (s.taps b) s.fsout q).data.length = retained q.data.length (q.fs.toNat / s.fsout.toNat) := by
  obtain ⟨h0, h⟩ := h
  have hpos : 0 < s.fsout.toNat := Nat.pos_of_ne_zero (mt word_eq_zero_iff.mpr h0)
  by_cases he : s.fsout = q.fs
  · rw [decimateSeq_same he, ← he, Nat.div_self hpos, retained_one]
    exact ⟨rfl, rfl, rfl⟩
  · obtain ⟨hlt, -⟩ := h.resolve_left he
    have hd : 0 < decimFactor q.fs.toNat s.fsout.toNat := Nat.div_pos hlt.le hpos
    rw [decimateSeq_ne he]
    exact ⟨rfl, by simp, by rw [Samples.stride_length hd, zeroPhase_length]; rfl⟩

/-- Settles O19: at the source's rate the delivered sequence is the source. -/
theorem decimIdentityCopies : Obligations.DecimIdentityCopies := by
  intro s src dst aab T hu hfs
  have hd := delivers_decim (aab := aab) hu ⟨hfs ▸ hu.rate, .inl hfs⟩
  rw [decimateSeq_same hfs] at hd
  exact hd.copy hu

/-- Settles O20: the delivered sequence is the decimated one, which `zeroPhase_stride_cs` and its fellows spell. -/
theorem decimResult : Obligations.DecimResult := by
  refine ⟨fun s src dst aab T hu hb hpos hlt => ?_, fun h fs d hd =>
    ⟨zeroPhase_stride_cs hd h fs, zeroPhase_stride_rs hd h fs, zeroPhase_stride_rd hd h fs⟩⟩
  have hne : s.fsout ≠ (s.srcSeq src T).fs := fun e => by rw [e, State.srcSeq_fs] at hlt; omega
  have hdec : UsableDecimation s aab (s.srcSeq src T).fs :=
    ⟨mt word_eq_zero_iff.mp (by omega), .inr ⟨hlt, hb⟩⟩
  have hd : 1 ≤ (s.desc src).fs.toNat / s.fsout.toNat := Nat.div_pos hlt.le hpos
  obtain ⟨hfs, htype, hlen⟩ := decimateSeq_length hdec
  obtain ⟨t, hexec, hflags, honly, hholds, hdesc⟩ := (delivers_decim (aab := aab) hu hdec).result_desc
    (d := ⟨true, T.code, BitVec.ofNat 32 (retained (s.desc src).len.toNat
      ((s.desc src).fs.toNat / s.fsout.toNat)), s.fsout⟩) (by rw [hfs, htype, hlen]; simp)
  refine ⟨t, hexec, hflags, honly, ?_, hdesc⟩
  rw [decimateSeq_ne hne] at hholds
  cases T with
  | cs => rwa [State.srcSeq, State.samples, decimFactor, zeroPhase_stride_cs hd] at hholds
  | rs => rwa [State.srcSeq, State.samples, decimFactor, zeroPhase_stride_rs hd] at hholds
  | rd => rwa [State.srcSeq, State.samples, decimFactor, zeroPhase_stride_rd hd] at hholds

/-! ### `SQMAG` and `FMDISC` (44_detectors.md R190 to R195) -/

theorem delivers_sqmag {s : State} {src dst : BufIx} {T : ElemType} (hu : UsableSource s src dst T) :
    Delivers (.sqmag src dst) s dst (sqMagSeq (s.srcSeq src T)) :=
  delivers rfl rfl hu rfl rfl

/-- Settles O21: the delivered sequence is the squared magnitude, element by element. -/
theorem sqmagResult : Obligations.SqmagResult := by
  refine ⟨fun s src dst T hu => ?_, fun fs => ⟨fun _ => rfl, fun _ => rfl, fun _ => rfl⟩, rfl, rfl, rfl⟩
  obtain ⟨t, hexec, hflags, honly, hholds⟩ := (delivers_sqmag hu).result
  refine ⟨t, hexec, hflags, honly, ?_⟩
  cases T <;>
    simp only [sqMagSeq, State.srcSeq, State.samples, Samples.sqMag, List.map_map] at hholds <;>
    exact hholds

theorem delivers_fmdisc {s : State} {src dst : BufIx} (hu : UsableSource s src dst .cs) (hdev : s.fmdev ≠ 0#32)
    (hlen : (s.desc src).len.toNat ≠ 1) :
    Delivers (.fmdisc src dst) s dst (discriminate s.fmdev (s.srcSeq src .cs)) :=
  delivers rfl rfl hu (discFault_none hu hdev hlen _ _ _) rfl

/-- Settles O22: the delivered sequence is the discriminated one, from neighbouring elements of the source. -/
theorem fmdiscResult : Obligations.FmdiscResult := by
  refine ⟨fun s src dst hu hdev hlen => ?_, fun _ _ _ => rfl, discriminateCx_eq⟩
  obtain ⟨t, hexec, hflags, honly, hholds⟩ := (delivers_fmdisc hu hdev hlen).result
  refine ⟨t, hexec, hflags, honly, ?_⟩
  simp only [State.srcSeq, State.samples, discriminate, discriminateCx_eq, zipWith_tail_range] at hholds
  exact hholds

/-! ### The demodulators (45_demodulators.md R200, R205, R210) -/

theorem delivers_amdem {s : State} {src dst : BufIx} {tb aab hpb : BankIx} {fcp rum : Bool} {T : ElemType}
    (hu : UsableSource s src dst T) (hcs : fcp = true → T = .cs) (hd : UsableDecimation s aab (s.desc src).fs)
    (hcut : 2 * s.fcutoff.toNat < s.fsout.toNat) (hb : UsableBank s tb) (hrum : rum = true → rumbleFault s hpb = none)
    {q : SampleSeq} (hq : commandResult (.amdem src dst tb aab hpb fcp rum) s T = some q) :
    Delivers (.amdem src dst tb aab hpb fcp rum) s dst q := by
  refine delivers rfl rfl hu ?_ hq
  have hrum' : (if rum then rumbleFault s hpb else none) = none := by
    split
    · next h => exact hrum h
    · rfl
  rw [stageFault, carrierFault_none hu hcs, decimFault_none hd, if_neg (by omega), bankFault_none hb, hrum']
  rfl

/-- Settles O23: the stages' faults are excluded one by one, and what is delivered has the shape the stages give. -/
theorem amdemResult : Obligations.AmdemResult := by
  intro s src dst tb aab hpb fcp rum T hu hcs hd hcut hb hrum s1 s2 s4 D L
  have hrumble (h : rum = true) : rumbleFault s hpb = none := by
    obtain ⟨hf, hbank, hodd⟩ := hrum h
    exact rumbleFault_none hf hbank hodd
  have hdeliver := delivers_amdem hu hcs hd hcut hb hrumble rfl
  have hdec : UsableDecimation s aab s1.fs := by rw [translate_fs]; exact hd
  obtain ⟨hfs, htype, hlen⟩ := decimateSeq_length hdec
  have hshape : SameShape s4 (if rum then filterSeq (s.taps hpb) s4 else s4) := by
    split
    · exact ⟨rfl, filterSeq_type _ _, filterSeq_length _ _⟩
    · exact ⟨rfl, rfl, rfl⟩
  refine hdeliver.result_desc ?_
  rw [hshape.type, hshape.length, hshape.fs]
  simp [s4, s2, s1, hfs, htype, hlen, D, L, retained]

theorem delivers_fmdem {s : State} {src dst : BufIx} {tb aab : BankIx} {fcp : Bool} (hu : UsableSource s src dst .cs)
    (hny : 3 * s.fmdev.toNat < (s.desc src).fs.toNat) (hb : UsableBank s tb) (hdev : s.fmdev ≠ 0#32)
    (hlen : (s.desc src).len.toNat ≠ 1) (hd : UsableDecimation s aab (s.desc src).fs) :
    Delivers (.fmdem src dst tb aab fcp) s dst (decimateSeq (s.taps aab) s.fsout (discriminate s.fmdev
      (filterSeq (s.taps tb) (translate (if fcp then some s.fc.toInt else none) (s.srcSeq src .cs))))) := by
  refine delivers rfl rfl hu ?_ rfl
  rw [stageFault, carrierFault_none hu fun _ => rfl, if_neg (by omega), bankFault_none hb, discFault_none hu hdev hlen,
    decimFault_none hd]
  rfl

/-- Settles O24: as `amdemResult`; the discriminator leaves one element fewer. -/
theorem fmdemResult : Obligations.FmdemResult := by
  intro s src dst tb aab fcp hu hny hb hdev hne1 hd s1 s3 D L
  have hcs : (filterSeq (s.taps tb) s1).data.type = .cs := by simp [s1]
  obtain ⟨htype3, hlen3⟩ := discriminate_shape s.fmdev hcs
  have hdec : UsableDecimation s aab s3.fs := by
    rw [discriminate_fs, filterSeq_fs, translate_fs]
    exact hd
  obtain ⟨hfs, htype, hlen⟩ := decimateSeq_length hdec
  refine (delivers_fmdem hu hny hb hdev hne1 hd).result_desc ?_
  rw [hfs, htype, hlen, htype3, hlen3]
  simp [s3, s1, D, L, retained]

theorem delivers_ssbdem {s : State} {src dst : BufIx} {aab : BankIx} {fcp : Bool} {T : ElemType}
    (hu : UsableSource s src dst T) (hcs : fcp = true → T = .cs) (hd : UsableDecimation s aab (s.desc src).fs) :
    Delivers (.ssbdem src dst aab fcp) s dst (decimateSeq (s.taps aab) s.fsout
      (translate (if fcp then some s.fc.toInt else none) (s.srcSeq src T))) := by
  refine delivers rfl rfl hu ?_ rfl
  rw [stageFault, carrierFault_none hu hcs, decimFault_none hd]
  rfl

/-- Settles O25: the delivered sequence is the decimated translation, of the translation's type. -/
theorem ssbdemResult : Obligations.SsbdemResult := by
  intro s src dst aab fcp T hu hcs hd s2 D L
  have hdec : UsableDecimation s aab s2.fs := by rw [translate_fs]; exact hd
  obtain ⟨hfs, htype, hlen⟩ := decimateSeq_length hdec
  refine (delivers_ssbdem hu hcs hd).result_desc ?_
  rw [hfs, htype, hlen]
  simp [s2, D, L, retained]

/-! ### `SSBDEM` is `XLATE`, then `DECIM` (45_demodulators.md R210, R212) -/

/-- The taps of a usable bank are the same in two states that agree on the banks. -/
theorem taps_of_onlyBuffer {j : BufIx} {s t : State} (h : OnlyBuffer j s t) {b : BankIx} (hb : UsableBank s b) :
    t.taps b = s.taps b := by
  have hcount : t.tapCount b = s.tapCount b := by rw [State.tapCount, State.tapCount, h.tapCounts]
  rw [State.taps, State.taps, hcount]
  refine List.map_congr_left fun k hk => readFp_congr fun i hi => h.read_tapBank b ?_
  have hk := List.mem_range.mp hk
  have := hb.2
  rw [tapEnd]
  omega

/-- The decimator looks at the bank only when it filters. -/
theorem decimateSeq_of_onlyBuffer {j : BufIx} {s t : State} (h : OnlyBuffer j s t) {b : BankIx} {q : SampleSeq}
    (hd : UsableDecimation s b q.fs) : decimateSeq (t.taps b) s.fsout q = decimateSeq (s.taps b) s.fsout q := by
  obtain ⟨-, he | ⟨-, hb⟩⟩ := hd
  · rw [decimateSeq_same he, decimateSeq_same he]
  · rw [taps_of_onlyBuffer h hb]

/-- A buffer that holds a result of specified patterns is a usable source of it for a command to another buffer. -/
theorem usableSource_of_holds {t : State} {j dst : BufIx} {q : SampleSeq} (h : HoldsResult t j q) (hfits : q.Fits t.params)
    (hne : j ≠ dst) (hrate : q.fs ≠ 0#32) : UsableSource t j dst q.data.type := by
  obtain ⟨hpos, hmax⟩ := hfits
  have hmaxLen : t.params.maxLen ≤ 16777216 := t.params.maxLenLess1.isLt
  have hlen : (t.desc j).len.toNat = q.data.length := by
    rw [h.descriptor]
    exact Nat.mod_eq_of_lt (by omega)
  refine ⟨hne, by rw [h.descriptor], by rw [h.descriptor], mt word_eq_zero_iff.mp (by omega), by omega,
    by rw [h.descriptor]; exact hrate⟩

/-- Settles O26: the third buffer then holds the translation, which `DECIM` loads back as it is, its patterns being
specified; the banks and the output rate are untouched. -/
theorem ssbdemIsXlateThenDecim : Obligations.SsbdemIsXlateThenDecim := by
  intro s src mid dst aab fcp T hu hcs hd hmidsrc hmiddst hspec
  have humid : UsableSource s src mid T := { hu with distinct := hmidsrc.symm }
  have hx := delivers_xlate humid hcs
  generalize hqdef : translate (if fcp then some s.fc.toInt else none) (s.srcSeq src T) = q at *
  have hqfs : q.fs = (s.desc src).fs := by rw [← hqdef, translate_fs]; rfl
  obtain ⟨t, hexec, hflags, -, hholds⟩ := (delivers_ssbdem hu hcs hd).result
  obtain ⟨t1, hexec1, hflags1, honly1, hholds1⟩ := hx.result
  rw [hqdef] at hholds
  obtain ⟨-, hfsout, -⟩ := honly1.parameters
  have hparams : t1.params = s.params := honly1.model.1
  have hsrc1 := usableSource_of_holds hholds1 (hparams ▸ hx.fits) hmiddst (hqfs ▸ hu.rate)
  have hmaxLen : s.params.maxLen ≤ 16777216 := s.params.maxLenLess1.isLt
  have hseq : t1.srcSeq mid q.data.type = q := hholds1.srcSeq (by have := hx.fits.2; omega) hspec
  have hrate1 : (t1.desc mid).fs = q.fs := by rw [hholds1.descriptor]
  have hdec1 : UsableDecimation t1 aab (t1.desc mid).fs := by
    have hcount : t1.tapCount aab = s.tapCount aab := by rw [State.tapCount, State.tapCount, honly1.tapCounts]
    rwa [UsableDecimation, UsableBank, hfsout, hcount, hparams, hrate1, hqfs]
  obtain ⟨t2, hexec2, hflags2, -, hholds2⟩ := (delivers_decim (dst := dst) hsrc1 hdec1).result
  rw [hseq, hfsout, decimateSeq_of_onlyBuffer honly1 (hqfs ▸ hd)] at hholds2
  refine ⟨t, t1, t2, hexec, hexec1, hexec2, ?_, hholds2.descriptor.trans hholds.descriptor.symm, hholds, hholds2⟩
  obtain ⟨h1, h2, h3, h4, h5⟩ := hflags
  obtain ⟨k1, k2, k3, k4, k5⟩ := hflags1
  obtain ⟨l1, l2, l3, l4, l5⟩ := hflags2
  exact ⟨by rw [l1, k1, h1], by rw [l2, k2, h2], by rw [l3, k3, h3], by rw [l4, k4, h4], by rw [l5, k5, h5]⟩

end Sys2Proof.Machine
end

section
/-! The words of the host port, one by one (46_system_and_host.md R222, R223): which register each address names, what
its read and its write do with `BUSY = 0` and with `BUSY = 1`, and the words of memory. -/
namespace Sys2Proof.Machine

/-! ### The flags as bits (10_state.md R22, R23; 60_exceptions.md R260) -/

theorem statusWord_bit (s : State) {k : Nat} (hk : k < 32) : s.statusWord.getLsbD k =
    if k = 0 then s.busy else if k = 1 then s.done else if k = 2 then s.err else if k = 3 then s.ovr else false := by
  have hbits : ∀ b d e o : Bool, ∀ k < 32,
      (BitVec.ofNat 32 (b.toNat + 2 * d.toNat + 4 * e.toNat + 8 * o.toNat)).getLsbD k =
        if k = 0 then b else if k = 1 then d else if k = 2 then e else if k = 3 then o else false := by decide
  exact hbits s.busy s.done s.err s.ovr k hk

theorem ienWord_bit (s : State) {k : Nat} (hk : k < 32) :
    s.ienWord.getLsbD k = if k = 1 then s.doneIE else if k = 2 then s.errIE else false := by
  have hbits : ∀ d e : Bool, ∀ k < 32, (BitVec.ofNat 32 (2 * d.toNat + 4 * e.toNat)).getLsbD k =
      if k = 1 then d else if k = 2 then e else false := by decide
  exact hbits s.doneIE s.errIE k hk

theorem irq_iff (s : State) : s.irq = true ↔ (s.done = true ∧ s.doneIE = true) ∨ (s.err = true ∧ s.errIE = true) := by
  simp [State.irq]

/-- Settles O58: the two words can share bits 1 and 2 only, the flags beside their enables. -/
theorem irqRule : Obligations.IrqRule := by
  intro s
  refine ⟨irq_iff s, ?_⟩
  rw [irq_iff, Ne, BitVec.eq_of_getLsbD_eq_iff, not_forall]
  simp only [BitVec.getLsbD_and, BitVec.getLsbD_zero, not_forall, Bool.not_eq_false, Bool.and_eq_true]
  constructor
  · rintro (⟨h, hIE⟩ | ⟨h, hIE⟩)
    · exact ⟨1, by decide, by rw [statusWord_bit s (by decide)]; exact h, by rw [ienWord_bit s (by decide)]; exact hIE⟩
    · exact ⟨2, by decide, by rw [statusWord_bit s (by decide)]; exact h, by rw [ienWord_bit s (by decide)]; exact hIE⟩
  · rintro ⟨k, hk, hstatus, hien⟩
    rw [ienWord_bit s hk] at hien
    rw [statusWord_bit s hk] at hstatus
    by_cases h1 : k = 1
    · subst h1
      exact .inl ⟨hstatus, hien⟩
    · by_cases h2 : k = 2
      · subst h2
        exact .inr ⟨hstatus, hien⟩
      · simp [h1, h2] at hien

/-- Settles O56: the write is `writeStatus`, the read is `statusWord`. -/
theorem statusWrittenOneToClear : Obligations.StatusWrittenOneToClear := by
  intro s v
  have hclear (flag bit : Bool) : (flag && !bit) = if bit then false else flag := by cases bit <;> simp
  have hread : (State.hostRead 32 0x004 s).port = .data s.statusWord := by
    rw [hostRead_register s rfl (by decide)]
    rfl
  refine ⟨?_, s.statusWord, hread, fun k hk => statusWord_bit s hk⟩
  rw [hostWrite_status]
  simp only [State.writeStatus, hclear]

/-! ### Which register an address names (10_state.md R21, R29) -/

theorem regAt_bdCtrl (j : BufIx) : regAt (BitVec.ofNat 32 (0x040 + 0x10 * j.val)).toNat = .bdCtrl j := by
  revert j
  decide

theorem regAt_bdLen (j : BufIx) : regAt (BitVec.ofNat 32 (0x044 + 0x10 * j.val)).toNat = .bdLen j := by
  revert j
  decide

theorem regAt_bdFs (j : BufIx) : regAt (BitVec.ofNat 32 (0x048 + 0x10 * j.val)).toNat = .bdFs j := by
  revert j
  decide

theorem regAt_ntaps (b : BankIx) : regAt (BitVec.ofNat 32 (0x080 + 4 * b.val)).toNat = .ntaps b := by
  revert b
  decide

theorem reservedOffset_word {n : Nat} (h : reservedOffset n = true) : n % 4 = 0 ∧ n ≤ 0xFFF := by
  simp only [reservedOffset, Bool.and_eq_true, Bool.or_eq_true, beq_iff_eq, decide_eq_true_eq] at h
  omega

theorem regAt_reserved {n : Nat} (h : reservedOffset n = true) : regAt n = .reserved := by
  obtain ⟨h4, hn⟩ := reservedOffset_word h
  rcases regAt_cases h4 hn with ⟨rfl, -⟩ | ⟨rfl, -⟩ | ⟨rfl, -⟩ | ⟨rfl, -⟩ | ⟨rfl, -⟩ | ⟨-, hreg⟩ | ⟨hro, -⟩
  case inr.inr.inr.inr.inr.inl => exact hreg
  case inr.inr.inr.inr.inr.inr => simp [readOnlyOffset, h] at hro
  all_goals exact absurd h (by decide)

/-- The word offset of a bank or buffer register, in the register block. -/
theorem offset_word {base : Nat} {step : Nat} (hbase : base ≤ 0x080) (hb4 : base % 4 = 0) (hstep : step = 4 ∨ step = 0x10)
    (j : Fin 4) : (BitVec.ofNat 32 (base + step * j.val)).toNat % 4 = 0 ∧
      (BitVec.ofNat 32 (base + step * j.val)).toNat ≤ 0xFFF := by
  rw [BitVec.toNat_ofNat]
  rcases hstep with rfl | rfl <;> omega

/-! ### Reads -/

/-- Settles O60: each word is named by `regAt`, and no outcome of a read changes more than the response and the draw
counter. -/
theorem registerWordRead : Obligations.RegisterWordRead := by
  intro s
  refine ⟨hostRead_register s rfl (by decide), hostRead_register s rfl (by decide), hostRead_register s rfl (by decide),
    hostRead_register s rfl (by decide), hostRead_register s rfl (by decide), hostRead_register s rfl (by decide),
    hostRead_register s rfl (by decide), hostRead_register s rfl (by decide), hostRead_register s rfl (by decide),
    hostRead_register s rfl (by decide), fun j => ⟨?_, ?_, ?_⟩, fun b => ?_, fun a ha => ?_, fun bits a => ?_⟩
  · obtain ⟨h4, hn⟩ := offset_word (base := 0x040) (by decide) rfl (.inr rfl) j
    rw [hostRead_register s h4 hn, regAt_bdCtrl]
    rfl
  · obtain ⟨h4, hn⟩ := offset_word (base := 0x044) (by decide) rfl (.inr rfl) j
    rw [hostRead_register s h4 hn, regAt_bdLen]
    rfl
  · obtain ⟨h4, hn⟩ := offset_word (base := 0x048) (by decide) rfl (.inr rfl) j
    rw [hostRead_register s h4 hn, regAt_bdFs]
    rfl
  · obtain ⟨h4, hn⟩ := offset_word (base := 0x080) le_rfl rfl (.inl rfl) b
    rw [hostRead_register s h4 hn, regAt_ntaps]
    rfl
  · obtain ⟨h4, hn⟩ := reservedOffset_word ha
    rw [hostRead_register s h4 hn, regAt_reserved ha]
    rfl
  · rcases hostRead_cases bits a s with ⟨-, hr⟩ | ⟨-, -, hr⟩ | ⟨-, -, -, hr⟩ | ⟨-, -, -, hr⟩ <;> rw [hr]

/-! ### Writes (10_state.md R23 to R30, R36) -/

/-- A write of `ID`, `ERRINFO` or a reserved word is ignored, whatever `BUSY` is. -/
theorem hostWrite_readOnly (s : State) {a : Word} (v : Word) (h : readOnlyOffset a.toNat = true) :
    State.hostWrite 32 a v s = { s with port := .written } := by
  simp only [readOnlyOffset, Bool.or_eq_true, beq_iff_eq] at h
  rcases h with (h | h) | h
  · rw [hostWrite_register s v (by omega) (by omega), h]
    rfl
  · rw [hostWrite_register s v (by omega) (by omega), h]
    rfl
  · obtain ⟨h4, hn⟩ := reservedOffset_word h
    rw [hostWrite_register s v h4 hn, regAt_reserved h]
    rfl

theorem hostWrite_ien (s : State) (v : Word) :
    State.hostWrite 32 0x008 v s = { s with doneIE := v.getLsbD 1, errIE := v.getLsbD 2, port := .written } :=
  hostWrite_register s v rfl (by decide)

/-- With `BUSY = 0` no register is owned by the engine. -/
theorem hostWrite_idle {s : State} (hbusy : s.busy = false) {a : Word} (v : Word) (h4 : a.toNat % 4 = 0)
    (ha : a.toNat ≤ 0xFFF) : State.hostWrite 32 a v s = { s.storeReg (regAt a.toNat) v with port := .written } := by
  rw [hostWrite_register s v h4 ha, State.writeReg, if_neg (by simp [hbusy])]

/-- A descriptor write changes that descriptor alone. -/
theorem setDesc_frame (s : State) (j : BufIx) (d : Desc) :
    (let t : State := { s.setDesc j d with port := .written }
     t = { s with bd := t.bd, port := .written } ∧ t.desc j = d ∧ ∀ k, k ≠ j → t.desc k = s.desc k) :=
  ⟨rfl, State.desc_setDesc_same j d s, fun _ hk => State.desc_setDesc_other hk d s⟩

/-- Settles O53: each word is named by `regAt`; with `BUSY = 0` the register takes the value. -/
theorem registerWordWritten : Obligations.RegisterWordWritten := by
  intro s v
  refine ⟨hostWrite_ien s v, fun a ha => hostWrite_readOnly s v ha, fun hbusy => ?_⟩
  refine ⟨hostWrite_idle hbusy v rfl (by decide), hostWrite_idle hbusy v rfl (by decide),
    hostWrite_idle hbusy v rfl (by decide), hostWrite_idle hbusy v rfl (by decide),
    hostWrite_idle hbusy v rfl (by decide), fun j => ⟨?_, ?_, ?_⟩, fun b => ?_⟩
  · obtain ⟨h4, hn⟩ := offset_word (base := 0x040) (by decide) rfl (.inr rfl) j
    rw [hostWrite_idle hbusy v h4 hn, regAt_bdCtrl]
    exact setDesc_frame s j _
  · obtain ⟨h4, hn⟩ := offset_word (base := 0x044) (by decide) rfl (.inr rfl) j
    rw [hostWrite_idle hbusy v h4 hn, regAt_bdLen]
    exact setDesc_frame s j _
  · obtain ⟨h4, hn⟩ := offset_word (base := 0x048) (by decide) rfl (.inr rfl) j
    rw [hostWrite_idle hbusy v h4 hn, regAt_bdFs]
    exact setDesc_frame s j _
  · obtain ⟨h4, hn⟩ := offset_word (base := 0x080) le_rfl rfl (.inl rfl) b
    rw [hostWrite_idle hbusy v h4 hn, regAt_ntaps]
    exact ⟨rfl, State.tapCount_setTapCount_same b v s, fun c hc => State.tapCount_setTapCount_other hc v s⟩

/-! ### While a command runs (20_memory.md R74) -/

/-- With `BUSY = 1` a register the engine owns, or `CMD`, takes no write: the write is dropped. -/
theorem writeReg_dropped {s : State} (hbusy : s.busy = true) {r : Reg} (h : r = .cmd ∨ r.owned = true) (v : Word) :
    s.writeReg r v = { s with ovr := true } := by
  rcases h with rfl | h
  · rw [State.writeReg_cmd]
    exact if_pos (by simp [hbusy])
  · exact if_pos (by simp [h, hbusy])

/-- Settles O54: `regAt_cases` says which words the engine owns; memory it owns entirely. -/
theorem busyOwnership : Obligations.BusyOwnership := by
  intro s a v hbusy h4 hmapped
  refine ⟨fun ha => ⟨hostRead_register s h4 ha, ?_⟩, fun ha => ?_⟩
  · have haddr (c : Word) : a = c ↔ a.toNat = c.toNat := BitVec.toNat_inj.symm
    by_cases hstatus : a = 0x004
    · rw [if_pos hstatus, hstatus, hostWrite_status]
    by_cases hien : a = 0x008
    · rw [if_neg hstatus, if_pos hien, hien, hostWrite_ien]
    rw [if_neg hstatus, if_neg hien]
    by_cases hro : readOnlyOffset a.toNat = true
    · rw [if_pos hro, hostWrite_readOnly s v hro]
    rw [if_neg hro, hostWrite_register s v h4 ha]
    have howned : regAt a.toNat = .cmd ∨ (regAt a.toNat).owned = true := by
      rcases regAt_cases h4 ha with ⟨h, -⟩ | ⟨h, -⟩ | ⟨h, -⟩ | ⟨-, h⟩ | ⟨h, -⟩ | ⟨h, -⟩ | ⟨-, -, -, -, h⟩
      · simp [readOnlyOffset, h] at hro
      · exact absurd ((haddr 0x004).mpr h) hstatus
      · exact absurd ((haddr 0x008).mpr h) hien
      · exact .inl h
      · simp [readOnlyOffset, h] at hro
      · simp [readOnlyOffset, h] at hro
      · exact .inr h
    rw [writeReg_dropped hbusy howned]
  · have hreg : ¬ a.toNat ≤ 0xFFF := Nat.not_le.mpr ha
    obtain ⟨hperf, hnoreg⟩ := performs_memory h4 (hmapped.resolve_left hreg)
    constructor
    · simp [State.hostRead, hperf, hnoreg, hbusy]
    · simp [State.hostWrite, hperf, hnoreg, State.writeMem, hbusy, State.setOvr]

/-! ### The words of memory (20_memory.md R60, R70) -/

/-- A word is its four bytes. -/
theorem word_eq_of_bytes {v w : Word} (h : ∀ k < 4, v.extractLsb' (8 * k) 8 = w.extractLsb' (8 * k) 8) : v = w := by
  apply BitVec.eq_of_getLsbD_eq
  intro i hi
  have hbit (u : Word) : u.getLsbD i = (u.extractLsb' (8 * (i / 8)) 8).getLsbD (i % 8) := by
    rw [BitVec.getLsbD_extractLsb', decide_eq_true (Nat.mod_lt i (by decide)), Bool.true_and, Nat.div_add_mod]
  rw [hbit v, hbit w, h (i / 8) (by omega)]

theorem observeByte_of_read {s : State} {a : Nat} {b : Byte} (h : Memory.read s.mem a = some b) :
    s.observeByte a = b := by
  rw [State.observeByte, h]

/-- With `BUSY = 0` a read of a memory word observes it. -/
theorem hostRead_memory {s : State} (hbusy : s.busy = false) {a : Word} (h4 : a.toNat % 4 = 0)
    (ha : InTapBank s.params a.toNat ∨ InSampleBuffer s.params a.toNat) :
    State.hostRead 32 a s = { s with port := .data (s.observeWord a.toNat), draws := s.draws + 1 } := by
  obtain ⟨hperf, hnoreg⟩ := performs_memory h4 ha
  simp [State.hostRead, hperf, hnoreg, hbusy]

/-- With `BUSY = 0` a write of a memory word stores its four bytes. -/
theorem hostWrite_memory {s : State} (hbusy : s.busy = false) {a : Word} (v : Word) (h4 : a.toNat % 4 = 0)
    (ha : InTapBank s.params a.toNat ∨ InSampleBuffer s.params a.toNat) :
    State.hostWrite 32 a v s = { s with mem := Memory.writeWord a.toNat v s.mem, port := .written } := by
  obtain ⟨hperf, hnoreg⟩ := performs_memory h4 ha
  simp [State.hostWrite, hperf, hnoreg, State.writeMem, hbusy]

/-- Four bytes that are those of `v` are observed as `v`. -/
theorem observeWord_of_bytes {s : State} {a : Nat} {v : Word}
    (h : ∀ k < 4, Memory.read s.mem (a + k) = some (v.extractLsb' (8 * k) 8)) : s.observeWord a = v :=
  word_eq_of_bytes fun k hk => (observeWord_byte s a hk).trans (observeByte_of_read (h k hk))

/-- Settles O52: the write stores the four bytes, the read observes them, and the address map is the definitions'. -/
theorem memoryWordWritten : Obligations.MemoryWordWritten := by
  refine ⟨fun s a v hbusy h4 ha => ⟨?_, fun h => ?_, s.observeWord a.toNat, hostRead_memory hbusy h4 ha, fun k hk b hb => ?_⟩,
    fun p => ⟨fun b => ?_, fun j => ?_⟩⟩
  · have hbytes : ∀ k < 4, Memory.read (Memory.writeWord a.toNat v s.mem) (a.toNat + k) =
        some (v.extractLsb' (8 * k) 8) := by
      intro k hk
      rw [read_writeWord, if_neg (by omega), Nat.add_sub_cancel_left]
    rw [hostWrite_memory hbusy v h4 ha]
    refine ⟨rfl, hbytes, fun x hx => ?_, ?_⟩
    · exact (read_writeWord _ _ _ _).trans (if_pos (by omega))
    · rw [hostRead_memory (s := { s with mem := Memory.writeWord a.toNat v s.mem, port := .written }) hbusy h4 ha,
        observeWord_of_bytes hbytes]
  · rw [hostRead_memory hbusy h4 ha, observeWord_of_bytes h]
  · rw [observeWord_byte s _ hk, observeByte_of_read hb]
  · simp only [tapEnd, tapAddr, Nat.mul_comm b.val, and_self]
  · simp only [bufEnd, bufAddr, Nat.mul_comm j.val, and_self]

end Sys2Proof.Machine
end

section
/-! Comparison, quotient, conversions, TRIG and ATAN2 (40_numerics.md R127, R130, R131, R134 to R140): each operation by
its cases, and rounding kept between representable bounds. -/
namespace Sys2Proof.Machine

/-! ### Rounding between bounds (40_numerics.md R124) -/

/-- Settles O27: `roundFp_isRounding`, the rounding of the two formats against its rule. -/
theorem roundsToNearestEven : Obligations.RoundsToNearestEven :=
  fun w s num _ _ hden => roundFp_isRounding w s num hden

/-- Settles O28: `unitsOf` is strictly increasing, and a value of the format is its own rounding. -/
theorem patternsAndValues : Obligations.PatternsAndValues :=
  fun w _ _ => ⟨fun _ hm _ => unitsOf_strictMono w hm, fun _ hm hk => roundMag_unitsOf hm hk⟩

theorem unitsOf_le_iff {w m n : Nat} : unitsOf w m ≤ unitsOf w n ↔ m ≤ n := (unitsOf_strictMono w).le_iff_le

theorem unitsOf_lt_iff {w m n : Nat} : unitsOf w m < unitsOf w n ↔ m < n := (unitsOf_strictMono w).lt_iff_lt

theorem roundMag_le_infMag (w num : Nat) {den : Nat} (hden : 1 ≤ den) : roundMag w num den ≤ infMag w := by
  obtain ⟨lo, M, hround, -⟩ := roundMag_between w num hden
  exact hround ▸ Nat.min_le_left _ _

/-- An operand from a value of the format on rounds to that value or a larger one. -/
theorem le_roundMag {w a num den : Nat} (hden : 1 ≤ den) (ha : a ≤ infMag w) (h : unitsOf w a * den ≤ num) :
    a ≤ roundMag w num den := by
  obtain ⟨lo, M, hround, hb⟩ := roundMag_between w num hden
  have hlo : a < lo + 1 := unitsOf_lt_iff.mp (Nat.lt_of_mul_lt_mul_right (h.trans_lt hb.above))
  have hM := hb.nearer
  rw [hround, Nat.le_min]
  exact ⟨ha, by split at hM <;> omega⟩

/-- An operand up to a value of the format rounds to that value or a smaller one. -/
theorem roundMag_le {w b num den : Nat} (hden : 1 ≤ den) (h : num ≤ unitsOf w b * den) : roundMag w num den ≤ b := by
  obtain ⟨lo, M, hround, hb⟩ := roundMag_between w num hden
  have hlo : lo ≤ b := unitsOf_le_iff.mp (Nat.le_of_mul_le_mul_right (hb.below.trans h) hden)
  have hM := hb.nearer
  have hMb : M ≤ b := by
    rcases Nat.eq_or_lt_of_le hlo with rfl | hlt
    · have hnext := hb.mul_lt (Nat.lt_add_one lo)
      rw [Nat.add_mul, if_neg (by omega)] at hM
      exact hM.le
    · split at hM <;> omega
  rw [hround]
  exact (Nat.min_le_right _ _).trans hMb

/-- A whole number below `2^p`, times a power of two, is a value of the format (or above it). -/
theorem exists_unitsOf_eq {w n : Nat} (e : Nat) (hn : n < 2 ^ prec w) : ∃ m, unitsOf w m = n * 2 ^ e := by
  have hdouble : 2 ^ prec w = 2 * implicitBit w := (mul_pow_sub_one (Nat.ne_of_gt (prec_pos w)) 2).symm
  rw [hdouble] at hn
  induction e generalizing n with
  | zero => exact ⟨0 * implicitBit w + n, unitsOf_spacings hn.le (.inl rfl)⟩
  | succ e ih =>
    rcases Nat.lt_or_ge n (implicitBit w) with hlt | hge
    · obtain ⟨m, hm⟩ := ih (n := 2 * n) (by omega)
      exact ⟨m, by rw [hm, Nat.pow_succ]; ring⟩
    · exact ⟨(e + 1) * implicitBit w + n, unitsOf_spacings hn.le (.inr hge)⟩

/-! #### Exponents -/

theorem mul_two_pow_lt {x a e b : Nat} (hx : x < 2 ^ a) (h : a + e ≤ b) : x * 2 ^ e < 2 ^ b :=
  calc x * 2 ^ e
    _ < 2 ^ a * 2 ^ e := Nat.mul_lt_mul_of_pos_right hx (Nat.two_pow_pos e)
    _ = 2 ^ (a + e) := (Nat.pow_add 2 a e).symm
    _ ≤ 2 ^ b := Nat.pow_le_pow_right Nat.two_pos h

theorem two_pow_le_mul {x y a b c : Nat} (hx : 2 ^ a ≤ x) (hy : 2 ^ b ≤ y) (h : c ≤ a + b) : 2 ^ c ≤ x * y :=
  calc 2 ^ c
    _ ≤ 2 ^ (a + b) := Nat.pow_le_pow_right Nat.two_pos h
    _ = 2 ^ a * 2 ^ b := Nat.pow_add 2 a b
    _ ≤ x * y := Nat.mul_le_mul hx hy

theorem mul_le_two_pow {x y a b c : Nat} (hx : x ≤ 2 ^ a) (hy : y ≤ 2 ^ b) (h : a + b ≤ c) : x * y ≤ 2 ^ c :=
  calc x * y
    _ ≤ 2 ^ a * 2 ^ b := Nat.mul_le_mul hx hy
    _ = 2 ^ (a + b) := (Nat.pow_add 2 a b).symm
    _ ≤ 2 ^ c := Nat.pow_le_pow_right Nat.two_pos h

theorem exists_unitsOf_two_pow (w e : Nat) : ∃ m, unitsOf w m = 2 ^ e := by
  obtain ⟨m, hm⟩ := exists_unitsOf_eq (w := w) (n := 1) e (Nat.one_lt_two_pow (Nat.ne_of_gt (prec_pos w)))
  exact ⟨m, hm.trans (Nat.one_mul _)⟩

/-- Rounding a quotient between powers of two stays between powers of two. -/
theorem unitsOf_roundMag_bounds {w num den nl nh dl dh l u top : Nat} (hd : 2 ^ dl ≤ den ∧ den ≤ 2 ^ dh)
    (hn : 2 ^ nl ≤ num ∧ num ≤ 2 ^ nh) (hl : l + dh ≤ nl) (hu : nh ≤ u + dl)
    (hinf : unitsOf w (infMag w) = 2 ^ top) (htop : u < top) :
    2 ^ l ≤ unitsOf w (roundMag w num den) ∧ unitsOf w (roundMag w num den) ≤ 2 ^ u ∧ roundMag w num den < infMag w := by
  have hden : 1 ≤ den := (Nat.two_pow_pos dl).trans_le hd.1
  have hlow : 2 ^ l * den ≤ num := (mul_le_two_pow le_rfl hd.2 hl).trans hn.1
  have hhigh : num ≤ 2 ^ u * den := hn.2.trans (two_pow_le_mul le_rfl hd.1 hu)
  obtain ⟨a, ha⟩ := exists_unitsOf_two_pow w l
  obtain ⟨b, hb⟩ := exists_unitsOf_two_pow w u
  have hbinf : b < infMag w := by
    rw [← unitsOf_lt_iff (w := w), hb, hinf]
    exact Nat.pow_lt_pow_right (by decide) htop
  have hle : roundMag w num den ≤ b := roundMag_le hden (hb ▸ hhigh)
  have hab : a ≤ b := by
    rw [← unitsOf_le_iff (w := w), ha, hb]
    exact Nat.le_of_mul_le_mul_right (hlow.trans hhigh) hden
  have hge : a ≤ roundMag w num den := le_roundMag hden (hab.trans hbinf.le) (ha ▸ hlow)
  exact ⟨ha ▸ unitsOf_le_iff.mpr hge, hb ▸ unitsOf_le_iff.mpr hle, hle.trans_lt hbinf⟩

/-! ### Finite and infinite values -/

theorem natAbs_svalOf_lt_inf {w : Nat} {a : BitVec w} (ha : isFiniteBits a = true) :
    (svalOf a).natAbs < unitsOf w (infMag w) := by
  rw [natAbs_svalOf]
  exact unitsOf_strictMono w (isFiniteBits_iff.mp ha)

theorem svalOf_of_inf {w : Nat} {a : BitVec w} (ha : isInfBits a = true) :
    svalOf a = if signOf a then -(unitsOf w (infMag w) : Int) else unitsOf w (infMag w) := by
  rw [svalOf, isInfBits_iff.mp ha]

theorem rat_pat {w : Nat} {a : BitVec w} (ha : isFiniteBits a = true) :
    Fp.rat? (.pat a) = some ((svalOf a : ℚ) / 2 ^ unitLog w) := by
  simp [Fp.rat?, Fp.units?, ha]

/-! ### Comparison (40_numerics.md R130) -/

theorem gt_pat {w : Nat} {a b : BitVec w} (ha : isNaNBits a = false) (hb : isNaNBits b = false) :
    Fp.gt (.pat a) (.pat b) = decide (svalOf b < svalOf a) := by
  simp [Fp.gt, ha, hb]

theorem gt_of_nan {w : Nat} {a b : Fp w} (h : a.IsNaN ∨ b.IsNaN) : Fp.gt a b = false := by
  cases a with
  | nan => rfl
  | unspec _ => rfl
  | pat a =>
    cases b with
    | nan => rfl
    | unspec _ => rfl
    | pat b => rcases h with h | h <;> simp [Fp.gt, show isNaNBits _ = true from h]

/-- Settles O32: on patterns that are not NaN the comparison is that of the units. -/
theorem compareRule : Obligations.CompareRule := by
  intro w hw
  refine ⟨fun a b => ⟨rfl, fun h => ⟨gt_of_nan h, gt_of_nan h.symm⟩⟩, fun a b => ⟨fun ha hb x y hx hy => ?_,
    fun ha hb => ?_, fun ha hb => ?_⟩⟩
  · rw [rat_pat ha] at hx
    rw [rat_pat hb] at hy
    obtain rfl := Option.some.inj hx
    obtain rfl := Option.some.inj hy
    rw [gt_pat (isNaNBits_of_finite ha) (isNaNBits_of_finite hb), decide_eq_true_iff,
      div_lt_div_iff_of_pos_right (by positivity), Int.cast_lt]
  · have hlt := natAbs_svalOf_lt_inf hb
    rw [gt_pat (isNaNBits_of_inf ha) (isNaNBits_of_finite hb), gt_pat (isNaNBits_of_finite hb) (isNaNBits_of_inf ha),
      svalOf_of_inf ha]
    cases signOf a <;> (simp; omega)
  · have hpos : 0 < unitsOf w (infMag w) :=
      Nat.pos_of_ne_zero (mt unitsOf_eq_zero.mp (Nat.ne_of_gt (infMag_bounds hw).2.1))
    rw [gt_pat (isNaNBits_of_inf ha) (isNaNBits_of_inf hb), svalOf_of_inf ha, svalOf_of_inf hb]
    generalize unitsOf w (infMag w) = u at *
    have hlt : -(u : Int) < u := by omega
    have hge : ¬ (u : Int) < -(u : Int) := by omega
    cases signOf a <;> cases signOf b <;> simp [hlt, hge]

/-! ### `div_F` (40_numerics.md R127) -/

theorem div_of_finite {w : Nat} {a b : BitVec w} (ha : isFiniteBits a = true) (hb : isFiniteBits b = true)
    (hz : isZeroBits b = false) : Fp.div (.pat a) (.pat b) =
      roundFp w (signOf a ^^ signOf b) (unitsOf w (magOf a) * 2 ^ unitLog w) (unitsOf w (magOf b)) := by
  rw [Fp.div, lift2_pat _ (isNaNBits_of_finite ha) (isNaNBits_of_finite hb)]
  simp [divBits, isInfBits_of_finite ha, isInfBits_of_finite hb, hz]

theorem isFiniteBits_of_zero {w : Nat} (hw : w = 32 ∨ w = 64) {a : BitVec w} (h : isZeroBits a = true) :
    isFiniteBits a = true := by
  rw [isFiniteBits_iff, isZeroBits_iff.mp h]
  exact (infMag_bounds hw).2.1

theorem unitsOf_pos_of_ne_zero {w : Nat} {a : BitVec w} (h : isZeroBits a = false) : 1 ≤ unitsOf w (magOf a) := by
  refine Nat.one_le_iff_ne_zero.mpr (mt unitsOf_eq_zero.mp fun hz => ?_)
  simp [isZeroBits_iff.mpr hz] at h

/-- Settles O33: finite operands by their exact quotient, zeros and infinities by the branches of the rule. -/
theorem divRule : Obligations.DivRule := by
  intro w hw
  refine ⟨fun a b ha hb h => lift2_nan _ ha hb h, fun a b => ⟨fun ha hb hz => ?_, fun ha hza hzb => ?_, fun ha hb => ?_,
    fun ha hb => ?_, fun ha hb => ?_, fun ha hb => ?_⟩⟩
  · rw [div_of_finite ha hb hz]
    exact roundFp_isRounding w _ _ (unitsOf_pos_of_ne_zero hz)
  · rw [Fp.div, lift2_pat _ (isNaNBits_of_finite ha) (isNaNBits_of_zero hzb)]
    simp [divBits, infFp, isInfBits_of_finite ha, isInfBits_of_finite (isFiniteBits_of_zero hw hzb), hza, hzb]
  · rw [Fp.div, lift2_pat _ (isNaNBits_of_zero ha) (isNaNBits_of_zero hb)]
    simp [divBits, isInfBits_of_finite (isFiniteBits_of_zero hw ha), isInfBits_of_finite (isFiniteBits_of_zero hw hb), ha, hb]
  · rw [Fp.div, lift2_pat _ (isNaNBits_of_inf ha) (isNaNBits_of_inf hb)]
    simp [divBits, ha, hb]
  · rw [Fp.div, lift2_pat _ (isNaNBits_of_inf ha) (isNaNBits_of_finite hb)]
    simp [divBits, infFp, ha, isInfBits_of_finite hb]
  · rw [Fp.div, lift2_pat _ (isNaNBits_of_finite ha) (isNaNBits_of_inf hb)]
    simp [divBits, zeroFp, hb, isInfBits_of_finite ha]

/-! ### Conversions (40_numerics.md R131) -/

theorem convert_finite {w : Nat} (v num den : Nat) {a : BitVec w} (ha : isFiniteBits a = true) :
    Fp.convert v num den (.pat a) = roundFp v (signOf a) (unitsOf w (magOf a) * num) den := by
  simp [Fp.convert, isNaNBits_of_finite ha, isInfBits_of_finite ha]

theorem convert_inf {w : Nat} (v num den : Nat) {a : BitVec w} (ha : isInfBits a = true) :
    Fp.convert v num den (.pat a) = .pat (packFp v (signOf a) (infMag v)) := by
  simp [Fp.convert, infFp, isNaNBits_of_inf ha, ha]

theorem convert_nan {w : Nat} (v num den : Nat) {a : Fp w} (ha : a.IsNaN) : Fp.convert v num den a = .nan := by
  cases a with
  | pat a => simp [Fp.convert, show isNaNBits a = true from ha]
  | nan => rfl
  | unspec _ => exact absurd ha id

/-- A finite pattern with the given sign and magnitude. -/
theorem packFp_finite {w : Nat} (hw : w = 32 ∨ w = 64) (s : Bool) {m : Nat} (hm : m < infMag w) :
    signOf (packFp w s m) = s ∧ magOf (packFp w s m) = m ∧ isFiniteBits (packFp w s m) = true := by
  obtain ⟨hpos, -, hlt⟩ := infMag_bounds hw
  have hmag := magOf_packFp hpos s (hm.trans hlt)
  exact ⟨signOf_packFp hpos s (hm.trans hlt), hmag, isFiniteBits_iff.mpr (hmag.symm ▸ hm)⟩

/-- An exact number of units, if it is a value of the format, rounds to it. -/
theorem roundFp_exact {w m num : Nat} (s : Bool) (hm : m < infMag w) (h : unitsOf w m = num) :
    roundFp w s num 1 = .pat (packFp w s m) := by
  have hround := roundMag_unitsOf hm le_rfl
  rw [Nat.mul_one, h] at hround
  rw [roundFp, hround]

theorem unitsOf_infMag_32 : unitsOf 32 (infMag 32) = 2 ^ 277 := by decide +kernel

theorem unitsOf_infMag_64 : unitsOf 64 (infMag 64) = 2 ^ 2098 := by decide +kernel

/-- Every finite binary32 value is a finite binary64 value (40_numerics.md R131). -/
theorem exists_widened {m : Nat} (hm : m < infMag 32) :
    ∃ m' < infMag 64, unitsOf 64 m' = unitsOf 32 m * 2 ^ (1074 - 149) := by
  obtain ⟨q, n, rfl, hn, hq⟩ := exists_spacings 32 m
  have hunits := unitsOf_spacings (w := 32) hn.le hq
  have hprec : 2 * implicitBit 32 ≤ 2 ^ prec 64 := by decide
  have hscale (e : Nat) : n * 2 ^ (q + e) = n * 2 ^ q * 2 ^ e := by rw [Nat.pow_add, Nat.mul_assoc]
  obtain ⟨m', hm'⟩ := exists_unitsOf_eq (w := 64) (n := n) (q + (1074 - 149)) (hn.trans_le hprec)
  rw [hscale, ← hunits] at hm'
  refine ⟨m', ?_, hm'⟩
  have hlt := unitsOf_strictMono 32 hm
  rw [unitsOf_infMag_32] at hlt
  rw [← unitsOf_lt_iff (w := 64), hm', unitsOf_infMag_64]
  exact mul_two_pow_lt hlt (by decide)

/-- A widened finite value: the same sign and the same exact value. -/
theorem widen64_finite {a : BitVec 32} (ha : isFiniteBits a = true) :
    ∃ m < infMag 64, widen64 (.pat a) = .pat (packFp 64 (signOf a) m) ∧
      unitsOf 64 m = unitsOf 32 (magOf a) * 2 ^ (1074 - 149) := by
  obtain ⟨m, hm, hunits⟩ := exists_widened (isFiniteBits_iff.mp ha)
  exact ⟨m, hm, (convert_finite 64 _ 1 ha).trans (roundFp_exact _ hm hunits), hunits⟩

theorem rat_packFp {w : Nat} (hw : w = 32 ∨ w = 64) (s : Bool) {m : Nat} (hm : m < infMag w) :
    Fp.rat? (.pat (packFp w s m)) =
      some (((if s then -(unitsOf w m : Int) else unitsOf w m : Int) : ℚ) / 2 ^ unitLog w) := by
  obtain ⟨hsign, hmag, hfin⟩ := packFp_finite hw s hm
  rw [rat_pat hfin, svalOf, hsign, hmag]

/-- A number of units, given in finer units, is the same exact value. -/
theorem value_scale (s : Bool) {u u' e a b : Nat} (hu : u' = u * 2 ^ e) (hb : b = a + e) :
    ((if s then -(u' : Int) else u' : Int) : ℚ) / 2 ^ b = ((if s then -(u : Int) else u : Int) : ℚ) / 2 ^ a := by
  subst hu hb
  have hne : (2 : ℚ) ^ e ≠ 0 := by positivity
  rw [pow_add]
  cases s <;> simp only [Bool.false_eq_true, if_true, if_false] <;> push_cast <;> field_simp

/-- `u2d` of a number below `2^53` is that number exactly. -/
theorem u2d_exact {n : Nat} (hn : n < 2 ^ 53) :
    ∃ m < infMag 64, u2d n = .pat (packFp 64 false m) ∧ unitsOf 64 m = n * 2 ^ 1074 := by
  obtain ⟨m, hm⟩ := exists_unitsOf_eq (w := 64) (n := n) 1074 hn
  have hlt : m < infMag 64 := by
    rw [← unitsOf_lt_iff (w := 64), hm, unitsOf_infMag_64]
    exact mul_two_pow_lt hn (by decide)
  exact ⟨m, hlt, roundFp_exact false hlt hm, hm⟩

/-- Narrowing the widened value rounds the exact value of a binary32 pattern, which gives the pattern back. -/
theorem narrow32_widen64 {a : BitVec 32} (ha : isNaNBits a = false) : narrow32 (widen64 (.pat a)) = .pat a := by
  have hmag : magOf a ≤ infMag 32 := by
    rw [← Bool.not_eq_true, isNaNBits_iff] at ha
    omega
  rcases Nat.eq_or_lt_of_le hmag with hinf | hfin
  · have hinf' := isInfBits_iff.mpr hinf
    rw [widen64, convert_inf _ _ _ hinf', narrow32, convert_inf _ _ _ (isInfBits_packFp_inf (.inr rfl) _),
      signOf_packFp_inf (.inr rfl), ← hinf, packFp_signOf_magOf (by decide)]
  · obtain ⟨m, hm, hw, hunits⟩ := widen64_finite (isFiniteBits_iff.mpr hfin)
    obtain ⟨hsign, hmag', hfin'⟩ := packFp_finite (.inr rfl) (signOf a) hm
    rw [hw, narrow32, convert_finite _ _ _ hfin', hsign, hmag', hunits, Nat.mul_one, roundFp,
      roundMag_unitsOf hfin (Nat.two_pow_pos _), packFp_signOf_magOf (by decide)]

/-- Settles O34: narrowing rounds once; widening and `u2d` give the units of the value itself, scaled to binary64. -/
theorem conversionRule : Obligations.ConversionRule := by
  refine ⟨fun a ha => ?_, fun a ha => ?_, fun a ha => convert_inf _ _ _ ha, fun a ha => convert_inf _ _ _ ha,
    fun a ha => convert_nan _ _ _ ha, fun a ha => convert_nan _ _ _ ha, fun a ha => narrow32_widen64 ha, fun n hn => ?_⟩
  · have hround := roundFp_isRounding 32 (signOf a) (unitsOf 64 (magOf a)) (Nat.two_pow_pos (1074 - 149))
    rwa [narrow32, convert_finite _ _ _ ha, Nat.mul_one]
  · obtain ⟨m, hm, hw, hunits⟩ := widen64_finite ha
    refine ⟨_, hw, (packFp_finite (.inr rfl) _ hm).1, ?_⟩
    rw [rat_packFp (.inr rfl) _ hm, rat_pat ha, svalOf]
    exact congrArg some (value_scale (signOf a) hunits (by decide))
  · obtain ⟨m, hm, hu, hunits⟩ := u2d_exact hn
    rw [hu, rat_packFp (.inr rfl) _ hm, value_scale (a := 0) false hunits (by decide)]
    simp

/-! ### The open functions (40_numerics.md R136, R139) -/

/-- Settles O37: on the quarter turns by the branches of the definitions, the range by `trig_le_one`. -/
theorem trigProperties : Obligations.TrigProperties := by
  intro r m hr
  have hzero : (Fp.zero : F32) = .pat 0x00000000 := by decide
  obtain ⟨⟨c, hc, hc1⟩, ⟨v, hv, hv1⟩⟩ := trig_le_one r m
  refine ⟨fun h => ?_, fun h => ?_, fun h => ?_, fun h => ?_, ⟨c, hc, abs_le.mp hc1⟩, ⟨v, hv, abs_le.mp hv1⟩⟩
  · rw [cos2pi32, sin2pi32, if_pos h, if_pos h, hzero]
    exact ⟨rfl, rfl⟩
  · have h0 : ¬ 4 * r = 0 := by omega
    rw [cos2pi32, sin2pi32, if_neg h0, if_neg h0, if_pos h, if_pos h, hzero]
    exact ⟨rfl, rfl⟩
  · have h0 : ¬ 4 * r = 0 := by omega
    have h1 : ¬ 4 * r = m := by omega
    rw [cos2pi32, sin2pi32, if_neg h0, if_neg h0, if_neg h1, if_neg h1, if_pos h, if_pos h, hzero]
    exact ⟨rfl, rfl⟩
  · have h0 : ¬ 4 * r = 0 := by omega
    have h1 : ¬ 4 * r = m := by omega
    have h2 : ¬ 4 * r = 2 * m := by omega
    rw [cos2pi32, sin2pi32, if_neg h0, if_neg h0, if_neg h1, if_neg h1, if_neg h2, if_neg h2, if_pos h, if_pos h, hzero]
    exact ⟨rfl, rfl⟩

theorem atan2F_pat {y x : BitVec 32} (hy : isNaNBits y = false) (hx : isNaNBits x = false) :
    atan2F (.pat y) (.pat x) = atan2Bits y x := lift2_pat _ hy hx

/-- A pattern up to that of `PI32`, of either sign, is in the range of `ATAN2`. -/
theorem packFp_in_range (s : Bool) {m : Nat} (hm : m ≤ 0x40490FDB) :
    isNaNBits (packFp 32 s m) = false ∧ magOf (packFp 32 s m) ≤ 0x40490FDB := by
  have hinf : m < infMag 32 := hm.trans_lt (by decide)
  obtain ⟨-, hmag, hfin⟩ := packFp_finite (.inl rfl) s hinf
  exact ⟨isNaNBits_of_finite hfin, hmag.le.trans hm⟩

/-- Whatever its operands are, `atan2_32` on patterns that are not NaN answers a pattern up to `PI32` (A2). -/
theorem atan2F_range {y x : BitVec 32} (hy : isNaNBits y = false) (hx : isNaNBits x = false) :
    ∃ c, atan2F (.pat y) (.pat x) = .pat c ∧ isNaNBits c = false ∧ magOf c ≤ 0x40490FDB := by
  rw [atan2F_pat hy hx, atan2Bits]
  split
  · split
    · exact ⟨_, rfl, packFp_in_range _ le_rfl⟩
    · exact ⟨_, rfl, packFp_in_range _ (Nat.zero_le _)⟩
  split
  · exact ⟨_, rfl, packFp_in_range _ (by decide)⟩
  · exact ⟨_, rfl, packFp_in_range _ (Nat.le_of_lt_succ (Config.atan2 y x).2.isLt)⟩

/-- Settles O38: the range by the branches of the rule, and each axis by its branch. -/
theorem atanProperties : Obligations.AtanProperties := by
  refine ⟨fun y x hy hx h => lift2_nan _ hy hx h, fun y x => ⟨atan2F_range, fun hy hx hs => ?_, fun hy hx hs => ?_,
    fun hy hz hx => ?_⟩⟩
  · rw [atan2F_pat (isNaNBits_of_zero hy) (isNaNBits_of_finite hx), atan2Bits,
      if_pos (by simp [isFiniteBits_of_zero (.inl rfl) hy, hx, hy]), if_neg (by simp [hs])]
    rfl
  · rw [atan2F_pat (isNaNBits_of_zero hy) (isNaNBits_of_finite hx), atan2Bits,
      if_pos (by simp [isFiniteBits_of_zero (.inl rfl) hy, hx, hy]), if_pos hs]
  · rw [atan2F_pat (isNaNBits_of_finite hy) (isNaNBits_of_zero hx), atan2Bits, if_neg (by simp [hz]),
      if_pos (by simp [isFiniteBits_of_zero (.inl rfl) hx, hx, hy])]

/-! ### `cmul32` by one (40_numerics.md R134) -/

/-- A finite value times one is the value. -/
theorem mul_one_pat {a : BitVec 32} (ha : isFiniteBits a = true) : Fp.mul (.pat a) (.pat 0x3F800000) = .pat a := by
  have hone : signOf (0x3F800000 : BitVec 32) = false ∧ isFiniteBits (0x3F800000 : BitVec 32) = true := by decide
  have hunits : unitsOf 32 (magOf (0x3F800000 : BitVec 32)) = 2 ^ unitLog 32 := by decide +kernel
  rw [mul_of_finite ha hone.2, hone.1, hunits, Bool.xor_false, roundFp,
    roundMag_unitsOf (isFiniteBits_iff.mp ha) (Nat.two_pow_pos _), packFp_signOf_magOf (by decide)]

/-- A finite value times `+0` is a zero of the value's sign. -/
theorem mul_zero_pat {w : Nat} (hw : w = 32 ∨ w = 64) {a : BitVec w} (ha : isFiniteBits a = true) :
    Fp.mul (.pat a) (.pat (packFp w false 0)) = .pat (packFp w (signOf a) 0) := by
  rw [mul_eq_zero hw ha (isFiniteBits_packFp_zero hw false) (.inr (isZeroBits_iff.mpr (magOf_packFp_zero hw false))),
    signOf_packFp_zero hw, Bool.xor_false]

theorem add_comm_finite {w : Nat} {a b : BitVec w} (ha : isFiniteBits a = true) (hb : isFiniteBits b = true) :
    Fp.add (.pat a) (.pat b) = Fp.add (.pat b) (.pat a) := by
  by_cases h : svalOf a + svalOf b = 0
  · rw [add_of_sum_eq_zero ha hb h, add_of_sum_eq_zero hb ha (by omega), Bool.and_comm]
  · rw [add_of_sum_ne_zero ha hb h, add_of_sum_ne_zero hb ha (by omega), Int.add_comm]

theorem neg_packFp_zero {w : Nat} (hw : w = 32 ∨ w = 64) (z : Bool) :
    Fp.neg (.pat (packFp w z 0)) = .pat (packFp w (!z) 0) := by
  have hpos := (infMag_bounds hw).1
  refine congrArg Fp.pat ?_
  rw [eq_packFp_zero hpos ((magOf_flipSign hpos _).trans (magOf_packFp_zero hw z)), signOf_flipSign hpos,
    signOf_packFp_zero hw]

/-- Settles O39: the products with 1 are exact, and the zeros of the products with `+0` are absorbed. -/
theorem cmulByOne : Obligations.CmulByOne := by
  refine ⟨fun _ _ => rfl, fun a b ha hza hb hzb => ?_⟩
  have hw : (32 : Nat) = 32 ∨ (32 : Nat) = 64 := .inl rfl
  have hzero : (0x00000000 : BitVec 32) = packFp 32 false 0 := by decide
  have hfin := isFiniteBits_packFp_zero hw
  rw [cmul32, hzero, mul_one_pat ha, mul_one_pat hb, mul_zero_pat hw ha, mul_zero_pat hw hb, Fp.sub, neg_packFp_zero hw,
    add_zero_right hw _ ha hza, add_comm_finite (hfin _) hb, add_zero_right hw _ hb hzb]

/-! ### The FM scale constant (40_numerics.md R140) -/

/-- A positive finite pattern by its magnitude. -/
theorem positive_pat {w : Nat} (hw : w = 32 ∨ w = 64) {m : Nat} (hm : m < infMag w) (hpos : 0 < unitsOf w m) :
    isFiniteBits (packFp w false m) = true ∧ isZeroBits (packFp w false m) = false ∧ signOf (packFp w false m) = false ∧
      magOf (packFp w false m) = m := by
  obtain ⟨hsign, hmag, hfin⟩ := packFp_finite hw false hm
  refine ⟨hfin, ?_, hsign, hmag⟩
  rw [← Bool.not_eq_true, isZeroBits_iff, hmag]
  exact fun h => by simp [h] at hpos

/-- `K64` lies in [8, 16). -/
theorem unitsOf_k64 : 2 ^ 1077 ≤ unitsOf 64 0x4021C5831ADD62E4 ∧ unitsOf 64 0x4021C5831ADD62E4 ≤ 2 ^ 1078 ∧
    (0x4021C5831ADD62E4 : BitVec 64) = packFp 64 false 0x4021C5831ADD62E4 ∧ 0x4021C5831ADD62E4 < infMag 64 := by
  decide +kernel

/-- A positive 32-bit number in units of 2^-1074. -/
theorem units_word_bounds {n : Nat} (h1 : 1 ≤ n) (h2 : n < 2 ^ 32) (e : Nat) :
    2 ^ (0 + e) ≤ n * 2 ^ e ∧ n * 2 ^ e ≤ 2 ^ (32 + e) :=
  ⟨two_pow_le_mul h1 le_rfl le_rfl, mul_le_two_pow h2.le le_rfl le_rfl⟩

/-- The denominator `K64 · fmdev` lies in [2^3, 2^36]. -/
theorem fmscale_denominator {fmdev : Nat} (h1 : 1 ≤ fmdev) (h2 : fmdev < 2 ^ 32) :
    ∃ m < infMag 64, Fp.mul k64 (u2d fmdev) = .pat (packFp 64 false m) ∧ 2 ^ 1077 ≤ unitsOf 64 m ∧
      unitsOf 64 m ≤ 2 ^ 1110 := by
  obtain ⟨n, hn, hu, hunits⟩ := u2d_exact (n := fmdev) (h2.trans (by decide))
  obtain ⟨hlo, hhi, hk, hkinf⟩ := unitsOf_k64
  obtain ⟨hdevlo, hdevhi⟩ := units_word_bounds h1 h2 1074
  rw [← hunits] at hdevlo hdevhi
  obtain ⟨hkfin, -, hksign, hkmag⟩ := positive_pat (.inr rfl) hkinf ((Nat.two_pow_pos _).trans_le hlo)
  obtain ⟨hfin, -, hsign, hmag⟩ := positive_pat (.inr rfl) hn ((Nat.two_pow_pos _).trans_le hdevlo)
  obtain ⟨hrlo, hrhi, hrinf⟩ := unitsOf_roundMag_bounds (w := 64) (l := 1077) (u := 1110) (den := 2 ^ unitLog 64)
    ⟨le_rfl, le_rfl⟩ ⟨two_pow_le_mul hlo hdevlo le_rfl, mul_le_two_pow hhi hdevhi le_rfl⟩ (by decide) (by decide)
    unitsOf_infMag_64 (by decide)
  refine ⟨_, hrinf, ?_, hrlo, hrhi⟩
  rw [hu, k64, hk, mul_of_finite hkfin hfin, hksign, hsign, hkmag, hmag]
  rfl

/-- The quotient `fs / (K64 · fmdev)` lies in [2^-36, 2^29]. -/
theorem fmscale_quotient {fs fmdev : Nat} (h1 : 1 ≤ fs) (h2 : fs < 2 ^ 32) (h3 : 1 ≤ fmdev) (h4 : fmdev < 2 ^ 32) :
    ∃ m < infMag 64, Fp.div (u2d fs) (Fp.mul k64 (u2d fmdev)) = .pat (packFp 64 false m) ∧ 2 ^ 1038 ≤ unitsOf 64 m ∧
      unitsOf 64 m ≤ 2 ^ 1103 := by
  obtain ⟨n, hn, hu, hunits⟩ := u2d_exact (n := fs) (h2.trans (by decide))
  obtain ⟨d, hd, hmul, hlo, hhi⟩ := fmscale_denominator h3 h4
  obtain ⟨hfslo, hfshi⟩ := units_word_bounds h1 h2 1074
  rw [← hunits] at hfslo hfshi
  obtain ⟨hdfin, hdz, hdsign, hdmag⟩ := positive_pat (.inr rfl) hd ((Nat.two_pow_pos _).trans_le hlo)
  obtain ⟨hfin, -, hsign, hmag⟩ := positive_pat (.inr rfl) hn ((Nat.two_pow_pos _).trans_le hfslo)
  obtain ⟨hrlo, hrhi, hrinf⟩ := unitsOf_roundMag_bounds (w := 64) (l := 1038) (u := 1103) ⟨hlo, hhi⟩
    ⟨two_pow_le_mul hfslo (le_refl (2 ^ unitLog 64)) le_rfl, mul_le_two_pow hfshi (le_refl (2 ^ unitLog 64)) le_rfl⟩
    (by decide) (by decide) unitsOf_infMag_64 (by decide)
  refine ⟨_, hrinf, ?_, hrlo, hrhi⟩
  rw [hu, hmul, div_of_finite hfin hdfin hdz, hsign, hdsign, hmag, hdmag]
  rfl

/-- The scale constant is a positive normal number. -/
theorem fmscale_normal {fs fmdev : Nat} (h1 : 1 ≤ fs) (h2 : fs < 2 ^ 32) (h3 : 1 ≤ fmdev) (h4 : fmdev < 2 ^ 32) :
    ∃ c, fmscale fs fmdev = .pat c ∧ signOf c = false ∧ 0x00800000 ≤ magOf c ∧ magOf c < 0x7F800000 := by
  obtain ⟨m, hm, hdiv, hlo, hhi⟩ := fmscale_quotient h1 h2 h3 h4
  obtain ⟨hfin, -, hsign, hmag⟩ := positive_pat (.inr rfl) hm ((Nat.two_pow_pos _).trans_le hlo)
  obtain ⟨hlow, -, hinf⟩ := unitsOf_roundMag_bounds (w := 32) (num := unitsOf 64 m * 1) (den := 2 ^ (1074 - 149))
    (l := 113) (u := 178) ⟨le_rfl, le_rfl⟩ (by rw [Nat.mul_one]; exact ⟨hlo, hhi⟩) (by decide) (by decide)
    unitsOf_infMag_32 (by decide)
  have hnormal : 0x00800000 ≤ roundMag 32 (unitsOf 64 m * 1) (2 ^ (1074 - 149)) := by
    have hunits : unitsOf 32 0x00800000 = 2 ^ 23 := by decide +kernel
    rw [← unitsOf_le_iff (w := 32), hunits]
    exact (Nat.pow_le_pow_right (by decide) (by decide)).trans hlow
  obtain ⟨hsign', hmag', -⟩ := packFp_finite (.inl rfl) false hinf
  refine ⟨_, ?_, hsign', hmag'.symm ▸ hnormal, hmag'.symm ▸ hinf⟩
  rw [fmscale, hdiv, narrow32, convert_finite _ _ _ hfin, hsign, hmag]
  rfl

/-- Settles O40: each operation of the formula stays between powers of two. -/
theorem fmscalePositiveNormal : Obligations.FmscalePositiveNormal :=
  ⟨fun _ _ => rfl, fun _ _ h1 h2 h3 h4 => fmscale_normal h1 h2 h3 h4⟩

end Sys2Proof.Machine
end

section
/-! The filter sum (41_fir.md R161 to R164): its value grows tap by tap, it is never `-0`, and where it is exact it is
the ideal one. -/
namespace Sys2Proof.Machine

/-! ### Tap by tap (41_fir.md R161) -/

/-- One more tap adds one more term. -/
theorem firAt_append {w : Nat} (h x : List (Fp w)) (c : Fp w) (n : Nat) :
    firAt (h ++ [c]) x n = firTerm x n (firAt h x n) (c, h.length) := by
  rw [firAt, firAt, List.zipIdx_append, List.foldl_append, Nat.zero_add]
  rfl

theorem firTerm_late {w : Nat} {x : List (Fp w)} {n k : Nat} (h : n < k) (acc c : Fp w) :
    firTerm x n acc (c, k) = Fp.add acc (Fp.mul c (.pat (packFp w false 0))) := by
  rw [firTerm, if_neg (Nat.not_le.mpr h)]
  rfl

theorem firTerm_sample {w : Nat} {x : List (Fp w)} {n k : Nat} {v : Fp w} (h : k ≤ n) (hv : x[n - k]? = some v)
    (acc c : Fp w) : firTerm x n acc (c, k) = Fp.add acc (Fp.mul c v) := by
  rw [firTerm, if_pos h, List.getD_eq_getElem?_getD, hv]
  rfl

theorem firSeq_getElem? {w : Nat} (h x : List (Fp w)) {n : Nat} (hn : n < x.length) :
    (firSeq h x)[n]? = some (firAt h x n) := by
  rw [firSeq, List.getElem?_map, List.getElem?_range hn]
  rfl

/-- Settles O41: each term is the last one of a longer tap list; complex samples are filtered part by part. -/
theorem firSumInOrder : Obligations.FirSumInOrder := by
  refine ⟨fun w h x => ⟨firSeq_length h x, fun n hn => firSeq_getElem? h x hn, fun n c => ⟨rfl, fun hn => ?_,
    fun v hn hv => ?_⟩⟩, fun h x => ⟨firCx_re h x, firCx_im h x⟩,
    fun h fs => ⟨fun x => ⟨_, rfl, firCx_re _ x, firCx_im _ x⟩, fun _ => rfl, fun _ => rfl⟩⟩
  · rw [firAt_append, firTerm_late hn]
  · rw [firAt_append, firTerm_sample hn hv]

/-! ### What a sum can be (41_fir.md R164) -/

/-- A value that a filter sum can have: no `-0` and no NaN pattern; an unspecified one keeps no bytes. -/
def Fp.IsSum {w : Nat} : Fp w → Prop
  | .pat b => isNaNBits b = false ∧ b ≠ packFp w true 0
  | .nan => True
  | .unspec bytes => bytes = []

section IsSum
variable {w : Nat} (hw : w = 32 ∨ w = 64)
include hw

theorem ne_negZero_of_mag {b : BitVec w} (h : magOf b ≠ 0) : b ≠ packFp w true 0 := by
  rintro rfl
  exact h (magOf_packFp_zero hw true)

theorem isSum_of_inf {b : BitVec w} (h : isInfBits b = true) : (Fp.pat b).IsSum := by
  refine ⟨isNaNBits_of_inf h, ne_negZero_of_mag hw ?_⟩
  rw [isInfBits_iff.mp h]
  exact Nat.ne_of_gt (infMag_bounds hw).2.1

theorem isSum_posZero : (Fp.pat (packFp w false 0)).IsSum := by
  refine ⟨isNaNBits_of_finite (isFiniteBits_packFp_zero hw false), fun h => ?_⟩
  have hsign := congrArg signOf h
  rw [signOf_packFp_zero hw, signOf_packFp_zero hw] at hsign
  cases hsign

/-- A whole number of units other than zero does not round to zero. -/
theorem isSum_roundFp (s : Bool) {num : Nat} (h : num ≠ 0) : (roundFp w s num 1).IsSum := by
  have hinf := infMag_bounds hw
  have hpos : 1 ≤ roundMag w num 1 := by
    refine le_roundMag le_rfl hinf.2.1 ?_
    have hone : unitsOf w 1 = 1 := unitsOf_subnormal (by
      rcases hw with rfl | rfl <;> decide)
    rw [hone]
    omega
  have hle := roundMag_le_infMag w num (den := 1) le_rfl
  have hmag : magOf (packFp w s (roundMag w num 1)) = roundMag w num 1 := magOf_packFp hinf.1 s (by omega)
  refine ⟨?_, ne_negZero_of_mag hw (by omega)⟩
  rw [← Bool.not_eq_true, isNaNBits_iff, hmag]
  omega

/-- Adding anything to a sum gives a sum: two operands with sum zero give `-0` only if both are `-0`. -/
theorem add_isSum {acc : Fp w} (hacc : acc.IsSum) (v : Fp w) : (Fp.add acc v).IsSum := by
  cases acc with
  | unspec bytes => rfl
  | nan => cases v <;> trivial
  | pat a =>
    cases v with
    | unspec bytes => rfl
    | nan => trivial
    | pat b =>
      obtain ⟨ha, hne⟩ := hacc
      cases hb : isNaNBits b with
      | true =>
        have hnan : Fp.add (.pat a) (.pat b) = .nan :=
          lift2_nan addBits (a := .pat a) (b := .pat b) trivial trivial (.inr hb)
        rw [hnan]
        trivial
      | false =>
        rw [Fp.add, lift2_pat _ ha hb, addBits]
        split
        · next hinf =>
          split
          · trivial
          · exact isSum_of_inf hw hinf
        split
        · next hinf => exact isSum_of_inf hw hinf
        dsimp only
        split
        · next hz =>
          have hsigns : (signOf a && signOf b) = false :=
            Bool.eq_false_iff.mpr fun h => hne ((signOf_and_iff hw hz).mp h).1
          rw [hsigns]
          exact isSum_posZero hw
        · next hz => exact isSum_roundFp hw _ (by omega)

theorem firAt_isSum (h x : List (Fp w)) (n : Nat) : (firAt h x n).IsSum := by
  induction h using List.reverseRecOn with
  | nil => exact isSum_posZero hw
  | append_singleton h c ih =>
    rw [firAt_append]
    exact add_isSum hw ih _

/-- A sum absorbs a zero of either sign. -/
theorem add_zero_of_isSum {acc : Fp w} (hacc : acc.IsSum) (z : Bool) : Fp.add acc (.pat (packFp w z 0)) = acc := by
  have hzfin := isFiniteBits_packFp_zero hw z
  cases acc with
  | unspec bytes => rw [show bytes = [] from hacc]; rfl
  | nan => rfl
  | pat a =>
    obtain ⟨hnan, hne⟩ := hacc
    cases hinf : isInfBits a with
    | true => exact add_inf_left hinf (isNaNBits_of_finite hzfin) fun h => by simp [isInfBits_of_finite hzfin] at h
    | false =>
      have hfin : isFiniteBits a = true := by
        rw [← Bool.not_eq_true, isNaNBits_iff] at hnan
        rw [← Bool.not_eq_true, isInfBits_iff] at hinf
        rw [isFiniteBits_iff]
        omega
      cases hzero : isZeroBits a with
      | false => exact add_zero_right hw z hfin hzero
      | true =>
        have hmag := isZeroBits_iff.mp hzero
        have hsum : svalOf a + svalOf (packFp w z 0) = 0 := by
          rw [svalOf_eq_zero.mpr hmag, svalOf_eq_zero.mpr (magOf_packFp_zero hw z)]
          rfl
        have ha := eq_packFp_zero (infMag_bounds hw).1 hmag
        have hsign : signOf a = false := Bool.eq_false_iff.mpr fun hs => hne (by rw [ha, hs])
        rw [add_of_sum_eq_zero hfin hzfin hsum, hsign, Bool.false_and, ha, hsign]

end IsSum

/-- Settles O42: every element is a sum. -/
theorem firNeverNegativeZero : Obligations.FirNeverNegativeZero := by
  intro w hw h x v hv
  obtain ⟨n, -, rfl⟩ := List.mem_map.mp hv
  have hsum := firAt_isSum hw h x n
  intro hzero
  rw [hzero] at hsum
  exact hsum.2 rfl

/-! ### Causality (41_fir.md R164) -/

/-- Output `n` looks at elements 0 to `n` only. -/
theorem firAt_of_take_eq {w : Nat} (h : List (Fp w)) {x x' : List (Fp w)} {n : Nat}
    (hx : x.take (n + 1) = x'.take (n + 1)) : firAt h x n = firAt h x' n := by
  have hget (k : Nat) : x.getD (n - k) Fp.zero = x'.getD (n - k) Fp.zero := by
    have hk := congrArg (fun l => l[n - k]?) hx
    simp only [List.getElem?_take_of_lt (show n - k < n + 1 by omega)] at hk
    rw [List.getD_eq_getElem?_getD, List.getD_eq_getElem?_getD, hk]
  induction h using List.reverseRecOn with
  | nil => rfl
  | append_singleton h c ih => rw [firAt_append, firAt_append, ih, firTerm, firTerm, hget]

/-- A finite tap beyond index `n` adds a zero, which the sum absorbs. -/
theorem firAt_take {w : Nat} (hw : w = 32 ∨ w = 64) {h : List (Fp w)} (x : List (Fp w)) (n : Nat)
    (hfin : ∀ c ∈ h, ∃ b, c = .pat b ∧ isFiniteBits b = true) : firAt h x n = firAt (h.take (n + 1)) x n := by
  induction h using List.reverseRecOn with
  | nil => rfl
  | append_singleton h c ih =>
    have ih' := ih fun d hd => hfin d (List.mem_append_left _ hd)
    rcases Nat.lt_or_ge n h.length with hlt | hge
    · obtain ⟨b, rfl, hb⟩ := hfin c (by simp)
      rw [firAt_append, firTerm_late hlt, mul_zero_pat hw hb, add_zero_of_isSum hw (firAt_isSum hw h x n), ih',
        List.take_append_of_le_length hlt]
    · rw [List.take_of_length_le (by simpa using hge)]

/-- Settles O43: a sum sees only the elements up to `n`, and finite taps beyond index `n` meet a zero. -/
theorem firCausal : Obligations.FirCausal :=
  fun _ hw h x _ n _ _ hx => ⟨firAt_of_take_eq h hx, firAt_take hw x n⟩

/-! ### Exact values (41_fir.md R162) -/

theorem rat_eq_some {w : Nat} {v : Fp w} {r : ℚ} (h : Fp.rat? v = some r) :
    ∃ b, v = .pat b ∧ isFiniteBits b = true ∧ r = (svalOf b : ℚ) / 2 ^ unitLog w := by
  cases v with
  | nan => cases h
  | unspec _ => cases h
  | pat b =>
    cases hfin : isFiniteBits b with
    | false => simp [Fp.rat?, Fp.units?, hfin] at h
    | true =>
      rw [rat_pat hfin] at h
      exact ⟨b, rfl, hfin, (Option.some.inj h).symm⟩

/-- The signed value of a product, by signs and magnitudes. -/
theorem svalOf_mul {w : Nat} (a b : BitVec w) : svalOf a * svalOf b =
    if (signOf a ^^ signOf b) then -((unitsOf w (magOf a) * unitsOf w (magOf b) : Nat) : Int)
    else (unitsOf w (magOf a) * unitsOf w (magOf b) : Nat) := by
  unfold svalOf
  cases signOf a <;> cases signOf b <;> simp

section Exact
variable {w : Nat} (hw : w = 32 ∨ w = 64)
include hw

theorem rat_zero (z : Bool) : Fp.rat? (.pat (packFp w z 0)) = some 0 := by
  rw [rat_pat (isFiniteBits_packFp_zero hw z), svalOf_eq_zero.mpr (magOf_packFp_zero hw z)]
  simp

/-- A sum that is a value of the format is computed exactly. -/
theorem rat_add {a b : Fp w} {x y : ℚ} (ha : Fp.rat? a = some x) (hb : Fp.rat? b = some y)
    (hrep : Representable w (x + y)) : Fp.rat? (Fp.add a b) = some (x + y) := by
  obtain ⟨a, rfl, hfa, rfl⟩ := rat_eq_some ha
  obtain ⟨b, rfl, hfb, rfl⟩ := rat_eq_some hb
  obtain ⟨c, hc⟩ := hrep
  obtain ⟨c, rfl, hfc, hval⟩ := rat_eq_some hc
  have hne : (2 : ℚ) ^ unitLog w ≠ 0 := by positivity
  have hsum : svalOf a + svalOf b = svalOf c := by
    rw [← add_div, div_left_inj' hne] at hval
    exact_mod_cast hval
  by_cases hz : svalOf c = 0
  · rw [add_of_sum_eq_zero hfa hfb (hsum.trans hz), rat_zero hw, hval, hz]
    simp
  · rw [add_of_sum_ne_zero hfa hfb (hsum ▸ hz), hsum, roundFp_svalOf (infMag_bounds hw).1 hfc (mt svalOf_eq_zero.mpr hz),
      rat_pat hfc, hval]

/-- A product that is a value of the format is computed exactly. -/
theorem rat_mul {a b : Fp w} {x y : ℚ} (ha : Fp.rat? a = some x) (hb : Fp.rat? b = some y)
    (hrep : Representable w (x * y)) : Fp.rat? (Fp.mul a b) = some (x * y) := by
  obtain ⟨a, rfl, hfa, rfl⟩ := rat_eq_some ha
  obtain ⟨b, rfl, hfb, rfl⟩ := rat_eq_some hb
  obtain ⟨c, hc⟩ := hrep
  obtain ⟨c, rfl, hfc, hval⟩ := rat_eq_some hc
  have hne : (2 : ℚ) ^ unitLog w ≠ 0 := by positivity
  have hprod : svalOf a * svalOf b = svalOf c * 2 ^ unitLog w := by
    rw [div_mul_div_comm, div_eq_div_iff (by positivity) hne, ← mul_assoc] at hval
    exact_mod_cast mul_right_cancel₀ hne hval
  have hunits : unitsOf w (magOf a) * unitsOf w (magOf b) = unitsOf w (magOf c) * 2 ^ unitLog w := by
    have habs := congrArg Int.natAbs hprod
    simpa [Int.natAbs_mul, Int.natAbs_pow] using habs
  have hcmag := isFiniteBits_iff.mp hfc
  rw [mul_of_finite hfa hfb, hunits, roundFp, roundMag_unitsOf hcmag (Nat.two_pow_pos _), rat_packFp hw _ hcmag,
    div_mul_div_comm, ← Int.cast_mul, svalOf_mul, ← pow_add]
  exact congrArg some (value_scale _ hunits rfl).symm

/-- The exact sum over the taps so far. -/
theorem rat_firAt {h x : List (Fp w)} {hr xr : List ℚ} (hh : h.map Fp.rat? = hr.map some)
    (hx : x.map Fp.rat? = xr.map some) {n : Nat} (hn : n < xr.length) (hexact : FirExactAt w hr xr n) {j : Nat}
    (hj : j ≤ h.length) : Fp.rat? (firAt (h.take j) x n) =
      some (∑ k ∈ Finset.range (min (n + 1) j), hr.getD k 0 * xr.getD (n - k) 0) := by
  obtain ⟨hproducts, hsums⟩ := hexact
  have hlen : h.length = hr.length := by simpa using congrArg List.length hh
  have hget {l : List (Fp w)} {lr : List ℚ} (hl : l.map Fp.rat? = lr.map some) {i : Nat} (hi : i < lr.length) :
      ∃ v, l[i]? = some v ∧ Fp.rat? v = some (lr.getD i 0) := by
    have hi' := congrArg (fun l => l[i]?) hl
    simp only [List.getElem?_map, List.getElem?_eq_getElem hi, Option.map_some, Option.map_eq_some_iff] at hi'
    rwa [List.getD_eq_getElem lr 0 hi]
  induction j with
  | zero =>
    rw [Nat.min_zero, Finset.sum_range_zero]
    exact rat_zero hw false
  | succ j ih =>
    have ih := ih (by omega)
    obtain ⟨c, hc, hcr⟩ := hget hh (i := j) (by omega)
    have htake : h.take (j + 1) = h.take j ++ [c] := by rw [List.take_add_one, hc]; rfl
    have hjlen : (h.take j).length = j := List.length_take_of_le (by omega)
    have hsum := hsums (j + 1) (by omega)
    rw [htake, firAt_append, hjlen]
    rcases Nat.lt_or_ge n j with hlt | hge
    · obtain ⟨b, rfl, hb, -⟩ := rat_eq_some hcr
      rw [firTerm_late hlt, mul_zero_pat hw hb]
      rw [show min (n + 1) (j + 1) = min (n + 1) j by omega] at hsum ⊢
      have hadd := rat_add hw ih (rat_zero hw (signOf b)) (by rwa [add_zero])
      rwa [add_zero] at hadd
    · obtain ⟨v, hv, hvr⟩ := hget hx (i := n - j) (by omega)
      rw [firTerm_sample hge hv]
      rw [show min (n + 1) (j + 1) = j + 1 by omega, Finset.sum_range_succ] at hsum ⊢
      rw [show min (n + 1) j = j by omega] at ih
      exact rat_add hw ih (rat_mul hw hcr hvr (hproducts j (by omega) hge)) hsum

end Exact

/-- The ideal filter pass, output by output (41_fir.md R162). -/
def idealFir (h x : List ℚ) : List ℚ :=
  (List.range x.length).map fun n => ∑ k ∈ Finset.range (min (n + 1) h.length), h.getD k 0 * x.getD (n - k) 0

theorem idealFir_spec (h x : List ℚ) : IdealFir h x (idealFir h x) := by
  refine ⟨by simp [idealFir], fun n hn => ?_⟩
  rw [List.getD_eq_getElem _ _ (by simpa [idealFir] using hn)]
  simp [idealFir]

/-- Settles O44: by `rat_firAt` with all taps. -/
theorem firMeetsIdeal : Obligations.FirMeetsIdeal := by
  intro w hw h x hr xr hh hx hexact
  refine ⟨idealFir hr xr, ?_, idealFir_spec hr xr⟩
  have hlenh : h.length = hr.length := by simpa using congrArg List.length hh
  have hlenx : x.length = xr.length := by simpa using congrArg List.length hx
  rw [firSeq, idealFir, List.map_map, List.map_map, hlenx]
  refine List.map_congr_left fun n hn => ?_
  have hn := List.mem_range.mp hn
  have hvalue := rat_firAt hw hh hx hn (hexact n hn) (le_refl h.length)
  rw [List.take_length, hlenh] at hvalue
  exact hvalue

end Sys2Proof.Machine
end

section
/-! The translator's multiplier, the squared magnitude and the phase difference (42_translate.md R170 to R174;
44_detectors.md R191 to R196; 45_demodulators.md R202). -/
namespace Sys2Proof.Machine

/-! ### The multiplier (42_translate.md R172 to R174) -/

/-- Where the rate divides `fc · n` the multiplier is `(1, +0)`. -/
theorem carrierAt_of_dvd {fc : Int} {n fs : Nat} (h : (fs : Int) ∣ fc * n) :
    carrierAt fc fs n = ⟨.pat 0x3F800000, .pat 0x00000000⟩ := by
  have hphase : phaseIndex fc n fs = 0 := by rw [phaseIndex, Int.emod_eq_zero_of_dvd h]; rfl
  have hzero : (Fp.zero : F32) = .pat 0x00000000 := by decide
  rw [carrierAt, hphase, cos2pi32, sin2pi32, if_pos rfl, if_pos rfl, hzero]
  rfl

/-- Settles O45: congruent products have one phase index, and products divisible by the rate have the index 0. -/
theorem multiplierPeriodic : Obligations.MultiplierPeriodic := by
  refine ⟨fun _ _ _ => rfl, fun fc fc' n n' fs _ => ⟨fun h => ?_, carrierAt_of_dvd⟩⟩
  have hphase : phaseIndex fc n fs = phaseIndex fc' n' fs := by
    rw [phaseIndex, phaseIndex, Int.emod_eq_emod_iff_emod_sub_eq_zero.mpr (Int.emod_eq_zero_of_dvd h)]
  rw [carrierAt, carrierAt, hphase]

/-- Settles O46: the exact exponential is that of the phase index, which is below the rate. -/
theorem multiplierAccurate : Obligations.MultiplierAccurate := by
  intro err fc n fs haccurate hfs
  obtain ⟨⟨c, hc, hcerr⟩, ⟨v, hv, hverr⟩⟩ := haccurate _ fs (phaseIndex_lt fc n hfs)
  have hangle : Complex.I * (2 * Real.pi * (phaseIndex fc n fs : ℂ) / fs) =
      ((2 * Real.pi * phaseIndex fc n fs / fs : ℝ) : ℂ) * Complex.I := by
    push_cast
    ring
  refine ⟨c, v, hc, hv, ?_, ?_⟩
  · rwa [exp_phaseIndex fc n hfs, hangle, Complex.exp_ofReal_mul_I_re]
  · rwa [exp_phaseIndex fc n hfs, hangle, Complex.exp_ofReal_mul_I_im]

/-! ### The squared magnitude (44_detectors.md R191) -/

/-- A two-operand rule answers a pattern only on two patterns that are not NaN. -/
theorem lift2_eq_pat {w : Nat} {op : BitVec w → BitVec w → Fp w} {u v : Fp w} {c : BitVec w}
    (h : Fp.lift2 op u v = .pat c) :
    ∃ a b, u = .pat a ∧ v = .pat b ∧ isNaNBits a = false ∧ isNaNBits b = false ∧ op a b = .pat c := by
  cases u with
  | nan => cases v <;> cases h
  | unspec _ => cases h
  | pat a =>
    cases v with
    | nan => cases h
    | unspec _ => cases h
    | pat b =>
      rw [Fp.lift2] at h
      split at h
      · cases h
      · next hnan =>
        rw [Bool.or_eq_true, not_or, Bool.not_eq_true, Bool.not_eq_true] at hnan
        exact ⟨a, b, rfl, rfl, hnan.1, hnan.2, h⟩

/-- Sign bit 0 and no NaN pattern. -/
def NonNegative {w : Nat} (c : BitVec w) : Prop := signOf c = false ∧ isNaNBits c = false

theorem nonNegative_packFp {w : Nat} (hw : w = 32 ∨ w = 64) {m : Nat} (hm : m ≤ infMag w) :
    NonNegative (packFp w false m) := by
  obtain ⟨hpos, -, hinf⟩ := infMag_bounds hw
  refine ⟨signOf_packFp hpos false (by omega), ?_⟩
  rw [← Bool.not_eq_true, isNaNBits_iff, magOf_packFp hpos false (by omega)]
  omega

/-- A square has sign 0: the signs of the operands are equal. -/
theorem mul_self_nonNegative {w : Nat} (hw : w = 32 ∨ w = 64) {v : Fp w} {c : BitVec w} (h : Fp.mul v v = .pat c) :
    NonNegative c := by
  obtain ⟨a, b, rfl, hb, ha, -, hop⟩ := lift2_eq_pat h
  cases hb
  rw [mulBits, bne_self_eq_false] at hop
  split at hop
  · split at hop
    · cases hop
    · cases hop
      exact nonNegative_packFp hw le_rfl
  · cases hop
    exact nonNegative_packFp hw (roundMag_le_infMag w _ (Nat.two_pow_pos _))

theorem svalOf_nonNegative {w : Nat} {a : BitVec w} (h : signOf a = false) : 0 ≤ svalOf a := by
  rw [svalOf, h]
  simp

theorem add_nonNegative {w : Nat} (hw : w = 32 ∨ w = 64) {a b c : BitVec w} (ha : NonNegative a) (hb : NonNegative b)
    (h : Fp.add (.pat a) (.pat b) = .pat c) : NonNegative c := by
  rw [Fp.add, lift2_pat _ ha.2 hb.2, addBits] at h
  split at h
  · split at h
    · cases h
    · cases h
      exact ha
  split at h
  · cases h
    exact hb
  dsimp only at h
  split at h
  · rw [ha.1, Bool.false_and] at h
    cases h
    exact nonNegative_packFp hw (Nat.zero_le _)
  · have hsign : decide (svalOf a + svalOf b < 0) = false :=
      decide_eq_false (Int.not_lt.mpr (Int.add_nonneg (svalOf_nonNegative ha.1) (svalOf_nonNegative hb.1)))
    rw [hsign] at h
    cases h
    exact nonNegative_packFp hw (roundMag_le_infMag w _ le_rfl)

/-- Settles O47: squares have sign 0, and so has the sum of two of them. -/
theorem sqMagNeverNegative : Obligations.SqMagNeverNegative := by
  refine ⟨fun z c h => ?_, fun w hw v c h => mul_self_nonNegative hw h⟩
  obtain ⟨a, b, ha, hb, -⟩ := lift2_eq_pat h
  rw [ha, hb] at h
  exact add_nonNegative (.inl rfl) (mul_self_nonNegative (.inl rfl) ha) (mul_self_nonNegative (.inl rfl) hb) h

/-! ### The corrected phase difference (44_detectors.md R195, R196) -/

/-- `PI32` and `TWOPI32` in units: the one is exactly twice the other. -/
theorem pi32_units : svalOf (0x40490FDB : Word) = unitsOf 32 0x40490FDB ∧
    svalOf (0x40C90FDB : Word) = 2 * (unitsOf 32 0x40490FDB : Int) ∧ isFiniteBits (0x40490FDB : Word) = true ∧
    isFiniteBits (0x40C90FDB : Word) = true := by
  decide +kernel

theorem mag_le_iff {a : Word} {m : Nat} : magOf a ≤ m ↔ (svalOf a).natAbs ≤ unitsOf 32 m := by
  rw [natAbs_svalOf, unitsOf_le_iff]

theorem finite_of_mag_le {a : Word} {m : Nat} (hm : m < infMag 32) (h : magOf a ≤ m) : isFiniteBits a = true :=
  isFiniteBits_iff.mpr (h.trans_lt hm)

/-- A sum whose exact value is bounded by a pattern is bounded by that pattern after rounding. -/
theorem add_bounded {a b : Word} {m : Nat} (ha : isFiniteBits a = true) (hb : isFiniteBits b = true)
    (hm : m < infMag 32) (h : (svalOf a + svalOf b).natAbs ≤ unitsOf 32 m) :
    ∃ c, Fp.add (.pat a) (.pat b) = .pat c ∧ magOf c ≤ m := by
  by_cases hz : svalOf a + svalOf b = 0
  · exact ⟨_, add_of_sum_eq_zero ha hb hz, (magOf_packFp_zero (.inl rfl) _).le.trans (Nat.zero_le m)⟩
  · have hle : roundMag 32 (svalOf a + svalOf b).natAbs 1 ≤ m := roundMag_le le_rfl (by rwa [Nat.mul_one])
    obtain ⟨-, hmag, -⟩ := packFp_finite (.inl rfl) (decide (svalOf a + svalOf b < 0)) (hle.trans_lt hm)
    exact ⟨_, add_of_sum_ne_zero ha hb hz, hmag.le.trans hle⟩

theorem sub_bounded {a b : Word} {m : Nat} (ha : isFiniteBits a = true) (hb : isFiniteBits b = true)
    (hm : m < infMag 32) (h : (svalOf a - svalOf b).natAbs ≤ unitsOf 32 m) :
    ∃ c, Fp.sub (.pat a) (.pat b) = .pat c ∧ magOf c ≤ m := by
  refine add_bounded ha ((isFiniteBits_flipSign (by decide) b).trans hb) hm ?_
  rwa [svalOf_flipSign (by decide)]

/-- The two comparisons of the correction, in units. -/
theorem gt_pi32 {d : Word} (hd : isFiniteBits d = true) :
    Fp.gt (.pat d) pi32 = decide ((unitsOf 32 0x40490FDB : Int) < svalOf d) ∧
      Fp.lt (.pat d) (Fp.neg pi32) = decide (svalOf d < -(unitsOf 32 0x40490FDB : Int)) := by
  obtain ⟨hpi, -, hfin, -⟩ := pi32_units
  have hneg := (isFiniteBits_flipSign (by decide) (0x40490FDB : Word)).trans hfin
  rw [Fp.lt, pi32, Fp.neg, gt_pat (isNaNBits_of_finite hd) (isNaNBits_of_finite hfin),
    gt_pat (isNaNBits_of_finite hneg) (isNaNBits_of_finite hd), svalOf_flipSign (by decide), hpi]
  exact ⟨rfl, rfl⟩

theorem wrappedDiff_range {a b : Word} (ha : magOf a ≤ 0x40490FDB) (hb : magOf b ≤ 0x40490FDB) :
    ∃ d, wrappedDiff (.pat a) (.pat b) = .pat d ∧ magOf d ≤ 0x40490FDB := by
  obtain ⟨-, htwo, -, htwofin⟩ := pi32_units
  have hpiInf : (0x40490FDB : Nat) < infMag 32 := by decide
  have htwoInf : (0x40C90FDB : Nat) < infMag 32 := by decide
  have htwoUnits : unitsOf 32 0x40C90FDB = 2 * unitsOf 32 0x40490FDB := by decide +kernel
  have hau := mag_le_iff.mp ha
  have hbu := mag_le_iff.mp hb
  obtain ⟨d, hd, hdmag⟩ := sub_bounded (m := 0x40C90FDB) (finite_of_mag_le hpiInf ha) (finite_of_mag_le hpiInf hb) htwoInf
    (by omega)
  have hdu := mag_le_iff.mp hdmag
  have hdfin := finite_of_mag_le htwoInf hdmag
  obtain ⟨hgt, hlt⟩ := gt_pi32 hdfin
  rw [wrappedDiff, hd]
  simp only [hgt, hlt, decide_eq_true_eq, twoPi32]
  split
  · exact sub_bounded hdfin htwofin hpiInf (by omega)
  split
  · exact add_bounded hdfin htwofin hpiInf (by omega)
  · exact ⟨d, rfl, mag_le_iff.mpr (by omega)⟩

/-- Settles O49: the difference is within one turn, and the correction brings it within half a turn exactly. -/
theorem wrappedDifferenceInRange : Obligations.WrappedDifferenceInRange :=
  ⟨fun _ _ => rfl, fun _ _ => wrappedDiff_range⟩

/-- The difference of an angle with itself is `+0`, and needs no correction. -/
theorem wrappedDiff_self {a : Word} (ha : isFiniteBits a = true) :
    wrappedDiff (.pat a) (.pat a) = .pat (packFp 32 false 0) := by
  have hw : (32 : Nat) = 32 ∨ (32 : Nat) = 64 := .inl rfl
  have hsub : Fp.sub (.pat a) (.pat a) = .pat (packFp 32 false 0) := add_neg_self (by decide) ha
  have hval : svalOf (packFp 32 false 0) = 0 := svalOf_eq_zero.mpr (magOf_packFp_zero hw false)
  obtain ⟨hgt, hlt⟩ := gt_pi32 (isFiniteBits_packFp_zero hw false)
  rw [wrappedDiff, hsub]
  simp only [hgt, hlt, hval, decide_eq_true_eq]
  rw [if_neg (by omega), if_neg (by omega)]

/-- Settles O48: equal samples have equal angles, whose difference is `+0`; the scale is positive and finite. -/
theorem constantDiscriminatesToZero : Obligations.ConstantDiscriminatesToZero := by
  intro re im fs fmdev k hre him h1 h2 h3 h4
  obtain ⟨c, hc, hcsign, -, hcfin⟩ := fmscale_normal h1 h2 h3 h4
  obtain ⟨a, ha, -, harange⟩ := atan2F_range him hre
  have hphase : phaseOf ⟨.pat re, .pat im⟩ = .pat a := ha
  have hzero : (0x00000000 : BitVec 32) = packFp 32 false 0 := by decide
  have helem : Fp.mul (fmscale fs fmdev) (wrappedDiff (.pat a) (.pat a)) = .pat 0x00000000 := by
    rw [hc, wrappedDiff_self (finite_of_mag_le (by decide) harange), mul_zero_pat (.inl rfl) (isFiniteBits_iff.mpr hcfin),
      hcsign, hzero]
  rw [discriminateCx_eq, List.tail_replicate, List.zipWith_replicate, Nat.add_sub_cancel,
    Nat.min_eq_right (Nat.le_succ k), hphase, helem]

end Sys2Proof.Machine
end
